-- ==== Sys2Proof/Word.lean ====
section
/-!
DEFINITION. The words of the block: a byte of a buffer, a bit of a stream, a 64-bit value (spec 00_scope R11, R15).
-/

namespace Sys2Proof

/-- A byte of a buffer (R11: "the byte is 8 bits"). -/
abbrev Byte := BitVec 8

/-- One bit of a stream or of a one-bit operand: `true` is 1, `false` is 0. -/
abbrev Bit := Bool

/-- A 64-bit value: the `arg` of a command and the `data` of a response (R60, R64). Whether it is read as unsigned or
as a two's complement pattern is the command's business (R15). -/
abbrev Word64 := BitVec 64

/-- A bit offset within a byte, counted from the most significant end (R13); the width of `D.bit` and `E.bit` (R18). -/
abbrev BitOffset := BitVec 3

end Sys2Proof
end

