-- ==== Sys2Proof/Config.lean ====
section
/-!
DEFINITION. What an implementation fixes (spec 00_scope R11, R12) and the one value the spec leaves free (70_reset R117).
-/

namespace Sys2Proof

/-- `IDX_W`, the width in bits of a byte-index register and of a buffer length: "open parameter of the model, default 64"
(R12, D7). DESIGN CHOICE: the default (log entry 9). Byte indices themselves are unbounded naturals, which R12 allows;
the width bounds the length a command can carry. -/
abbrev Config.idxW : Nat := 64

/-- `K_MAX`, the largest zero run of a codeword (R11, R49). -/
abbrev Config.kMax : Nat := 64

/-- FREE VALUE (log entry 7): how many bits of the run an Encoder write command was writing had landed when the n-th reset
abandoned it. R117 says only that it is "some initial part of the run". -/
opaque Config.abandonedAfter : Nat → Nat

end Sys2Proof
end

