-- ==== Sys2Proof/Syntax.lean ====
section
/-!
DEFINITION. The instructions: one constructor per row of the opcode table (spec 30_encoding R62), and the two records
in which they travel, the host's command (R60) and a unit's micro-operation (R63).
-/

namespace Sys2Proof

/-- A buffer reference (R60): where the host keeps the buffer, and its length in bytes. The base is opaque to the block;
it serves only as the origin of its memory accesses (10_state R27). -/
structure BufRef where
  base : Nat
  len  : Nat
deriving DecidableEq, Repr

/-- The fourteen operations of the opcode map (R62), with the operands each one uses. -/
inductive Instr where
  /-- `DEC.NEW`, construction of a Decoder: a buffer and a start offset, all 64 bits of it significant (R78). -/
  | decNew (buf : BufRef) (off : Word64)
  /-- `DEC.NEXT_BIT` (R79). -/
  | decNextBit
  /-- `DEC.NEXT_UNSIGNED` (R82). -/
  | decNextUnsigned
  /-- `DEC.NEXT_SIGNED` (R84). -/
  | decNextSigned
  /-- `DEC.SKIP_NEXT` (R85). -/
  | decSkipNext
  /-- `ENC.NEW`, construction of an Encoder (R93). -/
  | encNew (buf : BufRef) (off : Word64)
  /-- `ENC.PUT_BIT` of the bit `arg[0]` (R94). -/
  | encPutBit (b : Bit)
  /-- `ENC.PUT_UNSIGNED` of the value `arg` (R95). -/
  | encPutUnsigned (v : Word64)
  /-- `ENC.CLOSE` (R98). -/
  | encClose
  /-- `RC.NEXT_BIT`, a micro-operation of the Decoder on its cursor (R72). -/
  | rcNextBit
  /-- `RC.SKIP_BITS`; its rule is written for every natural count (R74). -/
  | rcSkipBits (n : Nat)
  /-- `WC.PUT_BIT`, a micro-operation of the Encoder on its cursor (R89). -/
  | wcPutBit (b : Bit)
  /-- `WC.PUT_ZEROS`; its rule is written for every natural count (R90). -/
  | wcPutZeros (n : Nat)
  /-- `WC.PUT_BITS` of a byte sequence from a start bit (R91). -/
  | wcPutBits (src : List Byte) (start : Nat)
deriving DecidableEq, Repr

/-- A host command: "a record of three fields", `op`, `arg` and `buf`, every command of the same length (R60). -/
structure HostCommand where
  op   : BitVec 8
  arg  : Word64
  base : Nat
  len  : BitVec Config.idxW
deriving DecidableEq, Repr

/-- A micro-operation: "a record `(op, n, b, src, start)`" (R63). -/
structure MicroOp where
  op    : BitVec 8
  n     : BitVec 7
  b     : Bit
  src   : List Byte
  start : Nat
deriving DecidableEq, Repr

/-- What can stand on a port: a command on the host's port, or a micro-operation on the internal port of the unit that
issues it to its own cursor (R61). -/
inductive Wire where
  | command (c : HostCommand)
  | micro (u : MicroOp)
deriving DecidableEq, Repr

/-- The `op` byte of what stands on a port. -/
def Wire.op : Wire → BitVec 8
  | .command c => c.op
  | .micro u => u.op

end Sys2Proof
end

