-- ==== Sys2Proof/WellFormed.lean ====
section
/-!
DEFINITION. Which instructions fit their encoding: the lengths and counts that have a width of their own (spec 00_scope R12).
-/

namespace Sys2Proof

/-- The length of a buffer reference fits `IDX_W` bits (R12, R60). -/
abbrev BufRef.WellFormed (b : BufRef) : Prop := b.len < 2 ^ Config.idxW

/-- An instruction fits its record: a buffer length in `IDX_W` bits (R60), a bit count in `N_W = 7` bits (R63). -/
def Instr.wellFormed : Instr → Bool
  | .decNew buf _ => decide buf.WellFormed
  | .encNew buf _ => decide buf.WellFormed
  | .rcSkipBits n => decide (n < 2 ^ 7)
  | .wcPutZeros n => decide (n < 2 ^ 7)
  | .decNextBit => true
  | .decNextUnsigned => true
  | .decNextSigned => true
  | .decSkipNext => true
  | .encPutBit _ => true
  | .encPutUnsigned _ => true
  | .encClose => true
  | .rcNextBit => true
  | .wcPutBit _ => true
  | .wcPutBits _ _ => true

end Sys2Proof
end

