-- ==== Sys2Proof/Decode.lean ====
section
/-!
DEFINITION. The decoder, total on all 256 codes of either port, rejecting by name (spec 30_encoding R61, R62, R67); then the
encoder.
-/

namespace Sys2Proof

/-- Why a record names no instruction. -/
inductive DecodeError where
  /-- The host sent a code that no row of the opcode map has (R67). -/
  | unassigned (op : BitVec 8)
  /-- The host sent the code of a micro-operation, which is "not accepted from the host" (R61, R67). -/
  | internalFromHost (op : BitVec 8)
  /-- A code on an internal port that is no micro-operation of the opcode map (R62). -/
  | notAMicroOp (op : BitVec 8)
deriving DecidableEq, Repr

/-- The five codes of micro-operations (R62). -/
def isMicroCode (op : BitVec 8) : Bool :=
  op == 0x80#8 || op == 0x81#8 || op == 0xC0#8 || op == 0xC1#8 || op == 0xC2#8

/-- A command on the host's port (R62). `op` alone selects the command (R60); operand bits a command does not use are
ignored (R68): `ENC.PUT_BIT` takes `arg[0]`, the commands without operands take nothing. -/
def decodeCommand (c : HostCommand) : Except DecodeError Instr :=
  match c.op with
  | 0x00#8 => .ok (.decNew ⟨c.base, c.len.toNat⟩ c.arg)
  | 0x01#8 => .ok .decNextBit
  | 0x02#8 => .ok .decNextUnsigned
  | 0x03#8 => .ok .decNextSigned
  | 0x04#8 => .ok .decSkipNext
  | 0x40#8 => .ok (.encNew ⟨c.base, c.len.toNat⟩ c.arg)
  | 0x41#8 => .ok (.encPutBit (c.arg.getLsbD 0))
  | 0x42#8 => .ok (.encPutUnsigned c.arg)
  | 0x43#8 => .ok .encClose
  | op => if isMicroCode op then .error (.internalFromHost op) else .error (.unassigned op)

/-- A micro-operation on an internal port (R62, R63). -/
def decodeMicro (u : MicroOp) : Except DecodeError Instr :=
  match u.op with
  | 0x80#8 => .ok .rcNextBit
  | 0x81#8 => .ok (.rcSkipBits u.n.toNat)
  | 0xC0#8 => .ok (.wcPutBit u.b)
  | 0xC1#8 => .ok (.wcPutZeros u.n.toNat)
  | 0xC2#8 => .ok (.wcPutBits u.src u.start)
  | op => .error (.notAMicroOp op)

/-- The decoder of both ports. -/
def decode : Wire → Except DecodeError Instr
  | .command c => decodeCommand c
  | .micro u => decodeMicro u

/-- A host command whose unused fields are zero. -/
def plainCommand (op : BitVec 8) (arg : Word64) : Wire := .command ⟨op, arg, 0, 0⟩

/-- A host command that carries a buffer reference. -/
def bufferCommand (op : BitVec 8) (buf : BufRef) (arg : Word64) : Wire :=
  .command ⟨op, arg, buf.base, BitVec.ofNat Config.idxW buf.len⟩

/-- The encoder: the record that carries an instruction, its unused fields zero (R60, R62, R63). -/
def encode : Instr → Wire
  | .decNew buf off => bufferCommand 0x00 buf off
  | .decNextBit => plainCommand 0x01 0
  | .decNextUnsigned => plainCommand 0x02 0
  | .decNextSigned => plainCommand 0x03 0
  | .decSkipNext => plainCommand 0x04 0
  | .encNew buf off => bufferCommand 0x40 buf off
  | .encPutBit b => plainCommand 0x41 (if b then 1 else 0)
  | .encPutUnsigned v => plainCommand 0x42 v
  | .encClose => plainCommand 0x43 0
  | .rcNextBit => .micro ⟨0x80, 0, false, [], 0⟩
  | .rcSkipBits n => .micro ⟨0x81, BitVec.ofNat 7 n, false, [], 0⟩
  | .wcPutBit b => .micro ⟨0xC0, 0, b, [], 0⟩
  | .wcPutZeros n => .micro ⟨0xC1, BitVec.ofNat 7 n, false, [], 0⟩
  | .wcPutBits src start => .micro ⟨0xC2, 0, false, src, start⟩

/-- What stands on a port when only the `op` byte is given and every operand bit is 0: `op[7]` tells the internal ports
`10` and `11` from the host's `00` and `01` (R61). -/
def wireOfOp (op : BitVec 8) : Wire :=
  if op.getLsbD 7 then .micro ⟨op, 0, false, [], 0⟩ else .command ⟨op, 0, 0, 0⟩

/-- The instruction of an opcode-table word. The table numbers the bits of the `op` byte alone (a record's other fields
have no bit numbers in the spec), so the bits above the eighth are operand bits and are 0. -/
def decodeTableWord (nbits w : Nat) : Option Instr :=
  (decode (wireOfOp (BitVec.ofNat 8 (w % 2 ^ nbits)))).toOption

end Sys2Proof
end

