-- ==== Sys2Proof/Machine/State.lean ====
section
/-!
DEFINITION. The state of the block and of its host, as plain data; what a command answers; the reasons a run stops; the state
after reset (spec 10_state, 30_encoding R64, 60_exceptions R103, 70_reset R116).
-/

namespace Sys2Proof.Machine

/-- The failure statuses (R103). -/
inductive Failure where
  /-- "a read needed a bit beyond the end of the buffer" -/
  | endOfStream
  /-- "the codeword under the cursor stands for no 64-bit value" -/
  | overflow
  /-- "a write needed a bit position beyond the end of the buffer" -/
  | full
  /-- "`NEW` with an empty buffer or a start offset above 7" -/
  | invalidArgument
  /-- "unassigned `op`, internal `op` from the host, or a command to an unbound unit" -/
  | illegal
deriving DecidableEq, Repr

/-- How a command or a cursor operation ends (R16): `return Ok(v)` or `fail S`. -/
inductive Result (α : Type) where
  | ok (v : α)
  | fail (e : Failure)
deriving DecidableEq, Repr

/-- What an Ok response carries (R64). -/
inductive Payload where
  /-- No result field is defined. -/
  | empty
  /-- The bit a cursor hands to its unit (`RC.NEXT_BIT`). -/
  | bit (b : Bit)
  /-- The `data` field. -/
  | data (v : Word64)
  /-- The `pos_byte` and `pos_bit` fields (`ENC.CLOSE`). -/
  | position (byte : Nat) (bit : BitOffset)
deriving DecidableEq, Repr

/-- A response. R64: "a model is free to make the response a sum type `Ok(result) | Err(status)`"; the record with its zero
padding is computed from it in Flags.lean. -/
abbrev Response := Result Payload

/-- What a unit holds while it is bound: its binding registers `base`, `len` (R27) and its cursor `byte`, `bit` (R18). -/
structure Binding where
  base : Nat
  len  : Nat
  byte : Nat
  bit  : BitOffset
deriving DecidableEq, Repr

/-- The host's memory, in which the buffers lie: cells by rising address, none equal to what an unlisted address reads as. -/
abbrev Memory := List Host.Cell

/-! ## Commands in progress. "Inside one command the unit passes through phases" (R25), and its cursor steps only there (R9); `k`
and `suffix` "live only inside one command" (R29), so the phases hold them. -/

/-- The two units (R9). -/
inductive Side where
  | dec
  | enc
deriving DecidableEq, Repr

/-- What the Decoder counts the zeros of a prefix for. -/
inductive Goal where
  /-- `DEC.NEXT_UNSIGNED`, or `DEC.NEXT_SIGNED`, which maps the value (R82, R84). -/
  | value (signed : Bool)
  /-- `DEC.SKIP_NEXT` (R85). -/
  | skip
deriving DecidableEq, Repr

/-- Where the Decoder is in a command: the cursor operation it issues next. -/
inductive DecPhase where
  /-- `DEC.NEXT_BIT`: its one bit (R79). -/
  | bit
  /-- The prefix phase, with `k` zeros counted so far (R80). -/
  | count (k : Nat) (g : Goal)
  /-- The suffix phase of `k` bits, `left` of them still to be read, `suffix` being what the others make (R81). -/
  | suffix (k left suffix : Nat) (signed : Bool)
  /-- The skip of `k` bits that ends `DEC.SKIP_NEXT` (R85). -/
  | skip (k : Nat)
deriving DecidableEq, Repr

/-- Where the Encoder is in a command: the cursor operation it issues next. -/
inductive EncPhase where
  /-- `ENC.PUT_BIT`: its one bit (R94). -/
  | bit (b : Bit)
  /-- The `n` zeros of `ENC.PUT_UNSIGNED`, the bits of `src` from bit `start` on to follow (R95). -/
  | zeros (n : Nat) (src : List Byte) (start : Nat)
  /-- The bits of `X` that end `ENC.PUT_UNSIGNED`, as a run of the byte image of `X` (R95). -/
  | bits (src : List Byte) (start : Nat)
deriving DecidableEq, Repr

/-- What happens next at the block's boundary (R126). No micro-operation stands here: "Ports `10` and `11` are internal" (R61). -/
inductive Request where
  /-- The host issues a command and the block gives its answer, as one transaction (R8). -/
  | command (c : HostCommand)
  /-- The host issues a command; its unit takes it up and then issues one cursor operation at a time (R9, R25). -/
  | start (c : HostCommand)
  /-- The unit issues the next cursor operation of its command in progress. DEC and ENC "are independent and may each have one
  command in progress" (R124): in which order they proceed, and what the host does meanwhile, stands in the list. -/
  | issue (side : Side)
  /-- A reset (R116); of a command in progress it is one that arrives while the command is executing (R117). -/
  | reset
  /-- The host issues a command, and a reset arrives while it is executing (R117). -/
  | resetDuring (c : HostCommand)
  /-- The host stores a byte into its own memory. -/
  | hostStore (addr : Nat) (v : Byte)
deriving DecidableEq, Repr

/-- The reasons for which the machine itself stops with a fault: none. "The block takes no trap" (R101): every failure is a
status in a response, and the unit is "ready for the next command at once" (R112). No meaning raises one. -/
inductive Fault where
deriving DecidableEq, Repr

/-- The runs to which the spec gives no meaning. -/
inductive Refusal where
  /-- Raised by an arm of `exec` for an instruction that has no meaning yet; no arm is left that does. Safe: the model stops. -/
  | notModelled (mnemonic : String)
  /-- Raised by `DEC.NEW` on a buffer that shares bytes with the Encoder's live binding (R43, R123, U9: "Treatment: `refuse`").
  Safe: the model stops where the block would go on unchecked. -/
  | overlappingBuffers
  /-- Raised by a Decoder command other than NEW, and by a read-cursor operation, after the host has taken the Decoder's
  buffer back by writing to it or by binding the Encoder to it (R43, U9). Safe: the model stops. -/
  | bufferTakenBack
  /-- Raised by a host store into the buffer of the Encoder's live binding (R43, U9). Safe: the model stops. -/
  | hostTouchedLentBuffer
  /-- Raised by a micro-operation on a unit that holds no instance: "Its operations are defined only while `D.bound = 1`"
  (R71; R88 for the Encoder). Safe: the model stops; no unit issues one there. -/
  | cursorUnbound (mnemonic : String)
  /-- Raised by `serveMicro` for a code on an internal port that is no micro-operation (R62: "unassigned"). Safe: the model
  stops; no unit issues one. -/
  | noSuchMicroOp (op : BitVec 8)
deriving DecidableEq, Repr

/-- The state. -/
structure State where
  /-- The Decoder: `D.bound` is whether there is a binding (R27). An unbound unit's other registers hold no value (U10). -/
  dec      : Option Binding
  /-- The Encoder: `E.bound` is whether there is a binding. -/
  enc      : Option Binding
  /-- The Decoder's command in progress, if any (R124), with `k` and `suffix` (R29). -/
  decCmd   : Option DecPhase
  /-- The Encoder's command in progress, if any (R124), with what of `X` is still to be written (R29, R95). -/
  encCmd   : Option EncPhase
  /-- The host's memory, the buffers in it (R31). -/
  mem      : Memory
  /-- The response given last, if any (R64). -/
  resp     : Option Response
  /-- The model's own: the host has taken back the buffer of the Decoder's binding (R43; log entry 6). -/
  decTaken : Bool
  /-- The model's own: how many resets have come; feeds the free value of R117 (log entry 7). -/
  resets   : Nat
  /-- The model's own: what happens next at the block's boundary, the first request first (log entry 4). -/
  inbox    : List Request
deriving DecidableEq, Repr

/-- Right after reset: both units unbound (R116, R32), no command in progress, no response given, no request made. Memory is the
host's; it lists nothing. -/
def State.reset : State :=
  { dec := none, enc := none, decCmd := none, encCmd := none, mem := [], resp := none, decTaken := false, resets := 0,
    inbox := [] }

end Sys2Proof.Machine
end

