-- ==== Sys2Proof/Machine/Ops.lean ====
section
/-!
DEFINITION. The named operations over memory, cursors and the state, which the meanings share (spec 10_state, 20_memory,
60_exceptions, 70_reset).
-/

namespace Sys2Proof.Machine

/-! ## Memory -/

/-- What an address that no cell lists reads as. DESIGN CHOICE (log entry 2): the spec gives host memory no initial
contents. Unsafe. -/
def Memory.blank : Byte := 0

/-- The byte at a host address. "A read returns the last value written and has no side effect" (R36). -/
def Memory.read : Memory → Nat → Byte
  | [], _ => Memory.blank
  | (k, w) :: rest, a => if k = a then w else Memory.read rest a

/-- Memory without a cell at an address. -/
def Memory.dropCell (m : Memory) (a : Nat) : Memory := m.filter (fun c => c.1 != a)

/-- Memory with a cell put before the first cell of a higher address. -/
def Memory.placeCell : Memory → Nat → Byte → Memory
  | [], a, v => [(a, v)]
  | (k, w) :: rest, a, v => if a < k then (a, v) :: (k, w) :: rest else (k, w) :: Memory.placeCell rest a v

/-- Memory with the byte at an address replaced. Writing what an unlisted address reads as removes the cell, so that equal
memories are equal lists. -/
def Memory.write (m : Memory) (a : Nat) (v : Byte) : Memory :=
  if v = Memory.blank then m.dropCell a else (m.dropCell a).placeCell a v

/-- The canonical form: addresses strictly rising, no cell equal to what an unlisted address reads as. -/
abbrev Memory.wf (m : Memory) : Prop :=
  m.Pairwise (fun c d => c.1 < d.1) ∧ ∀ c ∈ m, c.2 ≠ Memory.blank

/-- `MemRead(a, 1)`: the byte at index `a` of the bound buffer (R34). The base is the origin (R27). -/
def memRead (m : Memory) (u : Binding) (a : Nat) : Byte := m.read (u.base + a)

/-- `MemWrite(a, 1, v)` (R34). -/
def memWrite (m : Memory) (u : Binding) (a : Nat) (v : Byte) : Memory := m.write (u.base + a) v

/-! ## Cursors -/

/-- The linear position `p = 8 * byte + bit` (R14). -/
def Binding.pos (u : Binding) : Nat := 8 * u.byte + u.bit.toNat

/-- The number of stream bits of the buffer, `N = 8 * len` (R14, R83). -/
def Binding.size (u : Binding) : Nat := 8 * u.len

/-- Is the cursor exhausted (R20: `U.byte = U.len`)? Written `≥`, which is the same wherever R19 holds and keeps every access
inside the buffer in all other states too (R35; DEDUCED, log entry 10). -/
def Binding.exhausted (u : Binding) : Bool := decide (u.len ≤ u.byte)

/-- `adv`: the position one bit further (R22). -/
def Binding.adv (u : Binding) : Binding :=
  if u.bit = 7 then { u with byte := u.byte + 1, bit := 0 } else { u with bit := u.bit + 1 }

/-- The byte bit under a bit offset, counted from the most significant end: "offset `o` names byte bit `7 − o`" (R13, R34). -/
def selectBit (B : Byte) (o : BitOffset) : Bit := B.getLsbD (7 - o.toNat)

/-- The mask of a bit offset, `0x80 >> o` (R13). -/
def bitMask (o : BitOffset) : Byte := 0x80#8 >>> o

/-- Stream bit `p` of the buffer at a base address, `bitAt(buf, p)` (R14). -/
def bitAt (m : Memory) (base p : Nat) : Bit := (m.read (base + p / 8)).getLsbD (7 - p % 8)

/-! ## Buffers and who holds them -/

/-- Does a host address lie in the buffer of a binding? -/
def Binding.covers (u : Binding) (a : Nat) : Bool := decide (u.base ≤ a) && decide (a < u.base + u.len)

/-- Do two buffers share a byte (R43)? -/
def Binding.overlaps (u v : Binding) : Bool :=
  decide (u.base < v.base + v.len) && decide (v.base < u.base + u.len)

/-- Does a unit hold a buffer that covers an address? -/
def heldAt (o : Option Binding) (a : Nat) : Bool := o.any (fun u => u.covers a)

/-- Does a unit hold a buffer that shares a byte with a new binding's? -/
def heldOver (o : Option Binding) (v : Binding) : Bool := o.any (fun u => u.overlaps v)

/-! ## Responses. The block takes no trap (R101): a failure is the status in the response, and that is all an "exception"
does here. -/

/-- End with a response and no other change. -/
def State.answer (s : State) (r : Response) : Host.Outcome State Fault Refusal := .next { s with resp := some r }

/-- The response that carries a result (R64). -/
def Result.respond {α : Type} (f : α → Payload) : Result α → Response
  | .ok v => .ok (f v)
  | .fail e => .fail e

/-- Run a Decoder command other than NEW: on an unbound Decoder it "changes nothing and is answered Illegal" (R77); a binding
whose buffer the host has taken back has no meaning (R43, U9; log entry 6). The Decoder only reads its buffer (R39). -/
def onDecoder (f : Memory → Binding → Response × Binding) (s : State) : Host.Outcome State Fault Refusal :=
  match s.dec with
  | none => s.answer (.fail .illegal)
  | some u =>
    if s.decTaken then .refused .bufferTakenBack
    else .next { s with dec := some (f s.mem u).2, resp := some (f s.mem u).1 }

/-- Run an Encoder command other than NEW: on an unbound Encoder, "which includes an Encoder that has been closed", it changes
nothing and is answered Illegal (R92). -/
def onEncoder (f : Memory → Binding → Response × Memory × Option Binding) (s : State) :
    Host.Outcome State Fault Refusal :=
  match s.enc with
  | none => s.answer (.fail .illegal)
  | some u => .next { s with enc := (f s.mem u).2.2, mem := (f s.mem u).2.1, resp := some (f s.mem u).1 }

/-- Run a read-cursor operation: as for the Decoder, but "defined only while `D.bound = 1`" (R71). -/
def onReadCursor (mnemonic : String) (f : Memory → Binding → Response × Binding) (s : State) :
    Host.Outcome State Fault Refusal :=
  match s.dec with
  | none => .refused (.cursorUnbound mnemonic)
  | some _ => onDecoder f s

/-- Run a write-cursor operation: "defined only while `E.bound = 1`" (R88). -/
def onWriteCursor (mnemonic : String) (f : Memory → Binding → Response × Memory × Option Binding) (s : State) :
    Host.Outcome State Fault Refusal :=
  match s.enc with
  | none => .refused (.cursorUnbound mnemonic)
  | some _ => onEncoder f s

/-! ## Reset and the host's own stores -/

/-- Reset (R116): both units unbound, every other register without a value, no buffer touched. A command in progress is abandoned,
and a response that was not yet given is not given (R117). -/
def State.resetUnits (s : State) : State :=
  { s with dec := none, enc := none, decCmd := none, encCmd := none, decTaken := false, resp := none }

/-- The host stores a byte into its memory. While the Encoder is bound the host neither reads nor writes its buffer (R43): that
run has no meaning. A store into the Decoder's buffer takes the buffer back (R28, R43; log entry 6). -/
def hostStore (addr : Nat) (v : Byte) (s : State) : Host.Outcome State Fault Refusal :=
  if heldAt s.enc addr then .refused .hostTouchedLentBuffer
  else .next { s with mem := s.mem.write addr v, decTaken := s.decTaken || heldAt s.dec addr }

end Sys2Proof.Machine
end

