-- ==== Sys2Proof/Machine/Operands.lean ====
section
/-!
DEFINITION. The operand forms: the operands of NEW (spec 41 R78, 43 R93), the bits of a value's codeword (30 R51, 43 R95, R96),
the run of a source byte sequence (42 R91), the signed maps (30 R56, R58).
-/

namespace Sys2Proof.Machine

/-- The binding that NEW makes of its operands: InvalidArgument "when `buf.len = 0`, or when `arg > 7`, or both"; else the
cursor `(0, arg[2:0])` (R78, R93). All 64 bits of `arg` are compared (R68). -/
def newBinding (buf : BufRef) (off : Word64) : Result Binding :=
  if buf.len = 0 ∨ off > 7 then .fail .invalidArgument
  else .ok { base := buf.base, len := buf.len, byte := 0, bit := off.extractLsb' 0 3 }

/-! ## The codeword of a value -/

/-- `X`, the value plus one, 65 bits, no wrap (R95). -/
def xOf (v : Word64) : Nat := v.toNat + 1

/-- `k = floor_log2(X)`, the length of the zero run (R51, R95; 90_conflicts C1). -/
def zeroRunOf (v : Word64) : Nat := Nat.log2 (xOf v)

/-- The bits of `x` from bit `k` down to bit 0 (R95: "for i from k down to 0"). -/
def bitsDown (x k : Nat) : List Bit := (List.range (k + 1)).map (fun i => x.testBit (k - i))

/-- The codeword of a value: `k` zeros, then the `k + 1` low bits of `X` (R51). -/
def codeword (v : Word64) : List Bit :=
  List.replicate (zeroRunOf v) false ++ bitsDown (xOf v) (zeroRunOf v)

/-! ## Byte images -/

/-- Bit `j` of a source byte sequence, most significant bit of each byte first (R91). -/
def sourceBit (src : List Byte) (j : Nat) : Bit := (src.getD (j / 8) 0).getLsbD (7 - j % 8)

/-- The run of `WC.PUT_BITS`: source bits `start` to `8 * m − 1` (R91, D24); empty when `start ≥ 8 * m`. -/
def sourceRun (src : List Byte) (start : Nat) : List Bit :=
  (List.range' start (8 * src.length - start)).map (sourceBit src)

/-- The 9-byte big-endian image of `X`: `img[i] = (X >> (8 * (8 − i))) & 0xFF` (R95). -/
def image65 (x : Nat) : List Byte := (List.range 9).map (fun i => BitVec.ofNat 8 (x >>> (8 * (8 - i))))

/-- `be8`, the 8-byte big-endian image of a 64-bit value (R96). -/
def be8 (x : Word64) : List Byte := (List.range 8).map (fun i => x.extractLsb' (8 * (7 - i)) 8)

/-- `clz64`: "the count of leading zero bits of a 64-bit value, with `clz64(0) = 64`" (R15). -/
def clz64 (x : Word64) : Nat := ((List.range 64).takeWhile (fun i => !x.getLsbD (63 - i))).length

/-! ## The signed maps -/

/-- `U2S` (R56): `mag = ((u >> 1) + (u & 1)) mod 2^64`; `mag` when `u` is odd, its two's complement negation when even. -/
def u2s (u : Word64) : Word64 :=
  let mag := (u >>> 1) + (u &&& 1)
  if u &&& 1 = 1 then mag else -mag

/-- `S2U` (R58): `(2 s − 1) mod 2^64` when `s > 0` or `s = −2^63`, else `(−2 s) mod 2^64`. "The block does not compute `S2U`;
the host does." -/
def s2u (s : Word64) : Word64 :=
  if 0 < s.toInt ∨ s.toInt = -2 ^ 63 then BitVec.ofInt 64 (2 * s.toInt - 1) else BitVec.ofInt 64 (-2 * s.toInt)

/-- The pseudo-instruction `enc.se s`, which "stands for `enc.ue S2U(s)`" (R70). -/
def encSe (s : Word64) : Instr := .encPutUnsigned (s2u s)

end Sys2Proof.Machine
end

