-- ==== Sys2Proof/Machine/ReadCursor.lean ====
section
/-!
DEFINITION. The read cursor RC (spec 40_read_cursor): its two operations, and their meanings as micro-operations.
-/

namespace Sys2Proof.Machine

/-- `RC.NEXT_BIT` (R72): the bit under the cursor, and the cursor one bit further; on an exhausted cursor EndOfStream, nothing
changed. -/
def nextBit (m : Memory) (u : Binding) : Result Bit × Binding :=
  if u.exhausted then (.fail .endOfStream, u)
  else (.ok (selectBit (memRead m u u.byte) u.bit), u.adv)

/-- `RC.SKIP_BITS(n)` (R74): `t = bit + n`, `nb = byte + t div 8`, clamped to `(len, 0)` when `nb ≥ len`. It never fails and
reads no memory. -/
def skipBits (n : Nat) (u : Binding) : Binding :=
  let t := u.bit.toNat + n
  let nb := u.byte + t / 8
  if nb ≥ u.len then { u with byte := u.len, bit := 0 }
  else { u with byte := nb, bit := BitVec.ofNat 3 (t % 8) }

/-- `RC.NEXT_BIT` as the micro-operation a unit issues inside a command (R72, code 0x80). -/
def execRcNextBit (s : State) : Host.Outcome State Fault Refusal :=
  onReadCursor "RC.NEXT_BIT" (fun m u => ((nextBit m u).1.respond .bit, (nextBit m u).2)) s

/-- `RC.SKIP_BITS` as the micro-operation a unit issues inside a command (R74, code 0x81). -/
def execRcSkipBits (n : Nat) (s : State) : Host.Outcome State Fault Refusal :=
  onReadCursor "RC.SKIP_BITS" (fun _ u => (.ok .empty, skipBits n u)) s

end Sys2Proof.Machine
end

