-- ==== Sys2Proof/Machine/Decoder.lean ====
section
/-!
DEFINITION. The Decoder DEC (spec 41_decoder): the two phases and the five commands.
-/

namespace Sys2Proof.Machine

/-- The loop of `PREFIX` (R80): `left` more zeros may be read before Overflow, `k` have been. Overflow is raised as soon as the
65th zero has been read; the cursor stays after it (D11). -/
def countZeros (m : Memory) : Nat → Nat → Binding → Result Nat × Binding
  | 0, _, u => (.fail .overflow, u)
  | left + 1, k, u =>
    match nextBit m u with
    | (.fail e, u') => (.fail e, u')
    | (.ok true, u') => (.ok k, u')
    | (.ok false, u') => countZeros m left (k + 1) u'

/-- `PREFIX` (R80): count the zeros up to the terminator. -/
def prefixPhase (m : Memory) (u : Binding) : Result Nat × Binding := countZeros m (Config.kMax + 1) 0 u

/-- `SUFFIX(k)` (R81), with the bits read so far: `suffix ← 2 * suffix + b`, most significant bit first (R54). -/
def suffixPhase (m : Memory) : Nat → Nat → Binding → Result Nat × Binding
  | 0, acc, u => (.ok acc, u)
  | k + 1, acc, u =>
    match nextBit m u with
    | (.fail e, u') => (.fail e, u')
    | (.ok b, u') => suffixPhase m k (2 * acc + b.toNat) u'

/-- What a codeword of `k` zeros and a suffix stands for: Overflow when `k = 64` and the suffix is not 0 (R82, D12), else
`(2^k − 1) + suffix`, computed exactly and then held in 64 bits (R55). -/
def valueOf (k suffix : Nat) : Result Word64 :=
  if k = Config.kMax ∧ suffix ≠ 0 then .fail .overflow else .ok (BitVec.ofNat 64 (2 ^ k - 1 + suffix))

/-- The steps of `DEC.NEXT_UNSIGNED` (R82): prefix, suffix, value. -/
def nextUnsigned (m : Memory) (u : Binding) : Result Word64 × Binding :=
  match prefixPhase m u with
  | (.fail e, u') => (.fail e, u')
  | (.ok k, u') =>
    match suffixPhase m k 0 u' with
    | (.fail e, u'') => (.fail e, u'')
    | (.ok suffix, u'') => (valueOf k suffix, u'')

/-- The steps of `DEC.SKIP_NEXT` (R85): the prefix phase, then a skip of `k` bits that cannot fail. -/
def skipNext (m : Memory) (u : Binding) : Result Unit × Binding :=
  match prefixPhase m u with
  | (.fail e, u') => (.fail e, u')
  | (.ok k, u') => (.ok (), skipBits k u')

/-- `DEC.NEW` (R78, code 0x00). A successful NEW replaces an earlier binding, a failed one changes nothing (D19). A buffer that
shares bytes with the Encoder's live binding has no meaning (R43, R123, U9). -/
def execDecNew (buf : BufRef) (off : Word64) (s : State) : Host.Outcome State Fault Refusal :=
  match newBinding buf off with
  | .fail e => s.answer (.fail e)
  | .ok u =>
    if heldOver s.enc u then .refused .overlappingBuffers
    else .next { s with dec := some u, decTaken := false, resp := some (.ok .empty) }

/-- `DEC.NEXT_BIT` (R79, code 0x01): the read cursor's operation, its bit zero-extended to 64 bits. -/
def execDecNextBit (s : State) : Host.Outcome State Fault Refusal :=
  onDecoder (fun m u => ((nextBit m u).1.respond (fun b => .data (if b then 1 else 0)), (nextBit m u).2)) s

/-- `DEC.NEXT_UNSIGNED` (R82, code 0x02). -/
def execDecNextUnsigned (s : State) : Host.Outcome State Fault Refusal :=
  onDecoder (fun m u => ((nextUnsigned m u).1.respond .data, (nextUnsigned m u).2)) s

/-- `DEC.NEXT_SIGNED` (R84, code 0x03): the same steps and cursor effects, the value mapped by `U2S`. -/
def execDecNextSigned (s : State) : Host.Outcome State Fault Refusal :=
  onDecoder (fun m u => ((nextUnsigned m u).1.respond (fun v => .data (u2s v)), (nextUnsigned m u).2)) s

/-- `DEC.SKIP_NEXT` (R85, code 0x04). -/
def execDecSkipNext (s : State) : Host.Outcome State Fault Refusal :=
  onDecoder (fun m u => ((skipNext m u).1.respond (fun _ => .empty), (skipNext m u).2)) s

end Sys2Proof.Machine
end

