-- ==== Sys2Proof/Machine/WriteCursor.lean ====
section
/-!
DEFINITION. The write cursor WC (spec 42_write_cursor): its three operations, and their meanings as micro-operations.
-/

namespace Sys2Proof.Machine

/-- `WC.PUT_BIT(b)` (R89): OR the bit into the byte under the cursor and advance; a 0 bit makes no access; on an exhausted cursor
Full, nothing changed. -/
def putBit (b : Bit) (m : Memory) (u : Binding) : Result Unit × Memory × Binding :=
  if u.exhausted then (.fail .full, m, u)
  else (.ok (), if b then memWrite m u u.byte (memRead m u u.byte ||| bitMask u.bit) else m, u.adv)

/-- `WC.PUT_ZEROS(n)` (R90): advance `n` times, testing for exhaustion before each step; no memory access. -/
def putZeros : Nat → Binding → Result Unit × Binding
  | 0, u => (.ok (), u)
  | n + 1, u => if u.exhausted then (.fail .full, u) else putZeros n u.adv

/-- The bits of a run written one by one, stopping at the first Full; the bits written before it stay (R91). -/
def putRun : List Bit → Memory → Binding → Result Unit × Memory × Binding
  | [], m, u => (.ok (), m, u)
  | b :: bs, m, u =>
    match putBit b m u with
    | (.fail e, m', u') => (.fail e, m', u')
    | (.ok _, m', u') => putRun bs m' u'

/-- `WC.PUT_BITS(src, start)` (R91). -/
def putBits (src : List Byte) (start : Nat) (m : Memory) (u : Binding) : Result Unit × Memory × Binding :=
  putRun (sourceRun src start) m u

/-- The answer of a write: Ok without a result, or the failure; the Encoder stays bound. -/
def writeAnswer (w : Result Unit × Memory × Binding) : Response × Memory × Option Binding :=
  (w.1.respond (fun _ => .empty), w.2.1, some w.2.2)

/-- `WC.PUT_BIT` as the micro-operation a unit issues inside a command (R89, code 0xC0). -/
def execWcPutBit (b : Bit) (s : State) : Host.Outcome State Fault Refusal :=
  onWriteCursor "WC.PUT_BIT" (fun m u => writeAnswer (putBit b m u)) s

/-- `WC.PUT_ZEROS` as the micro-operation a unit issues inside a command (R90, code 0xC1). -/
def execWcPutZeros (n : Nat) (s : State) : Host.Outcome State Fault Refusal :=
  onWriteCursor "WC.PUT_ZEROS" (fun m u => writeAnswer ((putZeros n u).1, m, (putZeros n u).2)) s

/-- `WC.PUT_BITS` as the micro-operation a unit issues inside a command (R91, code 0xC2). -/
def execWcPutBits (src : List Byte) (start : Nat) (s : State) : Host.Outcome State Fault Refusal :=
  onWriteCursor "WC.PUT_BITS" (fun m u => writeAnswer (putBits src start m u)) s

end Sys2Proof.Machine
end

