-- ==== Sys2Proof/Machine/Encoder.lean ====
section
/-!
DEFINITION. The Encoder ENC (spec 43_encoder): the four commands, and the two other forms of `ENC.PUT_UNSIGNED` that the spec
gives and says are the same (R95, R96).
-/

namespace Sys2Proof.Machine

/-- The steps of `ENC.PUT_UNSIGNED` (R95): `k` zeros, then the bits of `X` from bit `k` down; the first Full ends it, nothing is
rolled back. -/
def putUnsigned (v : Word64) (m : Memory) (u : Binding) : Result Unit × Memory × Binding :=
  match putZeros (zeroRunOf v) u with
  | (.fail e, u') => (.fail e, m, u')
  | (.ok _, u') => putRun (bitsDown (xOf v) (zeroRunOf v)) m u'

/-- The same with `WC.PUT_BITS` on the 9-byte image of `X`, `j0 = 71 − k` (R95, "The loop is ..."). -/
def putUnsignedImage (v : Word64) (m : Memory) (u : Binding) : Result Unit × Memory × Binding :=
  match putZeros (zeroRunOf v) u with
  | (.fail e, u') => (.fail e, m, u')
  | (.ok _, u') => putBits ((image65 (xOf v)).drop ((71 - zeroRunOf v) / 8)) ((71 - zeroRunOf v) % 8) m u'

/-- The same on a 64-bit datapath, `xp1 = (arg + 1) mod 2^64` (R96). -/
def putUnsigned64 (v : Word64) (m : Memory) (u : Binding) : Result Unit × Memory × Binding :=
  let xp1 := v + 1
  if xp1 ≠ 0 then
    match putZeros (63 - clz64 xp1) u with
    | (.fail e, u') => (.fail e, m, u')
    | (.ok _, u') => putBits ((be8 xp1).drop (clz64 xp1 / 8)) (clz64 xp1 % 8) m u'
  else
    match putZeros 64 u with
    | (.fail e, u') => (.fail e, m, u')
    | (.ok _, u') =>
      match putBit true m u' with
      | (.fail e, m'', u'') => (.fail e, m'', u'')
      | (.ok _, m'', u'') => ((putZeros 64 u'').1, m'', (putZeros 64 u'').2)

/-- `ENC.NEW` (R93, code 0x40). It makes no access and replaces an earlier binding (D19). If the Decoder still holds a buffer that
shares bytes with the new one, the host has taken that buffer back (R28, R43; log entry 6). -/
def execEncNew (buf : BufRef) (off : Word64) (s : State) : Host.Outcome State Fault Refusal :=
  match newBinding buf off with
  | .fail e => s.answer (.fail e)
  | .ok u =>
    .next { s with enc := some u, decTaken := s.decTaken || heldOver s.dec u, resp := some (.ok .empty) }

/-- `ENC.PUT_BIT` (R94, code 0x41): the write cursor's operation passed through to the host. -/
def execEncPutBit (b : Bit) (s : State) : Host.Outcome State Fault Refusal :=
  onEncoder (fun m u => writeAnswer (putBit b m u)) s

/-- `ENC.PUT_UNSIGNED` (R95, code 0x42). -/
def execEncPutUnsigned (v : Word64) (s : State) : Host.Outcome State Fault Refusal :=
  onEncoder (fun m u => writeAnswer (putUnsigned v m u)) s

/-- `ENC.CLOSE` (R98, code 0x43): answer the position and unbind; no access, nothing to flush (R45). -/
def execEncClose (s : State) : Host.Outcome State Fault Refusal :=
  onEncoder (fun m u => (.ok (.position u.byte u.bit), m, none)) s

/-- The run of bits a host command writes, for a reset that abandons it (R117): none but for the two Encoder write commands. -/
def writtenRun : Instr → List Bit
  | .encPutBit b => [b]
  | .encPutUnsigned v => codeword v
  | .decNew _ _ => []
  | .decNextBit => []
  | .decNextUnsigned => []
  | .decNextSigned => []
  | .decSkipNext => []
  | .encNew _ _ => []
  | .encClose => []
  | .rcNextBit => []
  | .rcSkipBits _ => []
  | .wcPutBit _ => []
  | .wcPutZeros _ => []
  | .wcPutBits _ _ => []

/-- Memory after some initial part of a run has been written, `n` bits of it or as many as fit (R117). -/
def memAfterPart (n : Nat) (run : List Bit) (s : State) : Memory :=
  match s.enc with
  | none => s.mem
  | some u => (putRun (run.take n) s.mem u).2.1

end Sys2Proof.Machine
end

