-- ==== Sys2Proof/Machine/Dispatch.lean ====
section
/-!
DEFINITION. Which meaning each instruction has.
-/

namespace Sys2Proof.Machine

/-- One instruction. -/
def exec (i : Instr) (s : State) : Host.Outcome State Fault Refusal :=
  match i with
  | .decNew buf off => Sys2Proof.Machine.execDecNew buf off s
  | .decNextBit => Sys2Proof.Machine.execDecNextBit s
  | .decNextUnsigned => Sys2Proof.Machine.execDecNextUnsigned s
  | .decNextSigned => Sys2Proof.Machine.execDecNextSigned s
  | .decSkipNext => Sys2Proof.Machine.execDecSkipNext s
  | .encNew buf off => Sys2Proof.Machine.execEncNew buf off s
  | .encPutBit b => Sys2Proof.Machine.execEncPutBit b s
  | .encPutUnsigned v => Sys2Proof.Machine.execEncPutUnsigned v s
  | .encClose => Sys2Proof.Machine.execEncClose s
  | .rcNextBit => Sys2Proof.Machine.execRcNextBit s
  | .rcSkipBits n => Sys2Proof.Machine.execRcSkipBits n s
  | .wcPutBit b => Sys2Proof.Machine.execWcPutBit b s
  | .wcPutZeros n => Sys2Proof.Machine.execWcPutZeros n s
  | .wcPutBits src start => Sys2Proof.Machine.execWcPutBits src start s

end Sys2Proof.Machine
end

