-- ==== Sys2Proof/Machine/Sequencer.lean ====
section
/-!
DEFINITION. A command run one cursor operation at a time (spec 10_state R25, 30_encoding R61, R63, R65): how a unit takes a command
up, which micro-operation it issues to its own cursor next, and what it makes of the answer. "A cursor steps only inside a command
of the unit that owns it" (00_scope R9).
-/

namespace Sys2Proof.Machine

/-! ## Which micro-operation comes next -/

/-- The micro-operation the Decoder issues in a phase: `RC.NEXT_BIT` for every bit it reads, `RC.SKIP_BITS(k)` for the skip (R79 to
R81, R85). -/
def decMicro : DecPhase → MicroOp
  | .bit => ⟨0x80, 0, false, [], 0⟩
  | .count _ _ => ⟨0x80, 0, false, [], 0⟩
  | .suffix _ _ _ _ => ⟨0x80, 0, false, [], 0⟩
  | .skip k => ⟨0x81, BitVec.ofNat 7 k, false, [], 0⟩

/-- The micro-operation the Encoder issues in a phase (R94, R95). -/
def encMicro : EncPhase → MicroOp
  | .bit b => ⟨0xC0, 0, b, [], 0⟩
  | .zeros n _ _ => ⟨0xC1, BitVec.ofNat 7 n, false, [], 0⟩
  | .bits src start => ⟨0xC2, 0, false, src, start⟩

/-! ## What the answer of a micro-operation leads to -/

/-- A unit goes on to another phase, or its command ends with a response. -/
inductive Advance (φ : Type) where
  | goOn (ph : φ)
  | done (r : Response)
deriving DecidableEq, Repr

/-- The bit in an answer of the read cursor; "every field that a command does not define" is zero (R64). -/
def Payload.toBit : Payload → Bit
  | .bit b => b
  | .empty => false
  | .data _ => false
  | .position _ _ => false

/-- The answer of a value command to a codeword of `k` zeros and a suffix (R82, R84). -/
def valueAnswer (signed : Bool) (k suffix : Nat) : Response :=
  (valueOf k suffix).respond (fun v => .data (if signed then u2s v else v))

/-- After the terminator of a prefix of `k` zeros: the suffix phase, which for `k = 0` reads nothing (R81), or the skip. -/
def afterPrefix (k : Nat) : Goal → Advance DecPhase
  | .value signed => if k = 0 then .done (valueAnswer signed 0 0) else .goOn (.suffix k k 0 signed)
  | .skip => .goOn (.skip k)

/-- What the Decoder does with the answer of its cursor: "any step that fails ends the command" (R65); a bit is the answer of
`DEC.NEXT_BIT` (R79), one more zero or the terminator (R80; the 65th zero is Overflow), one more bit of the suffix (R81). -/
def advanceDec (ph : DecPhase) (r : Response) : Advance DecPhase :=
  match r with
  | .fail e => .done (.fail e)
  | .ok p =>
    match ph with
    | .bit => .done (.ok (.data (if p.toBit then 1 else 0)))
    | .count k g =>
      if p.toBit then afterPrefix k g
      else if k = Config.kMax then .done (.fail .overflow) else .goOn (.count (k + 1) g)
    | .suffix k left suffix signed =>
      if left ≤ 1 then .done (valueAnswer signed k (2 * suffix + p.toBit.toNat))
      else .goOn (.suffix k (left - 1) (2 * suffix + p.toBit.toNat) signed)
    | .skip _ => .done (.ok .empty)

/-- What the Encoder does with the answer of its cursor (R94, R95). -/
def advanceEnc (ph : EncPhase) (r : Response) : Advance EncPhase :=
  match r with
  | .fail e => .done (.fail e)
  | .ok _ =>
    match ph with
    | .bit _ => .done (.ok .empty)
    | .zeros _ src start => .goOn (.bits src start)
    | .bits _ _ => .done (.ok .empty)

/-- The Decoder after its cursor has answered. The answer went to the unit, not to the host: while the command goes on, the port
holds the response it held; when it ends, the command's own. -/
def settleDec (a : Advance DecPhase) (old : Option Response) (t : State) : State :=
  match a with
  | .goOn ph => { t with decCmd := some ph, resp := old }
  | .done r => { t with decCmd := none, resp := some r }

/-- The Encoder after its cursor has answered. -/
def settleEnc (a : Advance EncPhase) (old : Option Response) (t : State) : State :=
  match a with
  | .goOn ph => { t with encCmd := some ph, resp := old }
  | .done r => { t with encCmd := none, resp := some r }

/-- The answer a step has just left; every micro-operation leaves one. -/
def State.answered (s : State) : Response := s.resp.getD (.ok .empty)

/-! ## Issuing it -/

/-- A micro-operation on an internal port is decoded and run (R61 to R63). -/
def serveMicro (u : MicroOp) (s : State) : Host.Outcome State Fault Refusal :=
  match decode (.micro u) with
  | .ok i => exec i s
  | .error _ => .refused (.noSuchMicroOp u.op)

/-- Go on from a next state; a stop stays a stop. -/
def onNext (f : State → State) (o : Host.Outcome State Fault Refusal) : Host.Outcome State Fault Refusal :=
  match o with
  | .next t => .next (f t)
  | .fault e => .fault e
  | .refused e => .refused e

/-- A unit issues the next micro-operation of its command in progress to its own cursor. With no command in progress its cursor
does not step (R9). -/
def issue (side : Side) (s : State) : Host.Outcome State Fault Refusal :=
  match side with
  | .dec =>
    match s.decCmd with
    | none => .next s
    | some ph => onNext (fun t => settleDec (advanceDec ph t.answered) s.resp t) (serveMicro (decMicro ph) s)
  | .enc =>
    match s.encCmd with
    | none => .next s
    | some ph => onNext (fun t => settleEnc (advanceEnc ph t.answered) s.resp t) (serveMicro (encMicro ph) s)

/-! ## Taking a command up -/

/-- The unit an instruction belongs to (R61). -/
def sideOf : Instr → Side
  | .decNew _ _ => .dec
  | .decNextBit => .dec
  | .decNextUnsigned => .dec
  | .decNextSigned => .dec
  | .decSkipNext => .dec
  | .encNew _ _ => .enc
  | .encPutBit _ => .enc
  | .encPutUnsigned _ => .enc
  | .encClose => .enc
  | .rcNextBit => .dec
  | .rcSkipBits _ => .dec
  | .wcPutBit _ => .enc
  | .wcPutZeros _ => .enc
  | .wcPutBits _ _ => .enc

/-- Does a unit have a command in progress (R124)? -/
def State.busy (s : State) : Side → Bool
  | .dec => s.decCmd.isSome
  | .enc => s.encCmd.isSome

/-- The state with a command of the Decoder in progress. -/
def State.setDecCmd (s : State) (ph : DecPhase) : State := { s with decCmd := some ph }

/-- The state with a command of the Encoder in progress. -/
def State.setEncCmd (s : State) (ph : EncPhase) : State := { s with encCmd := some ph }

/-- A Decoder command other than NEW begins, if the Decoder can run one at all; if not, `exec` says what it answers (R77). -/
def beginDec (i : Instr) (ph : DecPhase) (s : State) : Host.Outcome State Fault Refusal :=
  if s.dec.isSome && !s.decTaken then .next (s.setDecCmd ph) else exec i s

/-- An Encoder write command begins, if the Encoder is bound; if not, `exec` says what it answers (R92). -/
def beginEnc (i : Instr) (ph : EncPhase) (s : State) : Host.Outcome State Fault Refusal :=
  if s.enc.isSome then .next (s.setEncCmd ph) else exec i s

/-- The first phase of `ENC.PUT_UNSIGNED`: `k` zeros, then the 9-byte image of `X` from bit `71 − k` on (R95). -/
def firstZeros (v : Word64) : EncPhase :=
  .zeros (zeroRunOf v) ((image65 (xOf v)).drop ((71 - zeroRunOf v) / 8)) ((71 - zeroRunOf v) % 8)

/-- A unit takes up a command. NEW and CLOSE step no cursor (R78, R93, R98: they write and read its registers) and are done at
once. -/
def takeUp (i : Instr) (s : State) : Host.Outcome State Fault Refusal :=
  match i with
  | .decNextBit => beginDec i .bit s
  | .decNextUnsigned => beginDec i (.count 0 (.value false)) s
  | .decNextSigned => beginDec i (.count 0 (.value true)) s
  | .decSkipNext => beginDec i (.count 0 .skip) s
  | .encPutBit b => beginEnc i (.bit b) s
  | .encPutUnsigned v => beginEnc i (firstZeros v) s
  | .decNew _ _ => exec i s
  | .encNew _ _ => exec i s
  | .encClose => exec i s
  | .rcNextBit => exec i s
  | .rcSkipBits _ => exec i s
  | .wcPutBit _ => exec i s
  | .wcPutZeros _ => exec i s
  | .wcPutBits _ _ => exec i s

/-! ## What a reset finds -/

/-- The bits that an Encoder command in progress still has to write, for a reset that abandons it (R117). -/
def pendingRun : EncPhase → List Bit
  | .bit b => [b]
  | .zeros n src start => List.replicate n false ++ sourceRun src start
  | .bits src start => sourceRun src start

end Sys2Proof.Machine
end

