-- ==== Sys2Proof/Machine/Port.lean ====
section
/-!
DEFINITION. The host's port: how the block serves what happens next at its boundary (spec 30_encoding R60 to R67, 70_reset R116, R117,
R124, R126). There is no program counter and no fetch (10_state R25, 20_memory R46): the host's list of requests is the program
(D28).
-/

namespace Sys2Proof.Machine

/-- A host command is decoded and run as `run` says. A code that names no host command "changes no register and no memory and is
answered with status Illegal" (R67); the decoder of the host's port finds no other error. -/
def serveHost (run : Instr → State → Host.Outcome State Fault Refusal) (c : HostCommand) (s : State) :
    Host.Outcome State Fault Refusal :=
  match decode (.command c) with
  | .ok i => run i s
  | .error _ => s.answer (.fail .illegal)

/-- The run of bits a host command writes (none for a code that names no command). -/
def commandRun (c : HostCommand) : List Bit :=
  match decode (.command c) with
  | .ok i => writtenRun i
  | .error _ => []

/-- A reset (R116). A command that is executing is abandoned without a response (R117): of the bits an Encoder command has still to
write, `run`, "some initial part" is in the buffer, how much being a free value (log entry 7). The reset ends every command without
a refusal, a read of a Decoder binding whose buffer the host has taken back and a DEC.NEW on the Encoder's live buffer among them:
whether an abandoned command still uses that buffer is a point the spec leaves open. DESIGN CHOICE, unsafe (log entry 11). -/
def resetDuringRun (run : List Bit) (s : State) : State :=
  { s.resetUnits with mem := memAfterPart (Config.abandonedAfter s.resets) run s, resets := s.resets + 1 }

/-- What the Encoder has still to write when a reset arrives: the rest of its command in progress. -/
def State.unwritten (s : State) : List Bit :=
  match s.encCmd with
  | none => []
  | some ph => pendingRun ph

/-- Serve one request. -/
def serve (r : Request) (s : State) : Host.Outcome State Fault Refusal :=
  match r with
  | .command c => serveHost exec c s
  | .start c => serveHost takeUp c s
  | .issue side => issue side s
  | .reset => .next (resetDuringRun s.unwritten s)
  | .resetDuring c => .next (resetDuringRun (s.unwritten ++ commandRun c) s)
  | .hostStore addr v => hostStore addr v s

/-- The host command in a request. -/
def Request.hostCommand? : Request → Option HostCommand
  | .command c => some c
  | .start c => some c
  | .resetDuring c => some c
  | .issue _ => none
  | .reset => none
  | .hostStore _ _ => none

/-- The busy unit a request has to wait for: "The host issues the next command to a unit only after the response to the previous
one" (R124). A code that names no host command waits for no unit, not even for the one its port bits name: whether it has to is a
point R61, R67 and R124 leave open. DESIGN CHOICE, unsafe (log entry 12). -/
def waitsFor (r : Request) (s : State) : Option Side :=
  match r.hostCommand? with
  | none => none
  | some c =>
    match decode (.command c) with
    | .ok i => if s.busy (sideOf i) then some (sideOf i) else none
    | .error _ => none

/-- A command "always runs to its end" (R25): with no request waiting a command in progress goes on, the Decoder's first (R9: the
units do not depend on each other; log entry 4); with none in progress the block "waits for commands" (R116). -/
def proceed (s : State) : Host.Outcome State Fault Refusal :=
  if s.busy .dec then issue .dec s else issue .enc s

/-- One step: the request at the front is taken and served. While the unit it is for has not answered its last command, the request
stays and that unit issues its next cursor operation (R124). -/
def takeRequest (s : State) : Host.Outcome State Fault Refusal :=
  match s.inbox with
  | [] => proceed s
  | r :: rest =>
    match waitsFor r s with
    | some side => issue side s
    | none => serve r { s with inbox := rest }

/-! ## Placing one instruction as the next request -/

/-- The first address after a unit's buffer. -/
def freeBase (o : Option Binding) : Nat :=
  match o with
  | none => 0
  | some u => u.base + u.len

/-- A one-byte buffer with the cursor at its start. -/
def oneByteBinding (base : Nat) : Binding := { base := base, len := 1, byte := 0, bit := 0 }

/-- The Decoder in the phase of a command that issues a given cursor operation next (log entry 4). Only a unit that holds an
instance issues one (R71), so a Decoder that holds none is given a one-byte buffer apart from the Encoder's. -/
def readyDec (ph : DecPhase) (s : State) : State :=
  match s.dec with
  | some _ => { s with decCmd := some ph }
  | none => { s with decCmd := some ph, dec := some (oneByteBinding (freeBase s.enc)), decTaken := false }

/-- The Encoder in the phase of a command that issues a given cursor operation next (log entry 4; R88). -/
def readyEnc (ph : EncPhase) (s : State) : State :=
  match s.enc with
  | some _ => { s with encCmd := some ph }
  | none => { s with encCmd := some ph, enc := some (oneByteBinding (freeBase s.dec)) }

/-- The state with a request put at the front. -/
def pushRequest (r : Request) (s : State) : State := { s with inbox := r :: s.inbox }

/-- The state in which an instruction is what the next step runs: a host command is at the front of the list, its unit not busy; a
cursor operation is the next one of its unit's command in progress, and that unit's turn is at the front. (`WC.PUT_ZEROS` is
followed by the single bit 1, as in a codeword without a suffix.) -/
def placeInstr (c : HostCommand) (i : Instr) (s : State) : State :=
  match i with
  | .rcNextBit => pushRequest (.issue .dec) (readyDec .bit s)
  | .rcSkipBits n => pushRequest (.issue .dec) (readyDec (.skip n) s)
  | .wcPutBit b => pushRequest (.issue .enc) (readyEnc (.bit b) s)
  | .wcPutZeros n => pushRequest (.issue .enc) (readyEnc (.zeros n [0x01] 7) s)
  | .wcPutBits src start => pushRequest (.issue .enc) (readyEnc (.bits src start) s)
  | .decNew _ _ => pushRequest (.command c) { s with decCmd := none }
  | .decNextBit => pushRequest (.command c) { s with decCmd := none }
  | .decNextUnsigned => pushRequest (.command c) { s with decCmd := none }
  | .decNextSigned => pushRequest (.command c) { s with decCmd := none }
  | .decSkipNext => pushRequest (.command c) { s with decCmd := none }
  | .encNew _ _ => pushRequest (.command c) { s with encCmd := none }
  | .encPutBit _ => pushRequest (.command c) { s with encCmd := none }
  | .encPutUnsigned _ => pushRequest (.command c) { s with encCmd := none }
  | .encClose => pushRequest (.command c) { s with encCmd := none }

/-- The state in which the instruction of an opcode-table word is what the next step runs, its operand bits 0 (log entry 4). A word
that is no instruction is sent by the host as a command (R67). -/
def placeTableWord (nbits w : Nat) (s : State) : State :=
  match decodeTableWord nbits w with
  | some i => placeInstr ⟨BitVec.ofNat 8 (w % 2 ^ nbits), 0, 0, 0⟩ i s
  | none => pushRequest (.command ⟨BitVec.ofNat 8 (w % 2 ^ nbits), 0, 0, 0⟩) s

end Sys2Proof.Machine
end

