-- ==== Sys2Proof/Machine/Flags.lean ====
section
/-!
DEFINITION. The block has no flags or condition codes (spec 10_state R26); the outcome of a command is its response. This file
gives the statuses their codes (60_exceptions R103) and the response its record (30_encoding R64).
-/

namespace Sys2Proof.Machine

/-- The code of a failure status (R103). -/
def Failure.code : Failure → BitVec 3
  | .endOfStream => 1
  | .overflow => 2
  | .full => 3
  | .invalidArgument => 4
  | .illegal => 5

/-- The `status` field of a response: Ok is 0 (R103). -/
def statusCode : Response → BitVec 3
  | .ok _ => 0
  | .fail e => e.code

/-- The record `(status, data, pos_byte, pos_bit)` (R64). -/
structure ResponseRecord where
  status  : BitVec 3
  data    : Word64
  posByte : Nat
  posBit  : BitOffset
deriving DecidableEq, Repr

/-- The record of a response: "Every field that a command does not define, and every result field when `status` is not Ok, is
driven to zero" (R64). A bit is zero-extended. -/
def responseRecord : Response → ResponseRecord
  | .ok .empty => ⟨0, 0, 0, 0⟩
  | .ok (.bit b) => ⟨0, if b then 1 else 0, 0, 0⟩
  | .ok (.data v) => ⟨0, v, 0, 0⟩
  | .ok (.position byte bit) => ⟨0, 0, byte, bit⟩
  | .fail e => ⟨e.code, 0, 0, 0⟩

end Sys2Proof.Machine
end

