-- ==== Sys2Proof/Safety.lean ====
section
/-!
DEFINITION. The terms in which claims are stated: the invariant of the block (spec 10_state R19, R21, R27; 20_memory R43), linear
positions (00_scope R14), zero runs and suffixes of a stream (41 R83), runs of instructions.
-/

namespace Sys2Proof.Machine

/-! ## The invariant -/

/-- What the registers of a bound unit satisfy: a length the index registers can hold (R12, R27), a
cursor inside the buffer (R19), and `(len, 0)` as the only exhausted position (R21). -/
abbrev Binding.Ok (u : Binding) : Prop :=
  1 ≤ u.len ∧ u.len < 2 ^ Config.idxW ∧ u.byte ≤ u.len ∧ (u.byte = u.len → u.bit = 0)

/-- What the working registers of a Decoder command in progress satisfy: at most 64 zeros counted ("65 only at the moment Overflow
is raised", R29), and as many suffix bits read as are not left (R81). -/
def DecPhase.ok : DecPhase → Bool
  | .bit => true
  | .count k _ => decide (k ≤ 64)
  | .suffix k left read _ => decide (1 ≤ left ∧ left ≤ k ∧ k ≤ 64 ∧ read < 2 ^ (k - left))
  | .skip k => decide (k ≤ 64)

/-- What an Encoder command in progress still has to issue: "The units pass only `n` in 0..64, `m` in 1..9 and `start` in 0..7"
(R63). -/
def EncPhase.ok : EncPhase → Bool
  | .bit _ => true
  | .zeros n src start => decide (n ≤ 64 ∧ 1 ≤ src.length ∧ src.length ≤ 9 ∧ start ≤ 7)
  | .bits src start => decide (1 ≤ src.length ∧ src.length ≤ 9 ∧ start ≤ 7)

/-- The invariant: memory is canonical, bound units are in order, a Decoder whose buffer the host has not taken back shares no byte
with the Encoder (R43), and only a bound unit has a command in progress (R77, R92), its working registers in their ranges. -/
abbrev State.Inv (s : State) : Prop :=
  s.mem.wf ∧ (∀ u ∈ s.dec, u.Ok) ∧ (∀ u ∈ s.enc, u.Ok) ∧
    (s.decTaken = false → ∀ d ∈ s.dec, ∀ e ∈ s.enc, d.overlaps e = false) ∧
    (∀ ph ∈ s.decCmd, s.dec.isSome = true ∧ ph.ok = true) ∧ (∀ ph ∈ s.encCmd, s.enc.isSome = true ∧ ph.ok = true)

/-! ## Linear positions -/

/-- The binding with its cursor at linear position `p` (R14). -/
def Binding.seek (u : Binding) (p : Nat) : Binding := { u with byte := p / 8, bit := BitVec.ofNat 3 (p % 8) }

/-- `z` is the number of consecutive zero bits from the cursor on: "the largest `j` with `p + j ≤ N` and `bitAt(buf, p + i) = 0`
for all `i < j`" (R83). -/
def ZeroRun (m : Memory) (u : Binding) (z : Nat) : Prop :=
  u.pos + z ≤ u.size ∧ (∀ i < z, bitAt m u.base (u.pos + i) = false) ∧
    (u.pos + z = u.size ∨ bitAt m u.base (u.pos + z) = true)

/-- The number in the `k` stream bits from position `q` on, most significant first: `Σ_{i<k} bitAt(buf, q + i) * 2^(k − 1 − i)`
(R54, R83). -/
def fieldAt (m : Memory) (base q k : Nat) : Nat :=
  ((List.range k).map (fun i => (bitAt m base (q + i)).toNat * 2 ^ (k - 1 - i))).sum

/-- Bit `i` of the codeword of a value: `c_i = 0` for `i < k`, `c_(k + i) = X[k − i]` for `i ≤ k` (R97). -/
def codewordBit (v : Word64) (i : Nat) : Bit :=
  if i < zeroRunOf v then false else (xOf v).testBit (2 * zeroRunOf v - i)

/-- How many bits a writing instruction writes if they fit: one (R89, R94), `n` (R90), `8 m − start` (R91), `2 k + 1` (R97); every
other instruction writes none. -/
def runLength : Instr → Nat
  | .encPutBit _ => 1
  | .encPutUnsigned v => 2 * zeroRunOf v + 1
  | .wcPutBit _ => 1
  | .wcPutZeros n => n
  | .wcPutBits src start => 8 * src.length - start
  | .decNew _ _ | .decNextBit | .decNextUnsigned | .decNextSigned | .decSkipNext | .encNew _ _ | .encClose | .rcNextBit
  | .rcSkipBits _ => 0

/-- Bit `j` of the run a writing instruction writes (R89 to R91, R94, R97). -/
def runBit : Instr → Nat → Bit
  | .encPutBit b, _ => b
  | .encPutUnsigned v, j => codewordBit v j
  | .wcPutBit b, _ => b
  | .wcPutZeros _, _ => false
  | .wcPutBits src start, j => sourceBit src (start + j)
  | .decNew _ _, _ | .decNextBit, _ | .decNextUnsigned, _ | .decNextSigned, _ | .decSkipNext, _ | .encNew _ _, _ | .encClose, _
  | .rcNextBit, _ | .rcSkipBits _, _ => false

/-! ## Kinds of instructions -/

/-- The Decoder commands other than NEW. -/
def isDecRead : Instr → Bool
  | .decNextBit | .decNextUnsigned | .decNextSigned | .decSkipNext => true
  | .decNew _ _ | .encNew _ _ | .encPutBit _ | .encPutUnsigned _ | .encClose | .rcNextBit | .rcSkipBits _ | .wcPutBit _
  | .wcPutZeros _ | .wcPutBits _ _ => false

/-- The micro-operations of the read cursor. -/
def isReadCursorOp : Instr → Bool
  | .rcNextBit | .rcSkipBits _ => true
  | .decNew _ _ | .decNextBit | .decNextUnsigned | .decNextSigned | .decSkipNext | .encNew _ _ | .encPutBit _
  | .encPutUnsigned _ | .encClose | .wcPutBit _ | .wcPutZeros _ | .wcPutBits _ _ => false

/-- The Encoder commands that write bits. -/
def isEncWrite : Instr → Bool
  | .encPutBit _ | .encPutUnsigned _ => true
  | .decNew _ _ | .decNextBit | .decNextUnsigned | .decNextSigned | .decSkipNext | .encNew _ _ | .encClose | .rcNextBit
  | .rcSkipBits _ | .wcPutBit _ | .wcPutZeros _ | .wcPutBits _ _ => false

/-- The micro-operations of the write cursor. -/
def isWriteCursorOp : Instr → Bool
  | .wcPutBit _ | .wcPutZeros _ | .wcPutBits _ _ => true
  | .decNew _ _ | .decNextBit | .decNextUnsigned | .decNextSigned | .decSkipNext | .encNew _ _ | .encPutBit _
  | .encPutUnsigned _ | .encClose | .rcNextBit | .rcSkipBits _ => false

/-- Construction of a Decoder. -/
def isDecNew : Instr → Bool
  | .decNew _ _ => true
  | .decNextBit | .decNextUnsigned | .decNextSigned | .decSkipNext | .encNew _ _ | .encPutBit _ | .encPutUnsigned _
  | .encClose | .rcNextBit | .rcSkipBits _ | .wcPutBit _ | .wcPutZeros _ | .wcPutBits _ _ => false

/-- Construction of an Encoder. -/
def isEncNew : Instr → Bool
  | .encNew _ _ => true
  | .decNew _ _ | .decNextBit | .decNextUnsigned | .decNextSigned | .decSkipNext | .encPutBit _ | .encPutUnsigned _
  | .encClose | .rcNextBit | .rcSkipBits _ | .wcPutBit _ | .wcPutZeros _ | .wcPutBits _ _ => false

/-- An instruction that reads through the Decoder's cursor. -/
def isRead (i : Instr) : Bool := isDecRead i || isReadCursorOp i

/-- An instruction that writes through the Encoder's cursor. -/
def isWrite (i : Instr) : Bool := isEncWrite i || isWriteCursorOp i

/-- The failure statuses a command can answer, by the table of R109; the last column, Illegal, is for unbound units. -/
def failuresOf : Instr → List Failure
  | .decNew _ _ => [.invalidArgument]
  | .decNextBit => [.endOfStream, .illegal]
  | .decNextUnsigned => [.endOfStream, .overflow, .illegal]
  | .decNextSigned => [.endOfStream, .overflow, .illegal]
  | .decSkipNext => [.endOfStream, .overflow, .illegal]
  | .encNew _ _ => [.invalidArgument]
  | .encPutBit _ => [.full, .illegal]
  | .encPutUnsigned _ => [.full, .illegal]
  | .encClose => [.illegal]
  | .rcNextBit => [.endOfStream]
  | .rcSkipBits _ => []
  | .wcPutBit _ => [.full]
  | .wcPutZeros _ => [.full]
  | .wcPutBits _ _ => [.full]

/-! ## Runs of instructions -/

/-- So many steps, one after another; a stop ends them. -/
def stepTimes : Nat → State → Host.Outcome State Fault Refusal
  | 0, s => .next s
  | n + 1, s =>
    match step s with
    | .next t => stepTimes n t
    | .fault e => .fault e
    | .refused e => .refused e

/-- The instructions run one after another: the responses in order and the last state, if every one has a next state. -/
def runAll : List Instr → State → Option (List (Option Response) × State)
  | [], s => some ([], s)
  | i :: is, s =>
    match exec i s with
    | .next t => (runAll is t).map (fun r => (t.resp :: r.1, r.2))
    | .fault _ => none
    | .refused _ => none

/-- Does `DEC.SKIP_NEXT` clamp here: does the codeword's suffix reach beyond the end of the buffer (R74, R85)? -/
def skipClamps (m : Memory) (u : Binding) : Prop :=
  ∃ z ≤ 64, ZeroRun m u z ∧ u.pos + z < u.size ∧ u.size < u.pos + 2 * z + 1

/-- A run of Decoder commands in which none answers EndOfStream and no skip clamps (the runs R87 speaks of). -/
def QuietRun : List Instr → State → Prop
  | [], _ => True
  | i :: is, s =>
    isDecRead i = true ∧ (i = .decSkipNext → ∀ u ∈ s.dec, ¬ skipClamps s.mem u) ∧
      ∃ t, exec i s = .next t ∧ t.resp ≠ some (.fail .endOfStream) ∧ QuietRun is t

end Sys2Proof.Machine
end

