-- ==== Sys2Proof/Certificates/Slice0/Obligations.lean ====
section
/-!
DEFINITION. The statements about the model, each a proposition named after what it says. A docstring names the rules of the
spec it formalises. In all of them `s.decTaken = false` says that the host has kept its hands off the Decoder's buffer (20 R43; log
entry 6), and `u.Ok` is what the registers of a bound unit satisfy in every state a run reaches (R12, R19, R21; kept by every
step, `StepKeepsTheInvariant`). A statement about `step` names the first request of `State.inbox`: that what happens next at the
block's boundary is that list, that a step serves one of its requests or issues one cursor operation of a command in progress, and
that the list says which unit goes on next, is the model's choice (log entry 4).
-/

open Sys2Proof Sys2Proof.Machine

/-! ## Encoding -/

/-- Decoding the record that carries a well-formed instruction gives it back, every operand included (R60 to R63). -/
def Obligations.DecodeOfEncodeIsTheInstruction : Prop :=
  ∀ i : Instr, i.wellFormed = true → decode (encode i) = .ok i

/-- A decoded instruction is well formed, and the record that carries it has the same op byte and decodes to it: each code has
one meaning (R62). -/
def Obligations.DecodedCodesHaveOneMeaning : Prop :=
  ∀ (w : Wire) (i : Instr), decode w = .ok i →
    i.wellFormed = true ∧ (encode i).op = w.op ∧ decode (encode i) = .ok i

/-- Words of the opcode map written out (R62). -/
def Obligations.OpcodeMapWordsDecode : Prop :=
  decode (.command ⟨0b00000000, 3, 16, 4⟩) = .ok (.decNew ⟨16, 4⟩ 3) ∧
  decode (.command ⟨0b00000010, 0, 0, 0⟩) = .ok .decNextUnsigned ∧
  decode (.command ⟨0b01000001, 3, 0, 0⟩) = .ok (.encPutBit true) ∧
  decode (.command ⟨0b01000011, 0, 0, 0⟩) = .ok .encClose ∧
  decode (.micro ⟨0b10000001, 13, false, [], 0⟩) = .ok (.rcSkipBits 13) ∧
  decode (.micro ⟨0b11000010, 0, false, [0x05], 5⟩) = .ok (.wcPutBits [0x05] 5)

/-- With no command in progress, a host code outside the nine changes nothing and is answered Illegal; each of the nine decodes (R67).
(While a unit is busy: `StepRunsTheDecodedInstruction`, the model's choice of log entry 12.) -/
def Obligations.HostCodesOutsideTheNineAreIllegal : Prop :=
  (∀ (c : HostCommand) (s : State) (rest : List Request),
    ¬ (c.op ≤ 0x04#8 ∨ (0x40#8 ≤ c.op ∧ c.op ≤ 0x43#8)) → s.inbox = .command c :: rest ∨ s.inbox = .start c :: rest →
    s.decCmd = none → s.encCmd = none →
      step s = .next { s with inbox := rest, resp := some (.fail .illegal) }) ∧
  (∀ c : HostCommand, (c.op ≤ 0x04#8 ∨ (0x40#8 ≤ c.op ∧ c.op ≤ 0x43#8)) → ∃ i, decode (.command c) = .ok i)

/-- Operand bits a command does not use are ignored: `arg` and `buf` of the commands without operands, `arg[63:1]` of
`ENC.PUT_BIT`, `buf` of `ENC.PUT_UNSIGNED`; but all 64 bits of the start offset count (R68). -/
def Obligations.UnusedOperandBitsAreIgnored : Prop :=
  (∀ c c' : HostCommand, c.op = c'.op →
    (c.op ≠ 0x00#8 → c.op ≠ 0x40#8 → c.op ≠ 0x41#8 → c.op ≠ 0x42#8 → decode (.command c) = decode (.command c')) ∧
    (c.op = 0x41#8 → c.arg.getLsbD 0 = c'.arg.getLsbD 0 → decode (.command c) = decode (.command c')) ∧
    (c.op = 0x42#8 → c.arg = c'.arg → decode (.command c) = decode (.command c'))) ∧
  (∀ (buf : BufRef) (off : Word64) (s : State), 7 < off.toNat →
    exec (.decNew buf off) s = .next { s with resp := some (.fail .invalidArgument) } ∧
    exec (.encNew buf off) s = .next { s with resp := some (.fail .invalidArgument) })

/-- The codeword of a value is unique (R51): one zero run `k` and one suffix stand for it, `k = floor_log2(X)` and
`suffix = X − 2^k` with `X = v + 1`; the codeword is `k` zeros and the `k + 1` low bits of `X` from bit `k` down, which are the
terminator 1 and the suffix, most significant bit first. -/
def Obligations.CodewordOfAValueIsUnique : Prop :=
  ∀ v : Word64,
    (∃ k suffix : Nat, suffix < 2 ^ k ∧ 2 ^ k - 1 + suffix = v.toNat) ∧
    ∀ k suffix : Nat, suffix < 2 ^ k → 2 ^ k - 1 + suffix = v.toNat →
      k = Nat.log2 (v.toNat + 1) ∧ suffix = (v.toNat + 1) - 2 ^ k ∧
      codeword v = List.replicate k false ++ (List.range (k + 1)).map (fun i => (v.toNat + 1).testBit (k - i)) ∧
      codeword v = List.replicate k false ++ true :: (List.range k).map (fun i => suffix.testBit (k - 1 - i))

/-- The code is self-delimiting: no codeword is the start of another followed by anything (R52). -/
def Obligations.CodewordsAreSelfDelimiting : Prop :=
  ∀ (v w : Word64) (x y : List Bit), codeword v ++ x = codeword w ++ y → v = w ∧ x = y

/-! ## Steps and reset -/

/-- A step runs a decoded instruction. A host command whose unit is not busy: the step is `exec` of it, the request taken. A host
command whose unit has a command in progress: the request stays, and that unit issues its next cursor operation (R124). A unit's
turn: the micro-operation of its phase is decoded, the step is `exec` of it, and the unit takes the answer (`settleDec`,
`settleEnc`); if `exec` refuses, so does the step. THE MODEL'S CHOICE (log entry 4): the spec has no program counter and no fetch,
the host decides which command comes next (R25, R46); that a step takes the first request of `State.inbox`, and that one step is one
whole command or one cursor operation of it, is this model's. THE MODEL'S CHOICE too (log entry 12), the last clause: a host code that
names no command is answered Illegal at once whatever a unit has in progress, which goes on unchanged; R61, R67 and R124 do not say
whether it has to wait for the unit its port bits name. -/
def Obligations.StepRunsTheDecodedInstruction : Prop :=
  (∀ (s : State) (c : HostCommand) (rest : List Request) (i : Instr), s.inbox = .command c :: rest →
    decode (.command c) = .ok i → s.busy (sideOf i) = false → step s = exec i { s with inbox := rest }) ∧
  (∀ (s : State) (c : HostCommand) (r : Request) (rest : List Request) (i : Instr),
    r = .command c ∨ r = .start c ∨ r = .resetDuring c → s.inbox = r :: rest →
    decode (.command c) = .ok i → s.busy (sideOf i) = true → step s = issue (sideOf i) s) ∧
  (∀ (s : State) (ph : DecPhase) (rest : List Request) (i : Instr), s.inbox = .issue .dec :: rest → s.decCmd = some ph →
    decode (.micro (decMicro ph)) = .ok i →
    (∀ t, exec i { s with inbox := rest } = .next t → step s = .next (settleDec (advanceDec ph t.answered) s.resp t)) ∧
    ∀ e, exec i { s with inbox := rest } = .refused e → step s = .refused e) ∧
  (∀ (s : State) (ph : EncPhase) (rest : List Request) (i : Instr), s.inbox = .issue .enc :: rest → s.encCmd = some ph →
    decode (.micro (encMicro ph)) = .ok i →
    (∀ t, exec i { s with inbox := rest } = .next t → step s = .next (settleEnc (advanceEnc ph t.answered) s.resp t)) ∧
    ∀ e, exec i { s with inbox := rest } = .refused e → step s = .refused e) ∧
  (∀ (s : State) (c : HostCommand) (rest : List Request), ¬ (c.op ≤ 0x04#8 ∨ (0x40#8 ≤ c.op ∧ c.op ≤ 0x43#8)) →
    s.inbox = .command c :: rest ∨ s.inbox = .start c :: rest →
      step s = .next { s with inbox := rest, resp := some (.fail .illegal) })

/-- With no request and no command in progress the block waits (R116): a step changes nothing. With no request a command in progress
goes on (R25); that the Decoder's goes on first is the model's choice, and so is the list of requests (log entry 4). -/
def Obligations.StepWaitsForARequest : Prop :=
  ∀ s : State, s.inbox = [] →
    (s.decCmd = none → s.encCmd = none → step s = .next s) ∧
    (s.decCmd ≠ none → step s = issue .dec s) ∧
    (s.decCmd = none → s.encCmd ≠ none → step s = issue .enc s)

/-- Reset puts both units in the unbound state, and no command is in progress; it touches no buffer (an Encoder command that it
abandons is the next statement's); after reset the block waits for commands (R116). -/
def Obligations.ResetUnbindsBothUnits : Prop :=
  State.reset.dec = none ∧ State.reset.enc = none ∧ State.reset.decCmd = none ∧ State.reset.encCmd = none ∧
  step State.reset = .next State.reset ∧
  ∀ (s : State) (rest : List Request), s.inbox = .reset :: rest →
    ∃ t, step s = .next t ∧ t.dec = none ∧ t.enc = none ∧ t.decCmd = none ∧ t.encCmd = none ∧ t.inbox = rest ∧
      (s.encCmd = none → t.mem = s.mem)

/-- A reset that arrives during a command: both units unbound, no command in progress, and of an Encoder write exactly some initial
part of its run in the buffer (R117), whether the command was issued with the reset or was in progress. `n`, how much of the run, is
a free value (log entry 7): the statement holds for each. THE MODEL'S CHOICE: that every abandoned command has this next state, a
read of a Decoder binding whose buffer the host has taken back and a `DEC.NEW` on the Encoder's live buffer among them (log entry
11: R43 and R117 leave it open whether such a command still uses the buffer), that a reset during a code that names no command comes at
once, whatever a unit has in progress (log entry 12), and that afterwards no response stands on the port (log entry 5). -/
def Obligations.ResetDuringACommandKeepsAnInitialPart : Prop :=
  (∀ (s : State) (c : HostCommand) (rest : List Request), s.inbox = .resetDuring c :: rest →
    (∀ i, decode (.command c) = .ok i → s.busy (sideOf i) = false) →
    ∃ t, step s = .next t ∧ t.dec = none ∧ t.enc = none ∧ t.decCmd = none ∧ t.encCmd = none ∧ t.resp = none ∧
    t.inbox = rest ∧
    (s.enc = none → t.mem = s.mem) ∧
    (s.encCmd = none → (∀ i, decode (.command c) = .ok i → isEncWrite i = false) → ∀ a, t.mem.read a = s.mem.read a) ∧
    (∀ (u : Binding) (i : Instr), s.enc = some u → decode (.command c) = .ok i → isEncWrite i = true →
      ∃ n ≤ runLength i,
        (∀ q, bitAt t.mem u.base q = (bitAt s.mem u.base q ||
          (decide (u.pos ≤ q ∧ q < u.pos + n ∧ q < u.size) && runBit i (q - u.pos)))) ∧
        (∀ a, u.covers a = false → t.mem.read a = s.mem.read a))) ∧
  (∀ (s : State) (u : Binding) (ph : EncPhase) (r : Request) (rest : List Request), s.inbox = r :: rest →
    r = .reset ∨ (∃ c, r = .resetDuring c ∧ ∀ i, decode (.command c) = .ok i → sideOf i = .dec ∧ s.decCmd = none) →
    s.enc = some u → s.encCmd = some ph →
    ∃ t, step s = .next t ∧ t.dec = none ∧ t.enc = none ∧ t.decCmd = none ∧ t.encCmd = none ∧ t.resp = none ∧
      t.inbox = rest ∧
      ∃ n ≤ (pendingRun ph).length,
        (∀ q, bitAt t.mem u.base q = (bitAt s.mem u.base q ||
          (decide (u.pos ≤ q ∧ q < u.pos + n ∧ q < u.size) && (pendingRun ph).getD (q - u.pos) false))) ∧
        (∀ a, u.covers a = false → t.mem.read a = s.mem.read a))

/-- The state after reset satisfies the invariant. -/
def Obligations.ResetSatisfiesTheInvariant : Prop := State.reset.Inv

/-- Every step keeps the invariant: memory canonical, cursors inside their buffers with `(len, 0)` the only exhausted position,
lengths the index registers can hold, a Decoder whose buffer was not taken back apart from the Encoder (R12, R19, R21, R43), a
command in progress only in a bound unit, with at most 64 zeros counted and operands in the ranges of R63 (R29, R77, R92). -/
def Obligations.StepKeepsTheInvariant : Prop :=
  ∀ s t : State, s.Inv → step s = .next t → t.Inv

/-- Only a NEW, a CLOSE or a reset changes whether a unit is bound, to what buffer, and of what length (R27, R28). -/
def Obligations.BindingsChangeOnlyByNewCloseAndReset : Prop :=
  ∀ s t : State, step s = .next t →
    (t.dec.map (fun u => (u.base, u.len)) ≠ s.dec.map (fun u => (u.base, u.len)) →
      ∃ r rest, s.inbox = r :: rest ∧ (r = .reset ∨ (∃ c, r = .resetDuring c) ∨
        ∃ c i, (r = .command c ∨ r = .start c) ∧ decode (.command c) = .ok i ∧ isDecNew i = true ∧ t.resp = some (.ok .empty))) ∧
    (t.enc.map (fun u => (u.base, u.len)) ≠ s.enc.map (fun u => (u.base, u.len)) →
      ∃ r rest, s.inbox = r :: rest ∧ (r = .reset ∨ (∃ c, r = .resetDuring c) ∨
        ∃ c i, (r = .command c ∨ r = .start c) ∧ decode (.command c) = .ok i ∧
          ((isEncNew i = true ∧ t.resp = some (.ok .empty)) ∨ (i = .encClose ∧ t.enc = none))))

/-! ## Statuses -/

/-- The status codes: Ok 0, EndOfStream 1, Overflow 2, Full 3, InvalidArgument 4, Illegal 5; 6 and 7 never; a failure records no
further value (R103). -/
def Obligations.StatusCodesAreTheTables : Prop :=
  (∀ p : Payload, statusCode (.ok p) = 0) ∧ statusCode (.fail .endOfStream) = 1 ∧ statusCode (.fail .overflow) = 2 ∧
  statusCode (.fail .full) = 3 ∧ statusCode (.fail .invalidArgument) = 4 ∧ statusCode (.fail .illegal) = 5 ∧
  (∀ r : Response, (statusCode r).toNat ≤ 5 ∧ (responseRecord r).status = statusCode r) ∧
  (∀ e : Failure, responseRecord (.fail e) = ⟨e.code, 0, 0, 0⟩)

/-- The response record: `data` carries a bit zero-extended or a value, `pos_byte` and `pos_bit` a position; every field the
command does not define, and every result field of a failure, is zero (R64). -/
def Obligations.ResponseRecordCarriesTheResult : Prop :=
  responseRecord (.ok .empty) = ⟨0, 0, 0, 0⟩ ∧
  (∀ b : Bit, responseRecord (.ok (.bit b)) = ⟨0, BitVec.ofNat 64 b.toNat, 0, 0⟩) ∧
  (∀ v : Word64, responseRecord (.ok (.data v)) = ⟨0, v, 0, 0⟩) ∧
  (∀ (byte : Nat) (bit : BitOffset), responseRecord (.ok (.position byte bit)) = ⟨0, 0, byte, bit⟩) ∧
  (∀ e : Failure, (responseRecord (.fail e)).data = 0 ∧ (responseRecord (.fail e)).posByte = 0 ∧
    (responseRecord (.fail e)).posBit = 0)

/-- Which command can answer which failure: only those of its row, and Illegal only when its unit is unbound (R109). -/
def Obligations.CommandsAnswerOnlyTheirStatuses : Prop :=
  ∀ (i : Instr) (s t : State), exec i s = .next t → ∃ r, t.resp = some r ∧
    ∀ e, r = .fail e → e ∈ failuresOf i ∧
      (e = .illegal → (isDecRead i = true ∧ s.dec = none) ∨ ((isEncWrite i = true ∨ i = .encClose) ∧ s.enc = none))

/-- The state each failure leaves (R111). Illegal, InvalidArgument, the EndOfStream of a bit read and the Full of a bit write change
nothing. Any other EndOfStream leaves the cursor at `(len, 0)`. Overflow leaves it 65 bits further when there are 65 zeros at the
cursor, and, in a value read only, 129 bits further when `k = 64` and the suffix is not 0. Full leaves the cursor at `(len, 0)`, and
of the run, which did not fit, exactly the bits that do fit are OR-ed in. The unit stays bound (R112). -/
def Obligations.FailuresLeaveTheTablesState : Prop :=
  ∀ (i : Instr) (s t : State), s.Inv → exec i s = .next t →
    (t.resp = some (.fail .illegal) → t = { s with resp := some (.fail .illegal) }) ∧
    (t.resp = some (.fail .invalidArgument) → t = { s with resp := some (.fail .invalidArgument) }) ∧
    (t.resp = some (.fail .endOfStream) → ∃ u, s.dec = some u ∧
      t = { s with dec := some { u with byte := u.len, bit := 0 }, resp := some (.fail .endOfStream) } ∧
      (i = .decNextBit ∨ i = .rcNextBit → t = { s with resp := some (.fail .endOfStream) })) ∧
    (t.resp = some (.fail .overflow) → ∃ u, s.dec = some u ∧
      ((u.pos + 65 ≤ 8 * u.len ∧ (∀ j < 65, bitAt s.mem u.base (u.pos + j) = false) ∧
          t = { s with dec := some (u.seek (u.pos + 65)), resp := some (.fail .overflow) }) ∨
        (i ≠ .decSkipNext ∧ u.pos + 129 ≤ 8 * u.len ∧ ZeroRun s.mem u 64 ∧ fieldAt s.mem u.base (u.pos + 65) 64 ≠ 0 ∧
          t = { s with dec := some (u.seek (u.pos + 129)), resp := some (.fail .overflow) }))) ∧
    (t.resp = some (.fail .full) → ∃ u, s.enc = some u ∧ 8 * u.len < u.pos + runLength i ∧
      t = { s with enc := some { u with byte := u.len, bit := 0 }, mem := t.mem, resp := some (.fail .full) } ∧
      (∀ q, bitAt t.mem u.base q = (bitAt s.mem u.base q ||
        (decide (u.pos ≤ q ∧ q < u.pos + runLength i ∧ q < 8 * u.len) && runBit i (q - u.pos)))) ∧
      (∀ a, u.covers a = false → t.mem.read a = s.mem.read a) ∧
      (∀ b, i = .encPutBit b ∨ i = .wcPutBit b → t = { s with resp := some (.fail .full) }))

/-- A Decoder command other than NEW, issued to an unbound Decoder, changes nothing and is answered Illegal (R77). -/
def Obligations.UnboundDecoderAnswersIllegal : Prop :=
  ∀ (i : Instr) (s : State), isDecRead i = true → s.dec = none →
    exec i s = .next { s with resp := some (.fail .illegal) }

/-- An Encoder command other than NEW, issued to an unbound Encoder, changes nothing and is answered Illegal; an Encoder that has
been closed is unbound (R92). -/
def Obligations.UnboundEncoderAnswersIllegal : Prop :=
  (∀ (i : Instr) (s : State), isEncWrite i = true ∨ i = .encClose → s.enc = none →
    exec i s = .next { s with resp := some (.fail .illegal) }) ∧
  (∀ s t : State, exec .encClose s = .next t → t.enc = none)

/-- The cursor operations are defined only while their unit is bound (R71, R88), and an internal port has five codes (R62), of which
every phase of a command issues one; that anything else there is refused by name is the model's choice (log entry 4). -/
def Obligations.CursorOperationsNeedABinding : Prop :=
  ∀ s : State,
    (s.dec = none → exec .rcNextBit s = .refused (.cursorUnbound "RC.NEXT_BIT") ∧
      ∀ n, exec (.rcSkipBits n) s = .refused (.cursorUnbound "RC.SKIP_BITS")) ∧
    (s.enc = none → (∀ b, exec (.wcPutBit b) s = .refused (.cursorUnbound "WC.PUT_BIT")) ∧
      (∀ n, exec (.wcPutZeros n) s = .refused (.cursorUnbound "WC.PUT_ZEROS")) ∧
      ∀ src start, exec (.wcPutBits src start) s = .refused (.cursorUnbound "WC.PUT_BITS")) ∧
    (∀ u : MicroOp, u.op ≠ 0x80#8 → u.op ≠ 0x81#8 → u.op ≠ 0xC0#8 → u.op ≠ 0xC1#8 → u.op ≠ 0xC2#8 →
      serveMicro u s = .refused (.noSuchMicroOp u.op)) ∧
    (∀ ph, ∃ i, decode (.micro (decMicro ph)) = .ok i ∧ isReadCursorOp i = true) ∧
    (∀ ph, ∃ i, decode (.micro (encMicro ph)) = .ok i ∧ isWriteCursorOp i = true)

/-! ## Who holds a buffer -/

/-- The model's choice for runs the spec gives no meaning (R43, U9; log entry 6): a Decoder bound to bytes of the Encoder's live
buffer is refused, and so is every use of a Decoder binding whose buffer the host has taken back. -/
def Obligations.SharedBuffersAreRefused : Prop :=
  (∀ (s : State) (buf : BufRef) (off : Word64) (e : Binding), s.enc = some e → buf.len ≠ 0 → off.toNat ≤ 7 →
    e.base < buf.base + buf.len → buf.base < e.base + e.len → exec (.decNew buf off) s = .refused .overlappingBuffers) ∧
  (∀ (s : State) (u : Binding) (i : Instr), s.dec = some u → s.decTaken = true → isRead i = true →
    exec i s = .refused .bufferTakenBack)

/-- When the model holds the Decoder's buffer for taken back (log entry 6): after an Encoder was bound to some of its bytes or the
host stored into it; a successful `DEC.NEW` ends that. A store of the host into the Encoder's live buffer is refused. -/
def Obligations.TakingBackTheDecodersBuffer : Prop :=
  (∀ (s t : State) (buf : BufRef) (off : Word64), exec (.encNew buf off) s = .next t → t.resp = some (.ok .empty) →
    (t.decTaken = true ↔ s.decTaken = true ∨
      ∃ u, s.dec = some u ∧ u.base < buf.base + buf.len ∧ buf.base < u.base + u.len)) ∧
  (∀ (s t : State) (buf : BufRef) (off : Word64), exec (.decNew buf off) s = .next t → t.resp = some (.ok .empty) →
    t.decTaken = false) ∧
  (∀ (s : State) (a : Nat) (v : Byte) (rest : List Request), s.inbox = .hostStore a v :: rest →
    (∀ e, s.enc = some e → e.base ≤ a → a < e.base + e.len → step s = .refused .hostTouchedLentBuffer) ∧
    ((∀ e, s.enc = some e → ¬ (e.base ≤ a ∧ a < e.base + e.len)) → ∃ t, step s = .next t ∧ t.mem.read a = v ∧
      (∀ b, b ≠ a → t.mem.read b = s.mem.read b) ∧ t.dec = s.dec ∧ t.enc = s.enc ∧ t.resp = s.resp ∧
      t.decCmd = s.decCmd ∧ t.encCmd = s.encCmd ∧ (t.decTaken = true ↔ s.decTaken = true ∨ ∃ u, s.dec = some u ∧ u.base ≤ a ∧ a < u.base + u.len)))

/-- The buffer of a Decoder that stays in use is immutable: no step changes a byte of it without taking it back or ending the
binding (R30, R39, R43). -/
def Obligations.DecoderBufferIsImmutableWhileHeld : Prop :=
  ∀ (s t : State) (u : Binding), s.Inv → step s = .next t → s.dec = some u → s.decTaken = false → t.dec ≠ none →
    t.decTaken = false → ∀ a, u.base ≤ a → a < u.base + u.len → t.mem.read a = s.mem.read a

/-! ## Cursors -/

/-- `adv` moves a position one bit: `(byte + 1, 0)` from offset 7, else `(byte, bit + 1)`; `p → p + 1`; never past `len` (R22). -/
def Obligations.AdvMovesOneBit : Prop :=
  ∀ u : Binding,
    (u.bit = 7 → u.adv.byte = u.byte + 1 ∧ u.adv.bit = 0) ∧
    (u.bit ≠ 7 → u.adv.byte = u.byte ∧ u.adv.bit.toNat = u.bit.toNat + 1) ∧
    u.adv.pos = u.pos + 1 ∧ (u.byte < u.len → u.adv.byte ≤ u.len)

/-- Within one binding a unit's linear position never decreases (R23). -/
def Obligations.PositionNeverDecreases : Prop :=
  ∀ (i : Instr) (s t : State), s.Inv → exec i s = .next t →
    (∀ u, s.dec = some u → isDecNew i = false →
      ∃ u', t.dec = some u' ∧ u'.base = u.base ∧ u'.len = u.len ∧ u.pos ≤ u'.pos) ∧
    (∀ u, s.enc = some u → isEncNew i = false → i ≠ .encClose →
      ∃ u', t.enc = some u' ∧ u'.base = u.base ∧ u'.len = u.len ∧ u.pos ≤ u'.pos)

/-- How far one command can move a cursor: one bit for the bit commands, 129 for the value commands (R128). -/
def Obligations.CommandsEndWithinTheirBitSteps : Prop :=
  ∀ (i : Instr) (s t : State), s.Inv → exec i s = .next t →
    (∀ u u', s.dec = some u → t.dec = some u' → isDecRead i = true →
      u'.pos ≤ u.pos + (if i = .decNextBit then 1 else 129)) ∧
    (∀ u u', s.enc = some u → t.enc = some u' → isEncWrite i = true →
      u'.pos ≤ u.pos + (match i with | .encPutBit _ => 1 | _ => 129))

/-- `RC.NEXT_BIT` returns the stream bit under the cursor and advances by one; on an exhausted cursor EndOfStream and no change
(R72). -/
def Obligations.RcNextBitReadsTheBitUnderTheCursor : Prop :=
  ∀ (s : State) (u : Binding), s.dec = some u → s.decTaken = false →
    (u.byte = u.len → exec .rcNextBit s = .next { s with resp := some (.fail .endOfStream) }) ∧
    (u.byte < u.len → exec .rcNextBit s = .next { s with
      dec := some (u.seek (u.pos + 1)), resp := some (.ok (.bit (bitAt s.mem u.base u.pos))) })

/-- EndOfStream is sticky: an answer of it leaves the cursor exhausted, and on an exhausted cursor every read answers it and
changes nothing, and a skip moves nowhere (R73). -/
def Obligations.EndOfStreamIsSticky : Prop :=
  ∀ (s : State) (u : Binding), s.dec = some u → s.decTaken = false → u.Ok →
    (∀ (i : Instr) (t : State), isRead i = true → exec i s = .next t → t.resp = some (.fail .endOfStream) →
      t.decTaken = false ∧ ∃ u', t.dec = some u' ∧ u'.Ok ∧ u'.byte = u'.len) ∧
    (u.byte = u.len →
      (∀ i : Instr, isDecRead i = true ∨ i = .rcNextBit → exec i s = .next { s with resp := some (.fail .endOfStream) }) ∧
      (∀ n, exec (.rcSkipBits n) s = .next { s with resp := some (.ok .empty) }))

/-- `RC.SKIP_BITS(n)` is `p ← min(p + n, 8 len)`, and answers Ok (R75). -/
def Obligations.RcSkipBitsClampsAtTheEnd : Prop :=
  ∀ (s : State) (u : Binding) (n : Nat), s.dec = some u → s.decTaken = false →
    exec (.rcSkipBits n) s = .next { s with
      dec := some (u.seek (min (u.pos + n) (8 * u.len))), resp := some (.ok .empty) }

/-- `RC.SKIP_BITS(n)` leaves the cursor where `n` successive `RC.NEXT_BIT` would leave it; it answers Ok all the same, and reads
no memory: it does the same whatever memory holds (R76). -/
def Obligations.RcSkipBitsIsRepeatedNextBit : Prop :=
  ∀ (s : State) (u : Binding) (n : Nat), s.dec = some u → s.decTaken = false → u.Ok →
    ∃ rs t t', runAll (List.replicate n .rcNextBit) s = some (rs, t) ∧ exec (.rcSkipBits n) s = .next t' ∧
      t'.dec = t.dec ∧ t'.resp = some (.ok .empty) ∧
      ∀ m, exec (.rcSkipBits n) { s with mem := m } = .next { t' with mem := m }

/-! ## The Decoder -/

/-- `DEC.NEW`: InvalidArgument and no change for an empty buffer or an offset above 7; else the Decoder is bound to the buffer with
the cursor at the offset, whatever it was bound to before; no access (R78). (The buffer apart from the Encoder's: R43.) -/
def Obligations.DecNewBindsTheDecoder : Prop :=
  ∀ (s : State) (buf : BufRef) (off : Word64),
    (buf.len = 0 ∨ 7 < off.toNat → exec (.decNew buf off) s = .next { s with resp := some (.fail .invalidArgument) }) ∧
    (buf.len ≠ 0 → off.toNat ≤ 7 →
      (∀ e, s.enc = some e → e.base + e.len ≤ buf.base ∨ buf.base + buf.len ≤ e.base) →
      ∃ t, exec (.decNew buf off) s = .next t ∧ t.dec = some ⟨buf.base, buf.len, 0, BitVec.ofNat 3 off.toNat⟩ ∧
        t.resp = some (.ok .empty) ∧ t.enc = s.enc ∧ t.mem = s.mem ∧ t.inbox = s.inbox ∧ t.resets = s.resets ∧
        t.decCmd = s.decCmd ∧ t.encCmd = s.encCmd)

/-- `DEC.NEXT_BIT` returns the next raw bit, zero-extended; EndOfStream and no change when the cursor is exhausted (R79). -/
def Obligations.DecNextBitReturnsTheRawBit : Prop :=
  ∀ (s : State) (u : Binding), s.dec = some u → s.decTaken = false →
    (u.byte = u.len → exec .decNextBit s = .next { s with resp := some (.fail .endOfStream) }) ∧
    (u.byte < u.len → exec .decNextBit s = .next { s with
      dec := some (u.seek (u.pos + 1))
      resp := some (.ok (.data (BitVec.ofNat 64 (bitAt s.mem u.base u.pos).toNat))) })

/-- `DEC.NEXT_UNSIGNED` as a function of the linear position, its five cases in order (R83). Every position has a zero run. -/
def Obligations.DecNextUnsignedByLinearPosition : Prop :=
  ∀ (s : State) (u : Binding), s.dec = some u → s.decTaken = false → u.Ok →
    (∃ z, ZeroRun s.mem u z) ∧
    ∀ z, ZeroRun s.mem u z → exec .decNextUnsigned s = .next (
      if 65 ≤ z then { s with dec := some (u.seek (u.pos + 65)), resp := some (.fail .overflow) }
      else if u.pos + z = 8 * u.len then
        { s with dec := some (u.seek (8 * u.len)), resp := some (.fail .endOfStream) }
      else if 8 * u.len < u.pos + 2 * z + 1 then
        { s with dec := some (u.seek (8 * u.len)), resp := some (.fail .endOfStream) }
      else if z = 64 ∧ fieldAt s.mem u.base (u.pos + z + 1) z ≠ 0 then
        { s with dec := some (u.seek (u.pos + 129)), resp := some (.fail .overflow) }
      else { s with
        dec := some (u.seek (u.pos + 2 * z + 1))
        resp := some (.ok (.data (BitVec.ofNat 64 (2 ^ z - 1 + fieldAt s.mem u.base (u.pos + z + 1) z)))) })

/-- The value is `(2^k − 1) + suffix`, exactly: a sum of at most `2^64 − 2` for `k ≤ 63`, which for `k = 64` fits 64 bits only when
the suffix is 0; a value that `DEC.NEXT_UNSIGNED` answers is that sum (R55). -/
def Obligations.DecodedValueFitsUnlessOverflow : Prop :=
  (∀ (m : Memory) (base q k : Nat),
    (k ≤ 63 → 2 ^ k - 1 + fieldAt m base q k ≤ 2 ^ 64 - 2) ∧
    (k = 64 → (2 ^ k - 1 + fieldAt m base q k < 2 ^ 64 ↔ fieldAt m base q k = 0))) ∧
  (∀ (s t : State) (u : Binding) (k : Nat) (v : Word64), s.dec = some u → u.Ok → ZeroRun s.mem u k →
    exec .decNextUnsigned s = .next t → t.resp = some (.ok (.data v)) →
      v.toNat = 2 ^ k - 1 + fieldAt s.mem u.base (u.pos + k + 1) k)

/-- `DEC.NEXT_SIGNED` does what `DEC.NEXT_UNSIGNED` does, with the same failures and cursor effects, and answers `mag` for an odd
value and its two's complement negation for an even one, `mag = ((u >> 1) + (u & 1)) mod 2^64` (R84). The second part says where it
completes: on a whole codeword that stands for a value (R83). -/
def Obligations.DecNextSignedMapsTheUnsignedValue : Prop :=
  ∀ (s : State) (u : Binding), s.dec = some u → s.decTaken = false →
    (∃ t t', exec .decNextUnsigned s = .next t ∧ exec .decNextSigned s = .next t' ∧ t' = { t with resp := t'.resp } ∧
      ((∃ e, t.resp = some (.fail e) ∧ t'.resp = some (.fail e)) ∨
        ∃ v : Word64, t.resp = some (.ok (.data v)) ∧ t'.resp = some (.ok (.data
          (if v.toNat % 2 = 1 then BitVec.ofNat 64 ((v.toNat / 2 + v.toNat % 2) % 2 ^ 64)
           else BitVec.ofNat 64 ((2 ^ 64 - (v.toNat / 2 + v.toNat % 2) % 2 ^ 64) % 2 ^ 64)))))) ∧
    (∀ z v : Nat, u.Ok → ZeroRun s.mem u z → u.pos + 2 * z + 1 ≤ 8 * u.len →
      v = 2 ^ z - 1 + fieldAt s.mem u.base (u.pos + z + 1) z → v < 2 ^ 64 →
      exec .decNextSigned s = .next { s with
        dec := some (u.seek (u.pos + 2 * z + 1))
        resp := some (.ok (.data (if v % 2 = 1 then BitVec.ofNat 64 ((v / 2 + v % 2) % 2 ^ 64)
          else BitVec.ofNat 64 ((2 ^ 64 - (v / 2 + v % 2) % 2 ^ 64) % 2 ^ 64)))) })

/-- The signed map: sign plus for odd, minus for even, magnitude `ceil(u / 2)`, and the same in 64-bit terms (R56); at
`u = 2^64 − 1` it gives `−2^63`, at `2^64 − 2` the pattern `0x8000000000000001`, and it is a bijection of the 64-bit patterns
(R57). -/
def Obligations.SignedMapAlternatesSigns : Prop :=
  (∀ u : Word64, u.toNat ≠ 2 ^ 64 - 1 →
    (u2s u).toInt = if u.toNat % 2 = 1 then ((u.toNat / 2 + u.toNat % 2 : Nat) : Int)
      else -((u.toNat / 2 + u.toNat % 2 : Nat) : Int)) ∧
  (∀ u : Word64, (u2s u).toNat = if u.toNat % 2 = 1 then (u.toNat / 2 + u.toNat % 2) % 2 ^ 64
    else (2 ^ 64 - (u.toNat / 2 + u.toNat % 2) % 2 ^ 64) % 2 ^ 64) ∧
  u2s 0xFFFFFFFFFFFFFFFF#64 = 0x8000000000000000#64 ∧ (u2s 0xFFFFFFFFFFFFFFFF#64).toInt = -2 ^ 63 ∧
  u2s 0xFFFFFFFFFFFFFFFE#64 = 0x8000000000000001#64 ∧ (u2s 0xFFFFFFFFFFFFFFFE#64).toInt = -(2 ^ 63 - 1) ∧
  Function.Bijective u2s

/-- `S2U` by its formula, and that it and `U2S` undo each other (R58). -/
def Obligations.SignedMapsAreInverse : Prop :=
  (∀ x : Word64, ((s2u x).toNat : Int) =
    (if 0 < x.toInt ∨ x.toInt = -2 ^ 63 then 2 * x.toInt - 1 else -2 * x.toInt) % 2 ^ 64) ∧
  (∀ x : Word64, u2s (s2u x) = x) ∧ (∀ u : Word64, s2u (u2s u) = u)

/-- `DEC.SKIP_NEXT` in linear positions: the failures of the prefix phase, else Ok and `p ← min(p + 2z + 1, N)` (R85). -/
def Obligations.DecSkipNextByLinearPosition : Prop :=
  ∀ (s : State) (u : Binding), s.dec = some u → s.decTaken = false → u.Ok → ∀ z, ZeroRun s.mem u z →
    exec .decSkipNext s = .next (
      if 65 ≤ z then { s with dec := some (u.seek (u.pos + 65)), resp := some (.fail .overflow) }
      else if u.pos + z = 8 * u.len then
        { s with dec := some (u.seek (8 * u.len)), resp := some (.fail .endOfStream) }
      else { s with
        dec := some (u.seek (min (u.pos + 2 * z + 1) (8 * u.len))), resp := some (.ok .empty) })

/-- Whenever `DEC.NEXT_UNSIGNED` would succeed, `DEC.SKIP_NEXT` from the same state succeeds and leaves the cursor at the same
place, `p + 2k + 1` (R86). -/
def Obligations.SkipLandsWhereNextUnsignedLands : Prop :=
  ∀ (s t : State) (v : Word64), s.Inv → exec .decNextUnsigned s = .next t → t.resp = some (.ok (.data v)) →
    exec .decSkipNext s = .next { t with resp := some (.ok .empty) } ∧
    ∃ u k, s.dec = some u ∧ ZeroRun s.mem u k ∧ t.dec = some (u.seek (u.pos + 2 * k + 1))

/-- Decoding does not depend on where in a byte the stream starts (R87): `B'` holds the bits of `B` moved `sh` towards the start; the
same read commands after `DEC.NEW(B, sh)` and after `DEC.NEW(B', 0)` give the same responses, and cursors `sh` bits apart, for as
long as the run on `B` answers no EndOfStream and clamps no skip. -/
def Obligations.DecodingIsAlignmentInvariant : Prop :=
  ∀ (s s' t t' : State) (buf buf' : BufRef) (sh : Word64) (is : List Instr),
    buf'.len = buf.len →
    (∀ q, q < 8 * buf.len - sh.toNat → bitAt s'.mem buf'.base q = bitAt s.mem buf.base (sh.toNat + q)) →
    exec (.decNew buf sh) s = .next t → t.resp = some (.ok .empty) →
    exec (.decNew buf' 0) s' = .next t' → t'.resp = some (.ok .empty) → QuietRun is t →
    ∃ rs f f' d d', runAll is t = some (rs, f) ∧ runAll is t' = some (rs, f') ∧ f.dec = some d ∧ f'.dec = some d' ∧
      d.pos = d'.pos + sh.toNat

/-! ## The Encoder -/

/-- `ENC.NEW`, under the conditions of `DEC.NEW`; it makes no access, so the buffer is not cleared (R93). -/
def Obligations.EncNewBindsTheEncoder : Prop :=
  ∀ (s : State) (buf : BufRef) (off : Word64),
    (buf.len = 0 ∨ 7 < off.toNat → exec (.encNew buf off) s = .next { s with resp := some (.fail .invalidArgument) }) ∧
    (buf.len ≠ 0 → off.toNat ≤ 7 →
      ∃ t, exec (.encNew buf off) s = .next t ∧ t.enc = some ⟨buf.base, buf.len, 0, BitVec.ofNat 3 off.toNat⟩ ∧
        t.resp = some (.ok .empty) ∧ t.dec = s.dec ∧ t.mem = s.mem ∧ t.inbox = s.inbox ∧ t.resets = s.resets ∧
        t.decCmd = s.decCmd ∧ t.encCmd = s.encCmd)

/-- `WC.PUT_BIT(b)`: Full and no change on an exhausted cursor; else a 1 is OR-ed into the byte under the cursor with the mask
`0x80 >> bit`, a 0 changes no memory, and the cursor advances (R89). -/
def Obligations.WcPutBitOrsTheBitIn : Prop :=
  ∀ (s : State) (u : Binding) (b : Bit), s.enc = some u →
    (u.byte = u.len → exec (.wcPutBit b) s = .next { s with resp := some (.fail .full) }) ∧
    (u.byte < u.len → exec (.wcPutBit b) s = .next { s with
      enc := some (u.seek (u.pos + 1))
      mem := if b then s.mem.write (u.base + u.byte) (s.mem.read (u.base + u.byte) ||| 0x80#8 >>> u.bit.toNat) else s.mem
      resp := some (.ok .empty) })

/-- `WC.PUT_ZEROS(n)`: `p ← p + n` and Ok if the bits fit, else the cursor at the end and Full; no memory access (R90). -/
def Obligations.WcPutZerosAdvances : Prop :=
  ∀ (s : State) (u : Binding) (n : Nat), s.enc = some u → u.Ok →
    exec (.wcPutZeros n) s = .next (
      if u.pos + n ≤ 8 * u.len then { s with enc := some (u.seek (u.pos + n)), resp := some (.ok .empty) }
      else { s with enc := some (u.seek (8 * u.len)), resp := some (.fail .full) })

/-- `WC.PUT_BITS(src, start)`: as many of the `8 m − start` source bits as fit are OR-ed in from the cursor on, and nothing else;
Ok if all fit, else Full with the cursor at the end (R91). -/
def Obligations.WcPutBitsCopiesTheRun : Prop :=
  ∀ (s : State) (u : Binding) (src : List Byte) (start : Nat), s.enc = some u → u.Ok →
    ∃ t, exec (.wcPutBits src start) s = .next t ∧
      t.enc = some (u.seek (min (u.pos + (8 * src.length - start)) (8 * u.len))) ∧
      t.resp = some (if u.pos + (8 * src.length - start) ≤ 8 * u.len then .ok .empty else .fail .full) ∧
      (∀ q, bitAt t.mem u.base q = (bitAt s.mem u.base q ||
        (decide (u.pos ≤ q ∧ q < u.pos + (8 * src.length - start) ∧ q < 8 * u.len) &&
          (src.getD ((start + (q - u.pos)) / 8) 0).getLsbD (7 - (start + (q - u.pos)) % 8)))) ∧
      (∀ a, u.covers a = false → t.mem.read a = s.mem.read a) ∧
      t.dec = s.dec ∧ t.decTaken = s.decTaken ∧ t.resets = s.resets ∧ t.inbox = s.inbox ∧
      t.decCmd = s.decCmd ∧ t.encCmd = s.encCmd

/-- `ENC.PUT_BIT` writes one raw bit; a Full leaves everything as it was (R94). -/
def Obligations.EncPutBitWritesOneBit : Prop :=
  ∀ (s : State) (u : Binding) (b : Bit), s.enc = some u →
    (u.byte = u.len → exec (.encPutBit b) s = .next { s with resp := some (.fail .full) }) ∧
    (u.byte < u.len → exec (.encPutBit b) s = .next { s with
      enc := some (u.seek (u.pos + 1))
      mem := if b then s.mem.write (u.base + u.byte) (s.mem.read (u.base + u.byte) ||| 0x80#8 >>> u.bit.toNat) else s.mem
      resp := some (.ok .empty) })

/-- `ENC.PUT_UNSIGNED` in linear positions (R97): the codeword bits that fit are OR-ed in from the cursor on and no other bit
changes; Ok and `p + 2k + 1` if all fit, else Full and the end of the buffer. -/
def Obligations.EncPutUnsignedByLinearPosition : Prop :=
  ∀ (s : State) (u : Binding) (v : Word64), s.enc = some u → u.Ok →
    ∃ t, exec (.encPutUnsigned v) s = .next t ∧
      (u.pos + (2 * Nat.log2 (v.toNat + 1) + 1) ≤ 8 * u.len →
        t.enc = some (u.seek (u.pos + (2 * Nat.log2 (v.toNat + 1) + 1))) ∧ t.resp = some (.ok .empty)) ∧
      (8 * u.len < u.pos + (2 * Nat.log2 (v.toNat + 1) + 1) →
        t.enc = some (u.seek (8 * u.len)) ∧ t.resp = some (.fail .full)) ∧
      (∀ q, bitAt t.mem u.base q = (bitAt s.mem u.base q ||
        (decide (u.pos + Nat.log2 (v.toNat + 1) ≤ q ∧ q < u.pos + (2 * Nat.log2 (v.toNat + 1) + 1) ∧ q < 8 * u.len) &&
          (v.toNat + 1).testBit (2 * Nat.log2 (v.toNat + 1) - (q - u.pos))))) ∧
      (∀ a, u.covers a = false → t.mem.read a = s.mem.read a) ∧
      t.dec = s.dec ∧ t.decTaken = s.decTaken ∧ t.resets = s.resets ∧ t.inbox = s.inbox ∧
      t.decCmd = s.decCmd ∧ t.encCmd = s.encCmd

/-- The loop of `ENC.PUT_UNSIGNED` is `WC.PUT_BITS` on the 9-byte image of `X` from bit `71 − k` on (R95). -/
def Obligations.EncPutUnsignedByByteImage : Prop :=
  ∀ (v : Word64) (m : Memory) (u : Binding), putUnsignedImage v m u = putUnsigned v m u

/-- The same command on a 64-bit datapath, with the wrapped `value + 1` and its leading-zero count, gives the same result for
every value (R96). -/
def Obligations.EncPutUnsignedOn64BitDatapath : Prop :=
  ∀ (v : Word64) (m : Memory) (u : Binding), putUnsigned64 v m u = putUnsigned v m u

/-- `ENC.CLOSE` answers the final cursor position and unbinds the Encoder; no access (R98). -/
def Obligations.EncCloseReturnsThePosition : Prop :=
  ∀ (s : State) (u : Binding), s.enc = some u →
    exec .encClose s = .next { s with enc := none, resp := some (.ok (.position u.byte u.bit)) }

/-- A stream closed and continued with a fresh Encoder on the sub-buffer that starts at the returned byte, from the returned bit,
is the stream written without the break (R98). That the sub-buffer's byte 0 lies at address `u.base + u.byte` of one host memory
is the model's choice (log entry 3). -/
def Obligations.StreamContinuesAfterClose : Prop :=
  ∀ (s t : State) (u : Binding) (v : Word64), s.enc = some u → u.Ok → u.byte < u.len →
    exec (.encPutUnsigned v) s = .next t →
    ∃ rs f e e', runAll [.encClose, .encNew ⟨u.base + u.byte, u.len - u.byte⟩ (BitVec.ofNat 64 u.bit.toNat),
        .encPutUnsigned v] s = some (rs, f) ∧ f.resp = t.resp ∧ f.mem = t.mem ∧
      t.enc = some e ∧ f.enc = some e' ∧ 8 * e'.base + e'.pos = 8 * e.base + e.pos

/-! ## Laws that tie the units -/

/-- Round trip of unsigned values (R99): a value encoded at an offset into a zero buffer that is large enough and decoded at the
same offset is the value, and both cursors end at the same position. -/
def Obligations.RoundTripOfUnsignedValues : Prop :=
  ∀ (s : State) (buf : BufRef) (off v : Word64), off.toNat ≤ 7 →
    2 * Nat.log2 (v.toNat + 1) + 1 ≤ 8 * buf.len - off.toNat →
    (∀ q, off.toNat ≤ q → q < 8 * buf.len → bitAt s.mem buf.base q = false) →
    ∃ (byte : Nat) (bit : BitOffset) (t : State),
      runAll [.encNew buf off, .encPutUnsigned v, .encClose, .decNew buf off, .decNextUnsigned] s =
        some ([some (.ok .empty), some (.ok .empty), some (.ok (.position byte bit)), some (.ok .empty),
          some (.ok (.data v))], t) ∧
      t.dec = some ⟨buf.base, buf.len, byte, bit⟩

/-- Round trip of signed values (R100): `enc.se v` (R70) followed by `DEC.NEXT_SIGNED` at the same offset of the same buffer
returns `v`. -/
def Obligations.RoundTripOfSignedValues : Prop :=
  ∀ (s : State) (buf : BufRef) (off v : Word64), off.toNat ≤ 7 →
    2 * Nat.log2 ((s2u v).toNat + 1) + 1 ≤ 8 * buf.len - off.toNat →
    (∀ q, off.toNat ≤ q → q < 8 * buf.len → bitAt s.mem buf.base q = false) →
    ∃ (byte : Nat) (bit : BitOffset) (t : State),
      runAll [.encNew buf off, encSe v, .encClose, .decNew buf off, .decNextSigned] s =
        some ([some (.ok .empty), some (.ok .empty), some (.ok (.position byte bit)), some (.ok .empty),
          some (.ok (.data v))], t)

/-- Any list of values written one after another into a zero buffer that is large enough is read back in order (R52, R99, R127). -/
def Obligations.StreamOfValuesRoundTrips : Prop :=
  ∀ (s : State) (buf : BufRef) (off : Word64) (vs : List Word64), buf.len ≠ 0 → off.toNat ≤ 7 →
    (vs.map (fun v => 2 * Nat.log2 (v.toNat + 1) + 1)).sum ≤ 8 * buf.len - off.toNat →
    (∀ q, off.toNat ≤ q → q < 8 * buf.len → bitAt s.mem buf.base q = false) →
    ∃ (byte : Nat) (bit : BitOffset) (t : State),
      runAll (.encNew buf off :: vs.map .encPutUnsigned ++ [.encClose, .decNew buf off] ++ vs.map (fun _ => .decNextUnsigned)) s =
        some (some (.ok .empty) :: vs.map (fun _ => some (.ok .empty)) ++
          [some (.ok (.position byte bit)), some (.ok .empty)] ++ vs.map (fun v => some (.ok (.data v))), t) ∧
      8 * byte + bit.toNat = off.toNat + (vs.map (fun v => 2 * Nat.log2 (v.toNat + 1) + 1)).sum

/-- The commands of the two units may be issued in either order: the same responses, registers and memory (R9, R44). -/
def Obligations.UnitsCommandsCommute : Prop :=
  ∀ (s : State) (d e : Binding) (i j : Instr), s.Inv → s.dec = some d → s.enc = some e → s.decTaken = false →
    isRead i = true → isWrite j = true ∨ j = .encClose →
    ∃ t1 t2 t1' t2', exec i s = .next t1 ∧ exec j t1 = .next t2 ∧ exec j s = .next t1' ∧ exec i t1' = .next t2' ∧
      t2'.resp = t1.resp ∧ t2.resp = t1'.resp ∧ t2 = { t2' with resp := t2.resp }

/-! ## Frames -/

/-- The Decoder's instructions leave the Encoder and every byte of memory alone (R9, R39); only `DEC.NEW` changes the binding. -/
def Obligations.DecoderInstructionsLeaveTheRestAlone : Prop :=
  ∀ (i : Instr) (s t : State), isRead i = true ∨ isDecNew i = true → exec i s = .next t →
    t.enc = s.enc ∧ (∀ a, t.mem.read a = s.mem.read a) ∧ t.resets = s.resets ∧ t.inbox = s.inbox ∧
    t.decCmd = s.decCmd ∧ t.encCmd = s.encCmd ∧
    (isRead i = true → t.decTaken = s.decTaken ∧
      t.dec.map (fun u => (u.base, u.len)) = s.dec.map (fun u => (u.base, u.len)))

/-- The Encoder's instructions leave the Decoder's registers alone, and every byte of memory but those under the 1 bits they write,
at the addresses `base + (p + j) / 8`; `ENC.NEW` and `ENC.CLOSE` store nothing (R9, R35, R41). -/
def Obligations.EncoderInstructionsLeaveTheRestAlone : Prop :=
  ∀ (i : Instr) (s t : State), isWrite i = true ∨ isEncNew i = true ∨ i = .encClose → exec i s = .next t →
    t.dec = s.dec ∧ t.resets = s.resets ∧ t.inbox = s.inbox ∧ t.decCmd = s.decCmd ∧ t.encCmd = s.encCmd ∧
    (isEncNew i = false → t.decTaken = s.decTaken) ∧
    (isWrite i = true → t.enc.map (fun u => (u.base, u.len)) = s.enc.map (fun u => (u.base, u.len))) ∧
    (isWrite i = false → ∀ a, t.mem.read a = s.mem.read a) ∧
    (∀ u, s.enc = some u → ∀ a, (∀ j < runLength i, runBit i j = true → u.pos + j < 8 * u.len →
      a ≠ u.base + (u.pos + j) / 8) → t.mem.read a = s.mem.read a)

/-- The Encoder only ever sets bits: after a write every byte has the 1 bits it had, and each stream bit is its old value OR the bit
the instruction wrote there, if any; outside the run and the buffer nothing changes (R40). -/
def Obligations.EncoderOnlySetsBits : Prop :=
  ∀ (i : Instr) (s t : State) (u : Binding), isWrite i = true → s.enc = some u → exec i s = .next t →
    (∀ a, s.mem.read a &&& t.mem.read a = s.mem.read a) ∧
    (∀ q, bitAt t.mem u.base q = (bitAt s.mem u.base q ||
      (decide (u.pos ≤ q ∧ q < u.pos + runLength i ∧ q < 8 * u.len) && runBit i (q - u.pos)))) ∧
    (∀ a, u.covers a = false → t.mem.read a = s.mem.read a) ∧
    ((∀ j < runLength i, runBit i j = false) → t.mem = s.mem)

/-- The block never reads or writes outside the bound buffers: a byte of neither is left alone, and two memories that agree on the
buffers give the same responses, the same registers and the same bytes in the buffers (R35). -/
def Obligations.AccessesStayInsideTheBuffers : Prop :=
  ∀ (i : Instr) (s t : State), exec i s = .next t →
    (∀ a, heldAt s.enc a = false → t.mem.read a = s.mem.read a) ∧
    ∀ m : Memory, (∀ a, heldAt s.dec a = true ∨ heldAt s.enc a = true → m.read a = s.mem.read a) →
      ∃ t', exec i { s with mem := m } = .next t' ∧ t'.dec = t.dec ∧ t'.enc = t.enc ∧ t'.resp = t.resp ∧
        t'.decTaken = t.decTaken ∧ ∀ a, heldAt s.dec a = true ∨ heldAt s.enc a = true → t'.mem.read a = t.mem.read a

/-! ## Commands in progress -/

/-- "A cursor steps only inside a command of the unit that owns it" (R9), and the commands run in two ways that are one. First, a step
that changes a unit's cursor or binding serves a command of that unit, which had none in progress, or issues a cursor operation of
the command that unit has in progress, or is a reset. Second, a command that its unit takes up and issues one cursor operation at a
time, the 129 of R128 at most, ends as the whole command does (R8, R25, R65). The order of the requests is the model's (log
entry 4). -/
def Obligations.CursorsStepOnlyInsideCommands : Prop :=
  (∀ s t : State, step s = .next t →
    (t.dec ≠ s.dec →
      (s.decCmd = none ∧ ∃ c i rest, (s.inbox = .command c :: rest ∨ s.inbox = .start c :: rest) ∧
        decode (.command c) = .ok i ∧ (isDecRead i = true ∨ isDecNew i = true)) ∨
      (s.decCmd ≠ none ∧ issue .dec { s with inbox := t.inbox } = .next t) ∨
      (∃ r rest, s.inbox = r :: rest ∧ (r = .reset ∨ ∃ c, r = .resetDuring c))) ∧
    (t.enc ≠ s.enc →
      (s.encCmd = none ∧ ∃ c i rest, (s.inbox = .command c :: rest ∨ s.inbox = .start c :: rest) ∧
        decode (.command c) = .ok i ∧ (isEncWrite i = true ∨ isEncNew i = true ∨ i = .encClose)) ∨
      (s.encCmd ≠ none ∧ issue .enc { s with inbox := t.inbox } = .next t) ∨
      (∃ r rest, s.inbox = r :: rest ∧ (r = .reset ∨ ∃ c, r = .resetDuring c)))) ∧
  (∀ (s : State) (c : HostCommand) (i : Instr) (rest : List Request), decode (.command c) = .ok i →
    s.inbox = .start c :: (List.replicate 129 (.issue (sideOf i)) ++ rest) → s.busy (sideOf i) = false →
    stepTimes 130 s = exec i { s with inbox := rest })
end

