-- ==== Sys2Proof/Laws/State.lean ====
section
/-!
SUPPORT. The fields of the states and bindings the operations build: one lemma per field per update, each true by unfolding.
-/

namespace Sys2Proof.Machine

@[simp] theorem seek_base (u : Binding) (p : Nat) : (u.seek p).base = u.base := rfl
@[simp] theorem seek_len (u : Binding) (p : Nat) : (u.seek p).len = u.len := rfl
@[simp] theorem seek_byte (u : Binding) (p : Nat) : (u.seek p).byte = p / 8 := rfl
@[simp] theorem seek_bit (u : Binding) (p : Nat) : (u.seek p).bit = BitVec.ofNat 3 (p % 8) := rfl
@[simp] theorem seek_size (u : Binding) (p : Nat) : (u.seek p).size = u.size := rfl
@[simp] theorem seek_seek (u : Binding) (p q : Nat) : (u.seek p).seek q = u.seek q := rfl

@[simp] theorem resetUnits_dec (s : State) : s.resetUnits.dec = none := rfl
@[simp] theorem resetUnits_enc (s : State) : s.resetUnits.enc = none := rfl
@[simp] theorem resetUnits_mem (s : State) : s.resetUnits.mem = s.mem := rfl
@[simp] theorem resetUnits_resp (s : State) : s.resetUnits.resp = none := rfl
@[simp] theorem resetUnits_decTaken (s : State) : s.resetUnits.decTaken = false := rfl
@[simp] theorem resetUnits_resets (s : State) : s.resetUnits.resets = s.resets := rfl
@[simp] theorem resetUnits_inbox (s : State) : s.resetUnits.inbox = s.inbox := rfl

@[simp] theorem resetUnits_decCmd (s : State) : s.resetUnits.decCmd = none := rfl
@[simp] theorem resetUnits_encCmd (s : State) : s.resetUnits.encCmd = none := rfl

@[simp] theorem resetDuringRun_dec (bs : List Bit) (s : State) : (resetDuringRun bs s).dec = none := rfl
@[simp] theorem resetDuringRun_enc (bs : List Bit) (s : State) : (resetDuringRun bs s).enc = none := rfl
@[simp] theorem resetDuringRun_decCmd (bs : List Bit) (s : State) : (resetDuringRun bs s).decCmd = none := rfl
@[simp] theorem resetDuringRun_encCmd (bs : List Bit) (s : State) : (resetDuringRun bs s).encCmd = none := rfl
@[simp] theorem resetDuringRun_resp (bs : List Bit) (s : State) : (resetDuringRun bs s).resp = none := rfl
@[simp] theorem resetDuringRun_decTaken (bs : List Bit) (s : State) : (resetDuringRun bs s).decTaken = false := rfl
@[simp] theorem resetDuringRun_resets (bs : List Bit) (s : State) : (resetDuringRun bs s).resets = s.resets + 1 := rfl
@[simp] theorem resetDuringRun_inbox (bs : List Bit) (s : State) : (resetDuringRun bs s).inbox = s.inbox := rfl
@[simp] theorem resetDuringRun_mem (bs : List Bit) (s : State) :
    (resetDuringRun bs s).mem = memAfterPart (Config.abandonedAfter s.resets) bs s := rfl

@[simp] theorem setDecCmd_dec (s : State) (ph : DecPhase) : (s.setDecCmd ph).dec = s.dec := rfl
@[simp] theorem setDecCmd_enc (s : State) (ph : DecPhase) : (s.setDecCmd ph).enc = s.enc := rfl
@[simp] theorem setDecCmd_decCmd (s : State) (ph : DecPhase) : (s.setDecCmd ph).decCmd = some ph := rfl
@[simp] theorem setDecCmd_encCmd (s : State) (ph : DecPhase) : (s.setDecCmd ph).encCmd = s.encCmd := rfl
@[simp] theorem setDecCmd_mem (s : State) (ph : DecPhase) : (s.setDecCmd ph).mem = s.mem := rfl
@[simp] theorem setDecCmd_resp (s : State) (ph : DecPhase) : (s.setDecCmd ph).resp = s.resp := rfl
@[simp] theorem setDecCmd_decTaken (s : State) (ph : DecPhase) : (s.setDecCmd ph).decTaken = s.decTaken := rfl
@[simp] theorem setDecCmd_resets (s : State) (ph : DecPhase) : (s.setDecCmd ph).resets = s.resets := rfl
@[simp] theorem setDecCmd_inbox (s : State) (ph : DecPhase) : (s.setDecCmd ph).inbox = s.inbox := rfl
@[simp] theorem setEncCmd_dec (s : State) (ph : EncPhase) : (s.setEncCmd ph).dec = s.dec := rfl
@[simp] theorem setEncCmd_enc (s : State) (ph : EncPhase) : (s.setEncCmd ph).enc = s.enc := rfl
@[simp] theorem setEncCmd_decCmd (s : State) (ph : EncPhase) : (s.setEncCmd ph).decCmd = s.decCmd := rfl
@[simp] theorem setEncCmd_encCmd (s : State) (ph : EncPhase) : (s.setEncCmd ph).encCmd = some ph := rfl
@[simp] theorem setEncCmd_mem (s : State) (ph : EncPhase) : (s.setEncCmd ph).mem = s.mem := rfl
@[simp] theorem setEncCmd_resp (s : State) (ph : EncPhase) : (s.setEncCmd ph).resp = s.resp := rfl
@[simp] theorem setEncCmd_decTaken (s : State) (ph : EncPhase) : (s.setEncCmd ph).decTaken = s.decTaken := rfl
@[simp] theorem setEncCmd_resets (s : State) (ph : EncPhase) : (s.setEncCmd ph).resets = s.resets := rfl
@[simp] theorem setEncCmd_inbox (s : State) (ph : EncPhase) : (s.setEncCmd ph).inbox = s.inbox := rfl

/-- What is left of a command in progress once its unit has gone on. -/
def Advance.phase? {φ : Type} : Advance φ → Option φ
  | .goOn ph => some ph
  | .done _ => none

/-- What stands on the port once a unit has gone on. -/
def Advance.port {φ : Type} (old : Option Response) : Advance φ → Option Response
  | .goOn _ => old
  | .done r => some r

section
variable (a : Advance DecPhase) (b : Advance EncPhase) (old : Option Response) (t : State)
@[simp] theorem settleDec_dec : (settleDec a old t).dec = t.dec := by cases a <;> rfl
@[simp] theorem settleDec_enc : (settleDec a old t).enc = t.enc := by cases a <;> rfl
@[simp] theorem settleDec_decCmd : (settleDec a old t).decCmd = a.phase? := by cases a <;> rfl
@[simp] theorem settleDec_encCmd : (settleDec a old t).encCmd = t.encCmd := by cases a <;> rfl
@[simp] theorem settleDec_mem : (settleDec a old t).mem = t.mem := by cases a <;> rfl
@[simp] theorem settleDec_resp : (settleDec a old t).resp = a.port old := by cases a <;> rfl
@[simp] theorem settleDec_decTaken : (settleDec a old t).decTaken = t.decTaken := by cases a <;> rfl
@[simp] theorem settleDec_resets : (settleDec a old t).resets = t.resets := by cases a <;> rfl
@[simp] theorem settleDec_inbox : (settleDec a old t).inbox = t.inbox := by cases a <;> rfl
@[simp] theorem settleEnc_dec : (settleEnc b old t).dec = t.dec := by cases b <;> rfl
@[simp] theorem settleEnc_enc : (settleEnc b old t).enc = t.enc := by cases b <;> rfl
@[simp] theorem settleEnc_decCmd : (settleEnc b old t).decCmd = t.decCmd := by cases b <;> rfl
@[simp] theorem settleEnc_encCmd : (settleEnc b old t).encCmd = b.phase? := by cases b <;> rfl
@[simp] theorem settleEnc_mem : (settleEnc b old t).mem = t.mem := by cases b <;> rfl
@[simp] theorem settleEnc_resp : (settleEnc b old t).resp = b.port old := by cases b <;> rfl
@[simp] theorem settleEnc_decTaken : (settleEnc b old t).decTaken = t.decTaken := by cases b <;> rfl
@[simp] theorem settleEnc_resets : (settleEnc b old t).resets = t.resets := by cases b <;> rfl
@[simp] theorem settleEnc_inbox : (settleEnc b old t).inbox = t.inbox := by cases b <;> rfl
end

@[simp] theorem pushRequest_decCmd (r : Request) (s : State) : (pushRequest r s).decCmd = s.decCmd := rfl
@[simp] theorem pushRequest_encCmd (r : Request) (s : State) : (pushRequest r s).encCmd = s.encCmd := rfl
@[simp] theorem pushRequest_dec (r : Request) (s : State) : (pushRequest r s).dec = s.dec := rfl
@[simp] theorem pushRequest_enc (r : Request) (s : State) : (pushRequest r s).enc = s.enc := rfl
@[simp] theorem pushRequest_mem (r : Request) (s : State) : (pushRequest r s).mem = s.mem := rfl
@[simp] theorem pushRequest_resp (r : Request) (s : State) : (pushRequest r s).resp = s.resp := rfl
@[simp] theorem pushRequest_decTaken (r : Request) (s : State) : (pushRequest r s).decTaken = s.decTaken := rfl
@[simp] theorem pushRequest_resets (r : Request) (s : State) : (pushRequest r s).resets = s.resets := rfl
@[simp] theorem pushRequest_inbox (r : Request) (s : State) : (pushRequest r s).inbox = r :: s.inbox := rfl

@[simp] theorem respond_ok {α : Type} (f : α → Payload) (v : α) : (Result.ok v).respond f = .ok (f v) := rfl
@[simp] theorem respond_fail {α : Type} (f : α → Payload) (e : Failure) :
    (Result.fail e : Result α).respond f = .fail e := rfl

theorem answer_eq (s : State) (r : Response) : s.answer r = .next { s with resp := some r } := rfl

end Sys2Proof.Machine
end

