-- ==== Sys2Proof/Laws/Memory.lean ====
section
/-!
SUPPORT. What the memory operations do: a read after a write, and that every operation keeps the canonical form.
-/

namespace Sys2Proof.Machine

theorem read_dropCell (m : Memory) (a b : Nat) :
    (m.dropCell a).read b = if b = a then Memory.blank else m.read b := by
  induction m with
  | nil => simp [Memory.dropCell, Memory.read]
  | cons c rest ih =>
    obtain ⟨k, w⟩ := c
    simp only [Memory.dropCell, List.filter_cons] at ih ⊢
    by_cases hk : k = a
    · subst hk
      simp only [bne_self_eq_false, Bool.false_eq_true, if_false, ih, Memory.read]
      split <;> simp_all [eq_comm]
    · simp only [bne_iff_ne, ne_eq, hk, not_false_eq_true, if_true, Memory.read, ih]
      by_cases hb : k = b
      · subst hb; simp [hk]
      · simp [hb]

theorem read_placeCell (m : Memory) (a b : Nat) (v : Byte) (h : ∀ c ∈ m, c.1 ≠ a) :
    (m.placeCell a v).read b = if b = a then v else m.read b := by
  induction m with
  | nil => simp [Memory.placeCell, Memory.read, eq_comm]
  | cons c rest ih =>
    obtain ⟨k, w⟩ := c
    have hk : k ≠ a := h (k, w) (by simp)
    have ih := ih (fun c hc => h c (by simp [hc]))
    simp only [Memory.placeCell]
    split
    · simp only [Memory.read, eq_comm (a := a)]
    · simp only [Memory.read, ih]
      by_cases hb : k = b
      · subst hb; simp [hk]
      · simp [hb]

theorem dropCell_ne (m : Memory) (a : Nat) : ∀ c ∈ m.dropCell a, c.1 ≠ a := by
  simp [Memory.dropCell]

/-- A read after a write gives the byte written, and every other address reads as before. -/
theorem read_write (m : Memory) (a b : Nat) (v : Byte) :
    (m.write a v).read b = if b = a then v else m.read b := by
  simp only [Memory.write]
  split
  · next h => rw [read_dropCell, h]
  · rw [read_placeCell _ _ _ _ (dropCell_ne m a), read_dropCell]
    split <;> rfl

theorem wf_dropCell {m : Memory} (a : Nat) (h : m.wf) : (m.dropCell a).wf :=
  ⟨h.1.sublist List.filter_sublist, fun c hc => h.2 c (List.mem_of_mem_filter hc)⟩

theorem mem_placeCell (m : Memory) (a : Nat) (v : Byte) (c : Host.Cell) :
    c ∈ m.placeCell a v ↔ c = (a, v) ∨ c ∈ m := by
  induction m with
  | nil => simp [Memory.placeCell]
  | cons d rest ih =>
    obtain ⟨k, w⟩ := d
    simp only [Memory.placeCell]
    split
    · simp
    · simp only [List.mem_cons, ih]; tauto

theorem wf_placeCell {m : Memory} {a : Nat} {v : Byte} (h : m.wf) (ha : ∀ c ∈ m, c.1 ≠ a) (hv : v ≠ Memory.blank) :
    (m.placeCell a v).wf := by
  refine ⟨?_, fun c hc => ?_⟩
  · obtain ⟨hp, -⟩ := h
    induction m with
    | nil => simp [Memory.placeCell]
    | cons d rest ih =>
      obtain ⟨k, w⟩ := d
      have hk : k ≠ a := ha (k, w) (by simp)
      obtain ⟨hd, hr⟩ := List.pairwise_cons.1 hp
      simp only [Memory.placeCell]
      split
      · next hlt =>
        refine List.pairwise_cons.2 ⟨fun c hc => ?_, hp⟩
        rcases List.mem_cons.1 hc with rfl | hc
        · exact hlt
        · exact lt_trans hlt (hd c hc)
      · next hlt =>
        refine List.pairwise_cons.2 ⟨fun c hc => ?_, ih (fun c hc => ha c (by simp [hc])) hr⟩
        rcases (mem_placeCell rest a v c).1 hc with rfl | hc
        · show k < a; omega
        · exact hd c hc
  · rcases (mem_placeCell m a v c).1 hc with rfl | hc
    · exact hv
    · exact h.2 c hc

/-- A write keeps the canonical form. -/
theorem wf_write {m : Memory} (a : Nat) (v : Byte) (h : m.wf) : (m.write a v).wf := by
  simp only [Memory.write]
  split
  · exact wf_dropCell a h
  · next hv => exact wf_placeCell (wf_dropCell a h) (dropCell_ne m a) hv

theorem wf_reset : State.reset.mem.wf := by decide

/-- Two canonical memories that read the same everywhere are the same list. -/
theorem eq_of_read_eq {m m' : Memory} (h : m.wf) (h' : m'.wf) (hr : ∀ a, m.read a = m'.read a) : m = m' := by
  have absent : ∀ (m : Memory) (a : Nat), (∀ c ∈ m, c.1 ≠ a) → m.read a = Memory.blank := by
    intro m a hm
    induction m with
    | nil => rfl
    | cons c rest ih =>
      have := hm c (by simp)
      simp only [Memory.read, this, if_false]
      exact ih (fun d hd => hm d (by simp [hd]))
  have head : ∀ (c : Host.Cell) (rest : Memory), Memory.read (c :: rest) c.1 = c.2 := fun c rest => by
    simp [Memory.read]
  have tail : ∀ {c : Host.Cell} {rest : Memory}, Memory.wf (c :: rest) → Memory.wf rest := fun h =>
    ⟨(List.pairwise_cons.1 h.1).2, fun d hd => h.2 d (by simp [hd])⟩
  have above : ∀ {c : Host.Cell} {rest : Memory}, Memory.wf (c :: rest) → ∀ a, a ≤ c.1 → Memory.read rest a = Memory.blank :=
    fun h a ha => absent _ _ (fun d hd => by have := (List.pairwise_cons.1 h.1).1 d hd; omega)
  have read_cons : ∀ (c : Host.Cell) (rest : Memory) (a : Nat),
      Memory.read (c :: rest) a = if c.1 = a then c.2 else Memory.read rest a := fun c rest a => rfl
  induction m generalizing m' with
  | nil =>
    cases m' with
    | nil => rfl
    | cons c rest =>
      have := hr c.1
      rw [head] at this
      exact absurd this.symm (h'.2 c (by simp))
  | cons c rest ih =>
    cases m' with
    | nil =>
      have := hr c.1
      rw [head] at this
      exact absurd this (h.2 c (by simp))
    | cons c' rest' =>
      have hc := h.2 c (by simp)
      have hc' := h'.2 c' (by simp)
      have hkey : c.1 = c'.1 := by
        rcases Nat.lt_trichotomy c.1 c'.1 with hlt | heq | hlt
        · have := hr c.1
          rw [head, read_cons, if_neg (by omega), above h' _ (by omega)] at this
          exact absurd this hc
        · exact heq
        · have := hr c'.1
          rw [head, read_cons, if_neg (by omega), above h _ (by omega)] at this
          exact absurd this.symm hc'
      have hval : c.2 = c'.2 := by
        have := hr c.1
        rwa [head, read_cons, if_pos hkey.symm] at this
      have hrest : rest = rest' := by
        refine ih (tail h) (tail h') (fun a => ?_)
        by_cases ha : a ≤ c.1
        · rw [above h a ha, above h' a (by omega)]
        · have := hr a
          rwa [read_cons, read_cons, if_neg (by omega), if_neg (by omega)] at this
      rw [hrest, Prod.ext hkey hval]

end Sys2Proof.Machine
end

