-- ==== Sys2Proof/Laws/Cursor.lean ====
section
/-!
SUPPORT. Cursors in linear positions: advancing, reading one bit, skipping (spec 00_scope R14, 10_state R22, 40 R72, R75).
-/

namespace Sys2Proof.Machine

@[simp] theorem pos_seek (u : Binding) (p : Nat) : (u.seek p).pos = p := by
  simp only [Binding.pos, Binding.seek, BitVec.toNat_ofNat]; omega

@[simp] theorem seek_pos (u : Binding) : u.seek u.pos = u := by
  have hb := u.bit.isLt
  have h1 : u.pos / 8 = u.byte := by simp only [Binding.pos]; omega
  have h2 : u.pos % 8 = u.bit.toNat := by simp only [Binding.pos]; omega
  cases u
  simp_all [Binding.seek]

theorem seek_size_eq (u : Binding) : u.seek u.size = { u with byte := u.len, bit := 0 } := by
  simp [Binding.seek, Binding.size]

theorem pos_lt_size (u : Binding) : u.pos < u.size ↔ u.byte < u.len := by
  have := u.bit.isLt
  simp only [Binding.pos, Binding.size]; omega

theorem exhausted_iff (u : Binding) : u.exhausted = true ↔ u.size ≤ u.pos := by
  have := pos_lt_size u
  simp only [Binding.exhausted, decide_eq_true_eq]; omega

/-- A cursor in order lies at or before the end of the buffer. -/
theorem Binding.Ok.pos_le {u : Binding} (h : u.Ok) : u.pos ≤ u.size := by
  obtain ⟨-, -, hin, hex⟩ := h
  rcases Nat.lt_or_eq_of_le hin with hlt | heq
  · exact Nat.le_of_lt ((pos_lt_size u).2 hlt)
  · simp [Binding.pos, Binding.size, hex heq, heq]

theorem adv_eq_seek (u : Binding) : u.adv = u.seek (u.pos + 1) := by
  have hb := u.bit.isLt
  simp only [Binding.adv, Binding.seek, Binding.pos]
  split
  · next h =>
    have h7 : u.bit.toNat = 7 := by simp [h]
    have e1 : (8 * u.byte + u.bit.toNat + 1) / 8 = u.byte + 1 := by omega
    have e2 : (8 * u.byte + u.bit.toNat + 1) % 8 = 0 := by omega
    simp [e1, e2]
  · next h =>
    have h7 : u.bit.toNat ≠ 7 := fun e => h (BitVec.eq_of_toNat_eq (by simpa using e))
    have e1 : (8 * u.byte + u.bit.toNat + 1) / 8 = u.byte := by omega
    have e2 : (8 * u.byte + u.bit.toNat + 1) % 8 = u.bit.toNat + 1 := by omega
    rw [e1, e2]
    congr 1

theorem selectBit_eq_bitAt (m : Memory) (u : Binding) :
    selectBit (memRead m u u.byte) u.bit = bitAt m u.base u.pos := by
  have hb := u.bit.isLt
  have e1 : (8 * u.byte + u.bit.toNat) / 8 = u.byte := by omega
  have e2 : (8 * u.byte + u.bit.toNat) % 8 = u.bit.toNat := by omega
  simp only [selectBit, memRead, bitAt, Binding.pos, e1, e2]

/-- What `RC.NEXT_BIT` does, in linear positions (R72). -/
theorem nextBit_eq (m : Memory) (u : Binding) :
    nextBit m u = if u.pos < u.size then (.ok (bitAt m u.base u.pos), u.seek (u.pos + 1)) else (.fail .endOfStream, u) := by
  simp only [nextBit, selectBit_eq_bitAt, adv_eq_seek]
  have := exhausted_iff u
  split
  · rw [if_neg (by simp_all)]
  · rw [if_pos (by rw [← not_le]; simp_all)]

/-- What `RC.SKIP_BITS` does, in linear positions (R75). -/
theorem skipBits_eq (n : Nat) (u : Binding) : skipBits n u = u.seek (min (u.pos + n) u.size) := by
  have hb := u.bit.isLt
  have e1 : (8 * u.byte + u.bit.toNat + n) / 8 = u.byte + (u.bit.toNat + n) / 8 := by omega
  have e2 : (8 * u.byte + u.bit.toNat + n) % 8 = (u.bit.toNat + n) % 8 := by omega
  simp only [skipBits]
  split
  · next h =>
    have hm : min (u.pos + n) u.size = u.size := by simp only [Binding.pos, Binding.size]; omega
    rw [hm, seek_size_eq]
  · next h =>
    have hm : min (u.pos + n) u.size = 8 * u.byte + u.bit.toNat + n := by simp only [Binding.pos, Binding.size]; omega
    rw [hm, Binding.seek, e1, e2]

/-- Moving to a position inside the buffer keeps the registers in order. -/
theorem ok_seek {u : Binding} (h : u.Ok) {p : Nat} (hp : p ≤ u.size) : (u.seek p).Ok := by
  obtain ⟨h1, h2, -, -⟩ := h
  simp only [Binding.size] at hp
  refine ⟨h1, h2, ?_, fun he => ?_⟩
  · show p / 8 ≤ u.len; omega
  · have : p / 8 = u.len := he
    have e : p % 8 = 0 := by omega
    simp [e]

theorem ok_newBinding {buf : BufRef} {off : Word64} {u : Binding} (hb : buf.WellFormed) (h : newBinding buf off = .ok u) :
    u.Ok := by
  simp only [newBinding] at h
  split at h
  · simp at h
  · next hc =>
    obtain rfl := Result.ok.inj h
    refine ⟨?_, hb, Nat.zero_le _, fun he => ?_⟩
    · show 1 ≤ buf.len; omega
    · have : 0 = buf.len := he
      omega

/-- What the operands of NEW make (R78, R93): a binding with the cursor at linear position `off`, or InvalidArgument. -/
theorem newBinding_eq (buf : BufRef) (off : Word64) :
    newBinding buf off = if buf.len = 0 ∨ 7 < off.toNat then .fail .invalidArgument
      else .ok ⟨buf.base, buf.len, 0, BitVec.ofNat 3 off.toNat⟩ := by
  have e : off.extractLsb' 0 3 = BitVec.ofNat 3 off.toNat := by
    apply BitVec.eq_of_toNat_eq; simp
  have g : (off > 7) ↔ 7 < off.toNat := by simp [BitVec.lt_def]
  simp only [newBinding, g, e]

/-- `RC.NEXT_BIT` on an exhausted cursor (R72). -/
theorem nextBit_end {m : Memory} {u : Binding} (h : u.byte = u.len) : nextBit m u = (.fail .endOfStream, u) := by
  rw [nextBit_eq, if_neg]
  rw [pos_lt_size]; omega

/-- `RC.NEXT_BIT` inside the buffer (R72). -/
theorem nextBit_inside {m : Memory} {u : Binding} (h : u.byte < u.len) :
    nextBit m u = (.ok (bitAt m u.base u.pos), u.seek (u.pos + 1)) := by
  rw [nextBit_eq, if_pos]
  rwa [pos_lt_size]

/-- Reading a bit does not change which buffer is read. -/
theorem nextBit_buffer (m : Memory) (u : Binding) : (nextBit m u).2.base = u.base ∧ (nextBit m u).2.len = u.len := by
  rw [nextBit_eq]
  split <;> exact ⟨rfl, rfl⟩

/-- The start offset is the linear position of a new binding (R14). -/
theorem pos_new (base len : Nat) {off : Nat} (h : off ≤ 7) : (⟨base, len, 0, BitVec.ofNat 3 off⟩ : Binding).pos = off := by
  simp only [Binding.pos, BitVec.toNat_ofNat]; omega

end Sys2Proof.Machine
end

