-- ==== Sys2Proof/Laws/Decoder.lean ====
section
/-!
SUPPORT. The Decoder's phases and commands in linear positions (spec 41 R80 to R85).
-/

namespace Sys2Proof.Machine

/-! ## Zero runs -/

theorem exists_zeroRun (m : Memory) (u : Binding) (h : u.pos ≤ u.size) : ∃ z, ZeroRun m u z := by
  have : ∀ r p : Nat, p + r = u.size → ∃ z, p + z ≤ u.size ∧ (∀ i < z, bitAt m u.base (p + i) = false) ∧
      (p + z = u.size ∨ bitAt m u.base (p + z) = true) := by
    intro r
    induction r with
    | zero => exact fun p hp => ⟨0, by omega, by simp, .inl hp⟩
    | succ r ih =>
      intro p hp
      cases hb : bitAt m u.base p with
      | true => exact ⟨0, by omega, by simp, .inr hb⟩
      | false =>
        obtain ⟨z, hz, h0, h1⟩ := ih (p + 1) (by omega)
        refine ⟨z + 1, by omega, fun i hi => ?_, ?_⟩
        · rcases i with _ | i
          · exact hb
          · rw [show p + (i + 1) = p + 1 + i by omega]; exact h0 i (by omega)
        · rw [show p + (z + 1) = p + 1 + z by omega]; exact h1
  obtain ⟨z, hz⟩ := this (u.size - u.pos) u.pos (by omega)
  exact ⟨z, hz⟩

theorem zeroRun_unique {m : Memory} {u : Binding} {y z : Nat} (hy : ZeroRun m u y) (hz : ZeroRun m u z) : y = z := by
  obtain ⟨hy1, hy2, hy3⟩ := hy
  obtain ⟨hz1, hz2, hz3⟩ := hz
  rcases Nat.lt_trichotomy y z with hlt | heq | hlt
  · rcases hy3 with h | h
    · omega
    · rw [hz2 y hlt] at h; simp at h
  · exact heq
  · rcases hz3 with h | h
    · omega
    · rw [hy2 z hlt] at h; simp at h

/-! ## The prefix phase -/

/-- What counting zeros does (R80): Overflow once `left` zeros have been read, EndOfStream at the end of the buffer, else the
count and the cursor after the terminator. -/
theorem countZeros_eq (m : Memory) (left k : Nat) (u : Binding) (z : Nat) (h : ZeroRun m u z) :
    countZeros m left k u =
      if left ≤ z then (.fail .overflow, u.seek (u.pos + left))
      else if u.pos + z = u.size then (.fail .endOfStream, u.seek u.size)
      else (.ok (k + z), u.seek (u.pos + z + 1)) := by
  induction left generalizing k u z with
  | zero => simp [countZeros]
  | succ left ih =>
    obtain ⟨hz, h0, h1⟩ := h
    rw [countZeros, nextBit_eq]
    rcases z with _ | z
    · by_cases hp : u.pos = u.size
      · have hu : u.seek u.size = u := by rw [← hp, seek_pos]
        simp [hp, hu]
      · have hb : bitAt m u.base u.pos = true := by simpa [hp] using h1
        have hlt : u.pos < u.size := by omega
        simp [hlt, hp, hb]
    · have hb : bitAt m u.base u.pos = false := h0 0 (by omega)
      rw [if_pos (by omega), hb]
      have hrun : ZeroRun m (u.seek (u.pos + 1)) z := by
        refine ⟨by simp; omega, fun i hi => ?_, ?_⟩
        · have := h0 (i + 1) (by omega)
          simpa [show u.pos + 1 + i = u.pos + (i + 1) by omega] using this
        · simpa [show u.pos + 1 + z = u.pos + (z + 1) by omega] using h1
      simp only
      rw [ih (k + 1) _ z hrun]
      simp only [pos_seek, seek_size, seek_seek, show u.pos + 1 + left = u.pos + (left + 1) by omega,
        show u.pos + 1 + z = u.pos + (z + 1) by omega, show k + 1 + z = k + (z + 1) by omega, Nat.succ_le_succ_iff]

theorem prefixPhase_eq {m : Memory} {u : Binding} {z : Nat} (h : ZeroRun m u z) :
    prefixPhase m u =
      if 65 ≤ z then (.fail .overflow, u.seek (u.pos + 65))
      else if u.pos + z = u.size then (.fail .endOfStream, u.seek u.size)
      else (.ok z, u.seek (u.pos + z + 1)) := by
  rw [prefixPhase, countZeros_eq m _ 0 u z h, Nat.zero_add]

/-! ## The suffix phase -/

@[simp] theorem fieldAt_zero (m : Memory) (base q : Nat) : fieldAt m base q 0 = 0 := rfl

theorem fieldAt_succ (m : Memory) (base q k : Nat) :
    fieldAt m base q (k + 1) = (bitAt m base q).toNat * 2 ^ k + fieldAt m base (q + 1) k := by
  simp only [fieldAt, List.range_succ_eq_map, List.map_cons, List.map_map, List.sum_cons]
  congr 2
  apply List.map_congr_left
  intro i _
  simp [Function.comp, show q + 1 + i = q + (i + 1) by omega, show k - (i + 1) = k - 1 - i by omega]

theorem fieldAt_lt (m : Memory) (base q k : Nat) : fieldAt m base q k < 2 ^ k := by
  induction k generalizing q with
  | zero => simp
  | succ k ih =>
    have := ih (q + 1)
    rw [fieldAt_succ, pow_succ]
    cases bitAt m base q <;> simp <;> omega

theorem fieldAt_congr {m m' : Memory} {base base' q q' k : Nat}
    (h : ∀ i < k, bitAt m base (q + i) = bitAt m' base' (q' + i)) : fieldAt m base q k = fieldAt m' base' q' k := by
  simp only [fieldAt]
  congr 1
  apply List.map_congr_left
  intro i hi
  rw [h i (List.mem_range.1 hi)]

/-- What reading `k` suffix bits does (R81). -/
theorem suffixPhase_eq (m : Memory) (k acc : Nat) (u : Binding) (h : u.pos ≤ u.size) :
    suffixPhase m k acc u =
      if u.pos + k ≤ u.size then (.ok (acc * 2 ^ k + fieldAt m u.base u.pos k), u.seek (u.pos + k))
      else (.fail .endOfStream, u.seek u.size) := by
  induction k generalizing acc u with
  | zero => simp [suffixPhase, h]
  | succ k ih =>
    rw [suffixPhase, nextBit_eq]
    by_cases hp : u.pos < u.size
    · rw [if_pos hp]
      simp only
      rw [ih _ _ (by simp; omega)]
      simp only [pos_seek, seek_size, seek_seek, seek_base, show u.pos + 1 + k = u.pos + (k + 1) by omega]
      split
      · rw [fieldAt_succ]; congr 2; ring
      · rfl
    · rw [if_neg hp, if_neg (by omega)]
      simp only [show u.size = u.pos by omega, seek_pos]

/-! ## The value commands -/

/-- `DEC.NEXT_UNSIGNED` as a function of the linear position (R83). -/
theorem nextUnsigned_eq {m : Memory} {u : Binding} {z : Nat} (h : ZeroRun m u z) :
    nextUnsigned m u =
      if 65 ≤ z then (.fail .overflow, u.seek (u.pos + 65))
      else if u.pos + z = u.size then (.fail .endOfStream, u.seek u.size)
      else if u.size < u.pos + 2 * z + 1 then (.fail .endOfStream, u.seek u.size)
      else if z = 64 ∧ fieldAt m u.base (u.pos + z + 1) z ≠ 0 then (.fail .overflow, u.seek (u.pos + 129))
      else (.ok (BitVec.ofNat 64 (2 ^ z - 1 + fieldAt m u.base (u.pos + z + 1) z)), u.seek (u.pos + 2 * z + 1)) := by
  have hz := h.1
  rw [nextUnsigned, prefixPhase_eq h]
  by_cases h65 : 65 ≤ z
  · simp [h65]
  · by_cases hN : u.pos + z = u.size
    · simp [h65, hN]
    · simp only [h65, hN, if_false]
      rw [suffixPhase_eq _ _ _ _ (by simp; omega)]
      simp only [pos_seek, seek_size, seek_seek, seek_base, show u.pos + z + 1 + z = u.pos + 2 * z + 1 by omega]
      by_cases hs : u.size < u.pos + 2 * z + 1
      · rw [if_neg (by omega)]; simp [hs]
      · rw [if_pos (by omega)]
        simp only [hs, if_false, Nat.zero_mul, Nat.zero_add]
        split
        · next hc => rw [valueOf, if_pos hc, hc.1]
        · next hc => rw [valueOf, if_neg hc]

/-- `DEC.SKIP_NEXT` in linear positions (R85). -/
theorem skipNext_eq {m : Memory} {u : Binding} {z : Nat} (h : ZeroRun m u z) :
    skipNext m u =
      if 65 ≤ z then (.fail .overflow, u.seek (u.pos + 65))
      else if u.pos + z = u.size then (.fail .endOfStream, u.seek u.size)
      else (.ok (), u.seek (min (u.pos + 2 * z + 1) u.size)) := by
  rw [skipNext, prefixPhase_eq h]
  by_cases h65 : 65 ≤ z
  · simp [h65]
  · by_cases hN : u.pos + z = u.size
    · simp [h65, hN]
    · simp only [h65, hN, if_false, skipBits_eq, pos_seek, seek_size, seek_seek,
        show u.pos + z + 1 + z = u.pos + 2 * z + 1 by omega]

end Sys2Proof.Machine
end

