-- ==== Sys2Proof/Laws/Writer.lean ====
section
/-!
SUPPORT. The write cursor in linear positions: one bit, a run of zeros, a run of bits (spec 42 R89 to R91, 20_memory R40).
-/

namespace Sys2Proof.Machine

/-! ## One bit -/

theorem getLsbD_mask (o i : Nat) (ho : o < 8) (hi : i < 8) : (0x80#8 >>> o).getLsbD i = decide (i = 7 - o) := by
  interval_cases o <;> interval_cases i <;> decide

theorem bitMask_eq (u : Binding) : bitMask u.bit = 0x80#8 >>> (u.pos % 8) := by
  have hb := u.bit.isLt
  have e : u.pos % 8 = u.bit.toNat := by simp only [Binding.pos]; omega
  rw [e, bitMask, BitVec.ushiftRight_eq']

/-- What `WC.PUT_BIT` does to memory. -/
def orBit (b : Bit) (m : Memory) (base p : Nat) : Memory :=
  if b then m.write (base + p / 8) (m.read (base + p / 8) ||| 0x80#8 >>> (p % 8)) else m

/-- What `WC.PUT_BIT` does, in linear positions (R89). -/
theorem putBit_eq (b : Bit) (m : Memory) (u : Binding) :
    putBit b m u = if u.pos < u.size then (.ok (), orBit b m u.base u.pos, u.seek (u.pos + 1)) else (.fail .full, m, u) := by
  have hb := u.bit.isLt
  have e : u.pos / 8 = u.byte := by simp only [Binding.pos]; omega
  have := exhausted_iff u
  simp only [putBit, adv_eq_seek, orBit, bitMask_eq, memRead, memWrite, e]
  by_cases hp : u.pos < u.size
  · have : ¬ u.exhausted = true := by rw [this]; omega
    simp [hp, this]
  · have : u.exhausted = true := by rw [this]; omega
    simp [hp, this]

/-- The bit written is OR-ed in; no other stream bit changes (R40, R89). -/
theorem bitAt_orBit (b : Bit) (m : Memory) (base p q : Nat) :
    bitAt (orBit b m base p) base q = (bitAt m base q || (b && decide (q = p))) := by
  cases b with
  | false => simp [orBit]
  | true =>
    simp only [orBit, if_true, bitAt, read_write, Bool.true_and]
    by_cases hq : q / 8 = p / 8
    · rw [if_pos (by rw [hq]), hq, BitVec.getLsbD_or, getLsbD_mask _ _ (by omega) (by omega)]
      congr 1
      apply decide_eq_decide.2
      constructor
      · intro h; omega
      · intro h; rw [h]
    · rw [if_neg (by omega)]
      have : ¬ q = p := fun h => hq (by rw [h])
      simp [this]

theorem read_orBit (b : Bit) (m : Memory) (base p a : Nat) (h : a ≠ base + p / 8) :
    (orBit b m base p).read a = m.read a := by
  cases b
  · rfl
  · simp [orBit, read_write, h]

theorem wf_orBit {m : Memory} (b : Bit) (base p : Nat) (h : m.wf) : (orBit b m base p).wf := by
  cases b
  · exact h
  · exact wf_write _ _ h

/-- A byte after a bit is written has every 1 it had before (R40). -/
theorem and_orBit (b : Bit) (m : Memory) (base p a : Nat) : m.read a &&& (orBit b m base p).read a = m.read a := by
  cases b with
  | false => simp [orBit]
  | true =>
    simp only [orBit, if_true, read_write]
    split
    · next h => subst h; ext i hi; simp; tauto
    · simp

/-! ## A run of zeros -/

/-- What `WC.PUT_ZEROS` does, in linear positions (R90). -/
theorem putZeros_eq (n : Nat) (u : Binding) (h : u.pos ≤ u.size) :
    putZeros n u = if u.pos + n ≤ u.size then (.ok (), u.seek (u.pos + n)) else (.fail .full, u.seek u.size) := by
  induction n generalizing u with
  | zero => simp [putZeros, h]
  | succ n ih =>
    have := exhausted_iff u
    rw [putZeros, adv_eq_seek]
    by_cases hp : u.pos < u.size
    · rw [if_neg (by simp_all), ih _ (by simp; omega)]
      simp only [pos_seek, seek_size, seek_seek, show u.pos + 1 + n = u.pos + (n + 1) by omega]
    · rw [if_pos (by simp_all), if_neg (by omega), show u.size = u.pos by omega, seek_pos]

/-- Writing zeros through the cursor bit by bit is `WC.PUT_ZEROS` (R90). -/
theorem putRun_zeros (n : Nat) (m : Memory) (u : Binding) :
    putRun (List.replicate n false) m u = ((putZeros n u).1, m, (putZeros n u).2) := by
  induction n generalizing u with
  | zero => rfl
  | succ n ih =>
    simp only [List.replicate_succ, putRun, putBit, putZeros, Bool.false_eq_true, if_false]
    by_cases he : u.exhausted = true
    · simp [he]
    · simp [he, ih]

/-! ## A run of bits -/

theorem putRun_append (bs cs : List Bit) (m : Memory) (u : Binding) :
    putRun (bs ++ cs) m u =
      match putRun bs m u with
      | (.fail e, m', u') => (.fail e, m', u')
      | (.ok _, m', u') => putRun cs m' u' := by
  induction bs generalizing m u with
  | nil => rfl
  | cons b bs ih =>
    simp only [List.cons_append, putRun]
    split
    · rfl
    · exact ih _ _

/-- How a run ends, and where the cursor is then (R91). -/
theorem putRun_end (bs : List Bit) (m : Memory) (u : Binding) (h : u.pos ≤ u.size) :
    (putRun bs m u).1 = (if u.pos + bs.length ≤ u.size then .ok () else .fail .full) ∧
      (putRun bs m u).2.2 = u.seek (min (u.pos + bs.length) u.size) := by
  induction bs generalizing m u with
  | nil => simp [putRun, h]
  | cons b bs ih =>
    rw [putRun, putBit_eq]
    by_cases hp : u.pos < u.size
    · rw [if_pos hp]
      have := ih (orBit b m u.base u.pos) (u.seek (u.pos + 1)) (by simp; omega)
      simpa only [pos_seek, seek_size, seek_seek, List.length_cons, show ∀ n, u.pos + 1 + n = u.pos + (n + 1) by omega]
        using this
    · rw [if_neg hp]
      simp only [List.length_cons]
      rw [if_neg (by omega), show min (u.pos + (bs.length + 1)) u.size = u.pos by omega, seek_pos]
      exact ⟨rfl, rfl⟩

/-- The stream bits after a run has been written: as many bits of it as fit are OR-ed in from the cursor on (R91, R97). -/
theorem bitAt_putRun (bs : List Bit) (m : Memory) (u : Binding) (q : Nat) :
    bitAt (putRun bs m u).2.1 u.base q =
      (bitAt m u.base q || (decide (u.pos ≤ q) && decide (q < u.size) && bs.getD (q - u.pos) false)) := by
  induction bs generalizing m u with
  | nil => simp [putRun]
  | cons b bs ih =>
    rw [putRun, putBit_eq]
    by_cases hp : u.pos < u.size
    · rw [if_pos hp]
      have := ih (orBit b m u.base u.pos) (u.seek (u.pos + 1))
      simp only [seek_base, pos_seek, seek_size] at this
      simp only [this, bitAt_orBit, Bool.or_assoc]
      congr 1
      rcases Nat.lt_trichotomy q u.pos with hq | hq | hq
      · simp [show ¬ u.pos ≤ q by omega, show ¬ u.pos + 1 ≤ q by omega, show ¬ q = u.pos by omega]
      · simp [hq, hp]
      · rw [show q - u.pos = q - (u.pos + 1) + 1 by omega, List.getD_cons_succ, decide_eq_true (show u.pos + 1 ≤ q by omega),
          decide_eq_true (show u.pos ≤ q by omega), decide_eq_false (show ¬ q = u.pos by omega)]
        simp only [Bool.and_false, Bool.false_or, Bool.true_and]
        rfl
    · rw [if_neg hp]
      have : (decide (u.pos ≤ q) && decide (q < u.size)) = false := by
        rw [Bool.and_eq_false_iff]; simp only [decide_eq_false_iff_not]; omega
      simp [this]

/-- A run touches only the bytes under the stream bits it passes over (R35, R40). -/
theorem read_putRun (bs : List Bit) (m : Memory) (u : Binding) (a : Nat)
    (h : ∀ q, u.pos ≤ q → q < u.pos + bs.length → q < u.size → a ≠ u.base + q / 8) :
    (putRun bs m u).2.1.read a = m.read a := by
  induction bs generalizing m u with
  | nil => rfl
  | cons b bs ih =>
    rw [putRun, putBit_eq]
    by_cases hp : u.pos < u.size
    · rw [if_pos hp]
      simp only
      rw [ih _ _ ?_, read_orBit _ _ _ _ _ (h u.pos (le_refl _) (by simp) hp)]
      intro q h1 h2 h3
      simp only [pos_seek, seek_size, seek_base] at h1 h2 h3 ⊢
      exact h q (by omega) (by simp only [List.length_cons]; omega) h3
    · rw [if_neg hp]

/-- A run touches no byte outside the buffer (R35). -/
theorem read_putRun_outside (bs : List Bit) (m : Memory) (u : Binding) (a : Nat) (h : u.covers a = false) :
    (putRun bs m u).2.1.read a = m.read a := by
  refine read_putRun bs m u a (fun q _ _ h3 he => ?_)
  simp only [Binding.size] at h3
  simp only [Binding.covers, Bool.and_eq_false_iff, decide_eq_false_iff_not] at h
  omega

theorem wf_putRun (bs : List Bit) {m : Memory} (u : Binding) (h : m.wf) : (putRun bs m u).2.1.wf := by
  induction bs generalizing m u with
  | nil => exact h
  | cons b bs ih =>
    rw [putRun, putBit_eq]
    by_cases hp : u.pos < u.size
    · rw [if_pos hp]; exact ih _ (wf_orBit _ _ _ h)
    · rw [if_neg hp]; exact h

/-- Every byte keeps the 1 bits it had (R40: the Encoder "never clears a bit"). -/
theorem and_putRun (bs : List Bit) (m : Memory) (u : Binding) (a : Nat) :
    m.read a &&& (putRun bs m u).2.1.read a = m.read a := by
  induction bs generalizing m u with
  | nil => simp [putRun]
  | cons b bs ih =>
    rw [putRun, putBit_eq]
    by_cases hp : u.pos < u.size
    · rw [if_pos hp]
      simp only
      have h1 := and_orBit b m u.base u.pos a
      have h2 := ih (orBit b m u.base u.pos) (u.seek (u.pos + 1))
      rw [← h1, BitVec.and_assoc, h2]
    · rw [if_neg hp]; simp

/-- `WC.PUT_BIT` on an exhausted cursor (R89). -/
theorem putBit_end {b : Bit} {m : Memory} {u : Binding} (h : u.byte = u.len) : putBit b m u = (.fail .full, m, u) := by
  rw [putBit_eq, if_neg]
  rw [pos_lt_size]; omega

/-- `WC.PUT_BIT` inside the buffer (R89). -/
theorem putBit_inside {b : Bit} {m : Memory} {u : Binding} (h : u.byte < u.len) :
    putBit b m u = (.ok (), orBit b m u.base u.pos, u.seek (u.pos + 1)) := by
  rw [putBit_eq, if_pos]
  rwa [pos_lt_size]

/-- Writing does not change which buffer is written. -/
theorem putRun_buffer (bs : List Bit) (m : Memory) (u : Binding) :
    (putRun bs m u).2.2.base = u.base ∧ (putRun bs m u).2.2.len = u.len := by
  induction bs generalizing m u with
  | nil => exact ⟨rfl, rfl⟩
  | cons b bs ih =>
    rw [putRun, putBit_eq]
    by_cases hp : u.pos < u.size
    · rw [if_pos hp]; exact ih _ (u.seek (u.pos + 1))
    · rw [if_neg hp]; exact ⟨rfl, rfl⟩

/-- A byte under no 1 bit of the run is left alone (R41: "Writing a 0 bit: no access"). -/
theorem read_putRun_ones (bs : List Bit) (m : Memory) (u : Binding) (a : Nat)
    (h : ∀ j < bs.length, bs.getD j false = true → u.pos + j < u.size → a ≠ u.base + (u.pos + j) / 8) :
    (putRun bs m u).2.1.read a = m.read a := by
  induction bs generalizing m u with
  | nil => rfl
  | cons b bs ih =>
    rw [putRun, putBit_eq]
    by_cases hp : u.pos < u.size
    · rw [if_pos hp]
      simp only
      rw [ih]
      · cases b with
        | false => rfl
        | true => exact read_orBit _ _ _ _ _ (h 0 (by simp) rfl hp)
      · intro j hj hb hlt
        have := h (j + 1) (by simpa using hj) (by simpa using hb) (by simp at hlt; omega)
        simp only [seek_base, pos_seek]
        rwa [show u.pos + 1 + j = u.pos + (j + 1) by omega]
    · rw [if_neg hp]

/-- A run without a 1 bit leaves memory as it is (R41). -/
theorem putRun_noOnes (bs : List Bit) (m : Memory) (u : Binding) (h : ∀ j < bs.length, bs.getD j false = false) :
    (putRun bs m u).2.1 = m := by
  induction bs generalizing m u with
  | nil => rfl
  | cons b bs ih =>
    rw [putRun, putBit_eq]
    obtain rfl : b = false := h 0 (by simp)
    by_cases hp : u.pos < u.size
    · rw [if_pos hp]
      exact ih _ _ (fun j hj => by simpa using h (j + 1) (by simpa using hj))
    · rw [if_neg hp]

/-- What a run does depends only on the bytes of the buffer: on memories that agree on a set of addresses that takes in the
buffer, it ends the same and leaves them agreeing (R35). -/
theorem putRun_agree (bs : List Bit) (m m' : Memory) (u : Binding) (S : Nat → Prop)
    (hS : ∀ q < u.size, S (u.base + q / 8)) (h : ∀ a, S a → m'.read a = m.read a) :
    (putRun bs m' u).1 = (putRun bs m u).1 ∧ (putRun bs m' u).2.2 = (putRun bs m u).2.2 ∧
      ∀ a, S a → (putRun bs m' u).2.1.read a = (putRun bs m u).2.1.read a := by
  induction bs generalizing m m' u with
  | nil => exact ⟨rfl, rfl, h⟩
  | cons b bs ih =>
    rw [putRun, putRun, putBit_eq, putBit_eq]
    by_cases hp : u.pos < u.size
    · rw [if_pos hp, if_pos hp]
      refine ih _ _ _ hS (fun a ha => ?_)
      cases b with
      | false => exact h a ha
      | true =>
        simp only [orBit, if_true, read_write, h a ha]
        rw [h _ (hS _ hp)]
    · rw [if_neg hp, if_neg hp]; exact ⟨rfl, rfl, h⟩

end Sys2Proof.Machine
end

