-- ==== Sys2Proof/Laws/Encoder.lean ====
section
/-!
SUPPORT. The codeword of a value and the Encoder's write of it (spec 30 R51, 43 R95 to R97).
-/

namespace Sys2Proof.Machine

/-! ## The codeword -/

theorem pow_le_xOf (v : Word64) : 2 ^ zeroRunOf v ≤ xOf v := Nat.log2_self_le (by simp [xOf])

theorem xOf_lt_pow (v : Word64) : xOf v < 2 ^ (zeroRunOf v + 1) := Nat.lt_log2_self

/-- `0 ≤ k ≤ 64` (R49, R95). -/
theorem zeroRunOf_le (v : Word64) : zeroRunOf v ≤ 64 := by
  have h1 := pow_le_xOf v
  have h2 := v.isLt
  have h3 : xOf v < 2 ^ 65 := by simp only [xOf]; omega
  have := (Nat.pow_lt_pow_iff_right (a := 2) (by omega)).1 (lt_of_le_of_lt h1 h3)
  omega

/-- `k` is the length of the zero run exactly when `X` lies between two powers of two (R51). -/
theorem zeroRunOf_eq {v : Word64} {k : Nat} (h1 : 2 ^ k ≤ xOf v) (h2 : xOf v < 2 ^ (k + 1)) : zeroRunOf v = k := by
  have a := (Nat.pow_lt_pow_iff_right (a := 2) (by omega)).1 (lt_of_le_of_lt h1 (xOf_lt_pow v))
  have b := (Nat.pow_lt_pow_iff_right (a := 2) (by omega)).1 (lt_of_le_of_lt (pow_le_xOf v) h2)
  omega

theorem bitsDown_length (x k : Nat) : (bitsDown x k).length = k + 1 := by simp [bitsDown]

/-- A codeword is `2 k + 1` bits long (R50). -/
theorem codeword_length (v : Word64) : (codeword v).length = 2 * zeroRunOf v + 1 := by
  simp [codeword, bitsDown]; omega

/-- The bits of a codeword (R97). -/
theorem codeword_getD (v : Word64) (i : Nat) :
    (codeword v).getD i false = (decide (i < 2 * zeroRunOf v + 1) && codewordBit v i) := by
  simp only [codeword, codewordBit, bitsDown, List.getD_eq_getElem?_getD, List.getElem?_append, List.length_replicate,
    List.getElem?_replicate, List.getElem?_map]
  by_cases h1 : i < zeroRunOf v
  · simp [h1]
  · simp only [h1, if_false]
    by_cases h2 : i < 2 * zeroRunOf v + 1
    · rw [List.getElem?_range (by omega)]
      simp [h2, show zeroRunOf v - (i - zeroRunOf v) = 2 * zeroRunOf v - i by omega]
    · rw [List.getElem?_eq_none (by simp; omega)]
      simp [h2]

/-! ## Writing it -/

/-- `ENC.PUT_UNSIGNED` writes the codeword as one run (R95). -/
theorem putUnsigned_eq_putRun (v : Word64) (m : Memory) (u : Binding) : putUnsigned v m u = putRun (codeword v) m u := by
  rw [putUnsigned, codeword, putRun_append, putRun_zeros]
  split <;> rename_i heq <;> simp [heq]

/-- A single bit is a run of one. -/
theorem putRun_one (b : Bit) (m : Memory) (u : Binding) : putRun [b] m u = putBit b m u := by
  simp only [putRun, putBit_eq]
  split
  · next h =>
    split at h
    · simp at h
    · next hp => simp [hp]; simp at h; simp [h]
  · next h =>
    split at h
    · next hp => simp [hp]; simp at h; simp [h]
    · simp at h

/-! ## Byte images and counts -/

theorem bitsDown_getD (x k j : Nat) : (bitsDown x k).getD j false = (decide (j < k + 1) && x.testBit (k - j)) := by
  simp only [bitsDown, List.getD_eq_getElem?_getD, List.getElem?_map]
  by_cases h : j < k + 1
  · rw [List.getElem?_range h]; simp [h]
  · rw [List.getElem?_eq_none (by simpa using h)]; simp [h]

theorem sourceRun_length (src : List Byte) (start : Nat) : (sourceRun src start).length = 8 * src.length - start := by
  simp [sourceRun]

theorem sourceRun_getD (src : List Byte) (start j : Nat) (h : j < 8 * src.length - start) :
    (sourceRun src start).getD j false = sourceBit src (start + j) := by
  simp only [sourceRun, List.getD_eq_getElem?_getD, List.getElem?_map]
  rw [List.getElem?_range' (by simpa using h)]; simp

/-- Bit `k` of `X` is 1: the terminator of the codeword (R51). -/
theorem xOf_top (v : Word64) : (xOf v).testBit (zeroRunOf v) = true := by
  have h1 := pow_le_xOf v
  have h2 := xOf_lt_pow v
  have hdiv : xOf v / 2 ^ zeroRunOf v = 1 := by
    apply Nat.div_eq_of_lt_le
    · simpa using h1
    · rw [pow_succ] at h2; omega
  rw [Nat.testBit_eq_decide_div_mod_eq, hdiv]; rfl

/-- `k = 64` only for the largest value (R50, 90_conflicts C6). -/
theorem zeroRunOf_max : zeroRunOf (BitVec.allOnes 64) = 64 := by
  apply zeroRunOf_eq <;> decide

end Sys2Proof.Machine
end

