-- ==== Sys2Proof/Laws/Exec.lean ====
section
/-!
SUPPORT. Everything an instruction can do, said once: the shapes of `exec`, and an inversion lemma for it.
-/

namespace Sys2Proof.Machine

/-! ## The shared frames -/

theorem onDecoder_unbound {f : Memory → Binding → Response × Binding} {s : State} (h : s.dec = none) :
    onDecoder f s = .next { s with resp := some (.fail .illegal) } := by simp [onDecoder, h, State.answer]

theorem onDecoder_bound {f : Memory → Binding → Response × Binding} {s : State} {u : Binding} (h : s.dec = some u)
    (ht : s.decTaken = false) :
    onDecoder f s = .next { s with dec := some (f s.mem u).2, resp := some (f s.mem u).1 } := by
  simp [onDecoder, h, ht]

theorem onDecoder_taken {f : Memory → Binding → Response × Binding} {s : State} {u : Binding} (h : s.dec = some u)
    (ht : s.decTaken = true) : onDecoder f s = .refused .bufferTakenBack := by simp [onDecoder, h, ht]

theorem onEncoder_unbound {f : Memory → Binding → Response × Memory × Option Binding} {s : State} (h : s.enc = none) :
    onEncoder f s = .next { s with resp := some (.fail .illegal) } := by simp [onEncoder, h, State.answer]

theorem onEncoder_bound {f : Memory → Binding → Response × Memory × Option Binding} {s : State} {u : Binding}
    (h : s.enc = some u) :
    onEncoder f s = .next { s with enc := (f s.mem u).2.2, mem := (f s.mem u).2.1, resp := some (f s.mem u).1 } := by
  simp [onEncoder, h]

/-! ## The functions the instructions run -/

/-- What a reading instruction computes from its buffer and cursor (no other instruction is asked). -/
def readFn : Instr → Memory → Binding → Response × Binding
  | .decNextBit, m, u => ((nextBit m u).1.respond (fun b => .data (if b then 1 else 0)), (nextBit m u).2)
  | .decNextUnsigned, m, u => ((nextUnsigned m u).1.respond .data, (nextUnsigned m u).2)
  | .decNextSigned, m, u => ((nextUnsigned m u).1.respond (fun v => .data (u2s v)), (nextUnsigned m u).2)
  | .decSkipNext, m, u => ((skipNext m u).1.respond (fun _ => .empty), (skipNext m u).2)
  | .rcNextBit, m, u => ((nextBit m u).1.respond .bit, (nextBit m u).2)
  | .rcSkipBits n, _, u => (.ok .empty, skipBits n u)
  | .decNew _ _, _, u | .encNew _ _, _, u | .encPutBit _, _, u | .encPutUnsigned _, _, u | .encClose, _, u | .wcPutBit _, _, u
  | .wcPutZeros _, _, u | .wcPutBits _ _, _, u => (.ok .empty, u)

/-- The run of bits a writing instruction writes (no other instruction is asked). -/
def runOf : Instr → List Bit
  | .encPutBit b => [b]
  | .encPutUnsigned v => codeword v
  | .wcPutBit b => [b]
  | .wcPutZeros n => List.replicate n false
  | .wcPutBits src start => sourceRun src start
  | .decNew _ _ | .decNextBit | .decNextUnsigned | .decNextSigned | .decSkipNext | .encNew _ _ | .encClose | .rcNextBit
  | .rcSkipBits _ => []

/-- A reading instruction on a bound Decoder. -/
theorem exec_read {i : Instr} {s : State} {u : Binding} (hi : isRead i = true) (h : s.dec = some u)
    (ht : s.decTaken = false) :
    exec i s = .next { s with dec := some (readFn i s.mem u).2, resp := some (readFn i s.mem u).1 } := by
  cases i <;> simp [isRead, isDecRead, isReadCursorOp] at hi
  all_goals
    simp only [exec, execDecNextBit, execDecNextUnsigned, execDecNextSigned, execDecSkipNext, execRcNextBit, execRcSkipBits,
      onReadCursor, h, onDecoder_bound h ht]
    rfl

/-- A writing instruction on a bound Encoder. -/
theorem exec_write {i : Instr} {s : State} {u : Binding} (hi : isWrite i = true) (h : s.enc = some u) :
    exec i s = .next { s with
      enc := some (putRun (runOf i) s.mem u).2.2
      mem := (putRun (runOf i) s.mem u).2.1
      resp := some ((putRun (runOf i) s.mem u).1.respond (fun _ => .empty)) } := by
  cases i <;> simp [isWrite, isEncWrite, isWriteCursorOp] at hi
  all_goals
    simp only [exec, execEncPutBit, execEncPutUnsigned, execWcPutBit, execWcPutZeros, execWcPutBits, onWriteCursor, h,
      onEncoder_bound h, writeAnswer, runOf, putRun_one, putUnsigned_eq_putRun, putRun_zeros, putBits]

theorem exec_encClose {s : State} {u : Binding} (h : s.enc = some u) :
    exec .encClose s = .next { s with enc := none, resp := some (.ok (.position u.byte u.bit)) } := by
  simp only [exec, execEncClose, onEncoder_bound h]

/-! ## Inversion -/

/-- Everything an instruction that has a next state can have done. -/
inductive Did (i : Instr) (s : State) : State → Prop where
  /-- Illegal on an unbound unit. -/
  | illegal (h : (isDecRead i = true ∧ s.dec = none) ∨ ((isEncWrite i = true ∨ i = .encClose) ∧ s.enc = none)) :
      Did i s { s with resp := some (.fail .illegal) }
  /-- A NEW that failed. -/
  | badNew (h : isDecNew i = true ∨ isEncNew i = true) : Did i s { s with resp := some (.fail .invalidArgument) }
  /-- A Decoder was constructed. -/
  | decNew (buf : BufRef) (off : Word64) (u : Binding) (hi : i = .decNew buf off) (hu : newBinding buf off = .ok u)
      (ho : heldOver s.enc u = false) : Did i s { s with dec := some u, decTaken := false, resp := some (.ok .empty) }
  /-- An Encoder was constructed. -/
  | encNew (buf : BufRef) (off : Word64) (u : Binding) (hi : i = .encNew buf off) (hu : newBinding buf off = .ok u) :
      Did i s { s with enc := some u, decTaken := s.decTaken || heldOver s.dec u, resp := some (.ok .empty) }
  /-- A read through the Decoder's cursor. -/
  | read (u : Binding) (hi : isRead i = true) (h : s.dec = some u) (ht : s.decTaken = false) :
      Did i s { s with dec := some (readFn i s.mem u).2, resp := some (readFn i s.mem u).1 }
  /-- A write through the Encoder's cursor. -/
  | write (u : Binding) (hi : isWrite i = true) (h : s.enc = some u) :
      Did i s { s with
        enc := some (putRun (runOf i) s.mem u).2.2
        mem := (putRun (runOf i) s.mem u).2.1
        resp := some ((putRun (runOf i) s.mem u).1.respond (fun _ => .empty)) }
  /-- The Encoder was closed. -/
  | close (u : Binding) (hi : i = .encClose) (h : s.enc = some u) :
      Did i s { s with enc := none, resp := some (.ok (.position u.byte u.bit)) }

theorem newBinding_fail {buf : BufRef} {off : Word64} {e : Failure} (h : newBinding buf off = .fail e) :
    e = .invalidArgument := by
  rw [newBinding_eq] at h
  split at h
  · exact (Result.fail.inj h).symm
  · simp at h

theorem did_read {i : Instr} {s t : State} (hi : isRead i = true) (h : exec i s = .next t) : Did i s t := by
  cases hd : s.dec with
  | none =>
    have key : isDecRead i = true ∧ exec i s = .next { s with resp := some (.fail .illegal) } := by
      cases i <;> simp [isRead, isDecRead, isReadCursorOp] at hi
      case rcNextBit => simp [exec, execRcNextBit, onReadCursor, hd] at h
      case rcSkipBits => simp [exec, execRcSkipBits, onReadCursor, hd] at h
      all_goals
        simp only [exec, execDecNextBit, execDecNextUnsigned, execDecNextSigned, execDecSkipNext, onDecoder_unbound hd]
        exact ⟨rfl, trivial⟩
    rw [key.2] at h
    obtain rfl := Host.Outcome.next.inj h
    exact .illegal (.inl ⟨key.1, hd⟩)
  | some u =>
    cases ht : s.decTaken with
    | true =>
      cases i <;> simp [isRead, isDecRead, isReadCursorOp] at hi
      all_goals
        simp [exec, execDecNextBit, execDecNextUnsigned, execDecNextSigned, execDecSkipNext, execRcNextBit, execRcSkipBits,
          onReadCursor, onDecoder, hd, ht] at h
    | false =>
      rw [exec_read hi hd ht] at h
      obtain rfl := Host.Outcome.next.inj h
      exact .read u hi hd ht

theorem did_write {i : Instr} {s t : State} (hi : isWrite i = true) (h : exec i s = .next t) : Did i s t := by
  cases hd : s.enc with
  | none =>
    have key : isEncWrite i = true ∧ exec i s = .next { s with resp := some (.fail .illegal) } := by
      cases i <;> simp [isWrite, isEncWrite, isWriteCursorOp] at hi
      case wcPutBit => simp [exec, execWcPutBit, onWriteCursor, hd] at h
      case wcPutZeros => simp [exec, execWcPutZeros, onWriteCursor, hd] at h
      case wcPutBits => simp [exec, execWcPutBits, onWriteCursor, hd] at h
      all_goals
        simp only [exec, execEncPutBit, execEncPutUnsigned, onEncoder_unbound hd]
        exact ⟨rfl, trivial⟩
    rw [key.2] at h
    obtain rfl := Host.Outcome.next.inj h
    exact .illegal (.inr ⟨.inl key.1, hd⟩)
  | some u =>
    rw [exec_write hi hd] at h
    obtain rfl := Host.Outcome.next.inj h
    exact .write u hi hd

/-- The inversion lemma of `exec`. -/
theorem exec_did {i : Instr} {s t : State} (h : exec i s = .next t) : Did i s t := by
  cases i with
  | decNew buf off =>
    simp only [exec, execDecNew] at h
    split at h
    · next e he =>
      obtain rfl := newBinding_fail he
      obtain rfl := Host.Outcome.next.inj h
      exact .badNew (.inl rfl)
    · next u hu =>
      split at h
      · simp at h
      · next ho =>
        obtain rfl := Host.Outcome.next.inj h
        exact .decNew buf off u rfl hu (by simpa using ho)
  | encNew buf off =>
    simp only [exec, execEncNew] at h
    split at h
    · next e he =>
      obtain rfl := newBinding_fail he
      obtain rfl := Host.Outcome.next.inj h
      exact .badNew (.inr rfl)
    · next u hu =>
      obtain rfl := Host.Outcome.next.inj h
      exact .encNew buf off u rfl hu
  | encClose =>
    cases hd : s.enc with
    | none =>
      rw [exec, execEncClose, onEncoder_unbound hd] at h
      obtain rfl := Host.Outcome.next.inj h
      exact .illegal (.inr ⟨.inr rfl, hd⟩)
    | some u =>
      rw [exec_encClose hd] at h
      obtain rfl := Host.Outcome.next.inj h
      exact .close u rfl hd
  | decNextBit => exact did_read rfl h
  | decNextUnsigned => exact did_read rfl h
  | decNextSigned => exact did_read rfl h
  | decSkipNext => exact did_read rfl h
  | rcNextBit => exact did_read rfl h
  | rcSkipBits n => exact did_read rfl h
  | encPutBit b => exact did_write rfl h
  | encPutUnsigned v => exact did_write rfl h
  | wcPutBit b => exact did_write rfl h
  | wcPutZeros n => exact did_write rfl h
  | wcPutBits src start => exact did_write rfl h

/-- No instruction touches the list of requests or the counter of resets. -/
theorem exec_host_frame {i : Instr} {s t : State} (h : exec i s = .next t) : t.inbox = s.inbox ∧ t.resets = s.resets := by
  cases exec_did h <;> exact ⟨rfl, rfl⟩

/-- No instruction touches the commands in progress: a unit keeps its own (`issue`). -/
theorem exec_cmd_frame {i : Instr} {s t : State} (h : exec i s = .next t) : t.decCmd = s.decCmd ∧ t.encCmd = s.encCmd := by
  cases exec_did h <;> exact ⟨rfl, rfl⟩

/-- Every instruction that has a next state leaves an answer. -/
theorem exec_answers {i : Instr} {s t : State} (h : exec i s = .next t) : t.resp = some t.answered := by
  cases exec_did h <;> rfl

/-! ## What reading does to the cursor -/

/-- A reading instruction only moves the cursor, forward and inside the buffer. -/
theorem readFn_moves {i : Instr} (hi : isRead i = true) (m : Memory) (u : Binding) (h : u.pos ≤ u.size) :
    ∃ p, u.pos ≤ p ∧ p ≤ u.size ∧ (readFn i m u).2 = u.seek p := by
  obtain ⟨z, hz⟩ := exists_zeroRun m u h
  have hz1 := hz.1
  have bitMoves : ∃ p, u.pos ≤ p ∧ p ≤ u.size ∧ (nextBit m u).2 = u.seek p := by
    rw [nextBit_eq]
    split
    · next hp => exact ⟨_, Nat.le_succ _, hp, rfl⟩
    · exact ⟨_, le_refl _, h, (seek_pos u).symm⟩
  have valueMoves : ∃ p, u.pos ≤ p ∧ p ≤ u.size ∧ (nextUnsigned m u).2 = u.seek p := by
    rw [nextUnsigned_eq hz]
    split
    · exact ⟨_, by omega, by omega, rfl⟩
    · split
      · exact ⟨_, h, le_refl _, rfl⟩
      · split
        · exact ⟨_, h, le_refl _, rfl⟩
        · split
          · exact ⟨_, by omega, by omega, rfl⟩
          · exact ⟨_, by omega, by omega, rfl⟩
  cases i <;> simp [isRead, isDecRead, isReadCursorOp] at hi
  · exact bitMoves
  · exact valueMoves
  · exact valueMoves
  · show ∃ p, u.pos ≤ p ∧ p ≤ u.size ∧ (skipNext m u).2 = u.seek p
    rw [skipNext_eq hz]
    split
    · exact ⟨_, by omega, by omega, rfl⟩
    · split
      · exact ⟨_, h, le_refl _, rfl⟩
      · exact ⟨_, by omega, by omega, rfl⟩
  · exact bitMoves
  · exact ⟨_, by omega, by omega, skipBits_eq _ u⟩

/-! ## What reading depends on -/

theorem nextBit_congr {m m' : Memory} {u : Binding} (h : ∀ q < u.size, bitAt m u.base q = bitAt m' u.base q) :
    nextBit m u = nextBit m' u := by
  rw [nextBit_eq, nextBit_eq]
  split
  · next hp => rw [h _ hp]
  · rfl

theorem countZeros_congr {m m' : Memory} (left k : Nat) (u : Binding)
    (h : ∀ q < u.size, bitAt m u.base q = bitAt m' u.base q) : countZeros m left k u = countZeros m' left k u := by
  induction left generalizing k u with
  | zero => rfl
  | succ left ih =>
    rw [countZeros, countZeros, nextBit_congr h, nextBit_eq]
    split
    · rfl
    · rfl
    · next heq =>
      split at heq
      · have := (Prod.ext_iff.1 heq).2
        simp only at this
        subst this
        exact ih _ _ (by simpa using h)
      · simp at heq

theorem suffixPhase_congr {m m' : Memory} (k acc : Nat) (u : Binding)
    (h : ∀ q < u.size, bitAt m u.base q = bitAt m' u.base q) : suffixPhase m k acc u = suffixPhase m' k acc u := by
  induction k generalizing acc u with
  | zero => rfl
  | succ k ih =>
    rw [suffixPhase, suffixPhase, nextBit_congr h, nextBit_eq]
    split
    · rfl
    · next heq =>
      split at heq
      · have := (Prod.ext_iff.1 heq).2
        simp only at this
        subst this
        exact ih _ _ (by simpa using h)
      · simp at heq

/-- No phase changes which buffer is read. -/
theorem countZeros_buffer (m : Memory) (left k : Nat) (u : Binding) :
    (countZeros m left k u).2.base = u.base ∧ (countZeros m left k u).2.len = u.len := by
  induction left generalizing k u with
  | zero => exact ⟨rfl, rfl⟩
  | succ left ih =>
    rw [countZeros, nextBit_eq]
    by_cases hp : u.pos < u.size
    · rw [if_pos hp]
      cases bitAt m u.base u.pos with
      | true => exact ⟨rfl, rfl⟩
      | false => exact ih _ (u.seek (u.pos + 1))
    · rw [if_neg hp]; exact ⟨rfl, rfl⟩

/-- A reading instruction depends on memory only through the bits of its buffer (R35). -/
theorem readFn_congr {m m' : Memory} (i : Instr) (u : Binding) (h : ∀ q < u.size, bitAt m u.base q = bitAt m' u.base q) :
    readFn i m u = readFn i m' u := by
  have hpre : prefixPhase m u = prefixPhase m' u := countZeros_congr _ _ _ h
  have hval : nextUnsigned m u = nextUnsigned m' u := by
    rw [nextUnsigned, nextUnsigned, ← hpre]
    have hb := countZeros_buffer m (Config.kMax + 1) 0 u
    split
    · rfl
    · next heq =>
      rw [prefixPhase] at heq
      simp only [heq] at hb
      rw [suffixPhase_congr (m' := m') _ _ _ (by simpa [Binding.size, hb.1, hb.2] using h)]
  cases i <;> simp only [readFn, nextBit_congr h, hval, skipNext, hpre]

/-! ## The runs that writing instructions write -/

theorem runOf_length (i : Instr) : (runOf i).length = runLength i := by
  cases i <;> simp [runOf, runLength, codeword_length, sourceRun]

theorem runOf_getD (i : Instr) (j : Nat) : (runOf i).getD j false = (decide (j < runLength i) && runBit i j) := by
  cases i with
  | encPutUnsigned v => exact codeword_getD v j
  | wcPutZeros n => 
    simp only [runOf, runBit, List.getD_eq_getElem?_getD, List.getElem?_replicate]
    split <;> simp
  | wcPutBits src start =>
    simp only [runOf, runLength, runBit, sourceRun, List.getD_eq_getElem?_getD, List.getElem?_map]
    by_cases h : j < 8 * src.length - start
    · rw [List.getElem?_range' (by simpa using h)]; simp [h]
    · rw [List.getElem?_eq_none (by simp; omega)]; simp [h]
  | encPutBit b => rcases j with _ | j <;> simp [runOf, runLength, runBit]
  | wcPutBit b => rcases j with _ | j <;> simp [runOf, runLength, runBit]
  | _ => simp [runOf, runLength, runBit]

/-! ## Buffers -/

theorem overlaps_comm (u v : Binding) : u.overlaps v = v.overlaps u := by
  simp only [Binding.overlaps]; exact Bool.and_comm _ _

/-- Buffers that do not overlap share no address. -/
theorem covers_of_not_overlaps {u v : Binding} (h : u.overlaps v = false) {a : Nat} (ha : u.covers a = true) :
    v.covers a = false := by
  simp only [Binding.overlaps, Binding.covers, Bool.and_eq_true, Bool.and_eq_false_iff, decide_eq_true_eq,
    decide_eq_false_iff_not] at *
  omega

/-- The byte under a stream bit of the buffer is a byte of the buffer. -/
theorem covers_of_lt_size {u : Binding} {q : Nat} (h : q < u.size) : u.covers (u.base + q / 8) = true := by
  simp only [Binding.size] at h
  simp only [Binding.covers, Bool.and_eq_true, decide_eq_true_eq]
  omega

theorem bitAt_congr {m m' : Memory} {u : Binding} (h : ∀ a, u.covers a = true → m.read a = m'.read a) :
    ∀ q < u.size, bitAt m u.base q = bitAt m' u.base q := by
  intro q hq
  simp only [bitAt, h _ (covers_of_lt_size hq)]

/-! ## Updates that change nothing -/

theorem set_dec {s : State} {u : Binding} (h : s.dec = some u) (r : Option Response) :
    ({ s with dec := some u, resp := r } : State) = { s with resp := r } := by rw [← h]

theorem set_enc {s : State} {u : Binding} (h : s.enc = some u) (r : Option Response) :
    ({ s with enc := some u, resp := r } : State) = { s with resp := r } := by rw [← h]

/-! ## Construction -/

theorem exec_decNew {s : State} {buf : BufRef} {off : Word64} (h1 : buf.len ≠ 0) (h2 : off.toNat ≤ 7)
    (ho : heldOver s.enc ⟨buf.base, buf.len, 0, BitVec.ofNat 3 off.toNat⟩ = false) :
    exec (.decNew buf off) s = .next { s with
      dec := some ⟨buf.base, buf.len, 0, BitVec.ofNat 3 off.toNat⟩, decTaken := false, resp := some (.ok .empty) } := by
  simp only [exec, execDecNew, newBinding_eq, h1, show ¬ 7 < off.toNat by omega, or_self, if_false, ho, Bool.false_eq_true]

theorem exec_encNew {s : State} {buf : BufRef} {off : Word64} (h1 : buf.len ≠ 0) (h2 : off.toNat ≤ 7) :
    exec (.encNew buf off) s = .next { s with
      enc := some ⟨buf.base, buf.len, 0, BitVec.ofNat 3 off.toNat⟩
      decTaken := s.decTaken || heldOver s.dec ⟨buf.base, buf.len, 0, BitVec.ofNat 3 off.toNat⟩
      resp := some (.ok .empty) } := by
  simp only [exec, execEncNew, newBinding_eq, h1, show ¬ 7 < off.toNat by omega, or_self, if_false]

/-! ## Which buffer is read -/

theorem suffixPhase_buffer (m : Memory) (k acc : Nat) (u : Binding) :
    (suffixPhase m k acc u).2.base = u.base ∧ (suffixPhase m k acc u).2.len = u.len := by
  induction k generalizing acc u with
  | zero => exact ⟨rfl, rfl⟩
  | succ k ih =>
    rw [suffixPhase, nextBit_eq]
    by_cases hp : u.pos < u.size
    · rw [if_pos hp]; exact ih _ (u.seek (u.pos + 1))
    · rw [if_neg hp]; exact ⟨rfl, rfl⟩

theorem nextUnsigned_buffer (m : Memory) (u : Binding) :
    (nextUnsigned m u).2.base = u.base ∧ (nextUnsigned m u).2.len = u.len := by
  have h1 := countZeros_buffer m (Config.kMax + 1) 0 u
  rw [nextUnsigned, prefixPhase]
  split
  · next heq => rw [heq] at h1; exact h1
  · next k u' heq =>
    rw [heq] at h1
    have h2 := suffixPhase_buffer m k 0 u'
    simp only at h1
    rw [h1.1, h1.2] at h2
    split
    · next heq => rw [heq] at h2; exact h2
    · next heq => rw [heq] at h2; exact h2

theorem skipNext_buffer (m : Memory) (u : Binding) :
    (skipNext m u).2.base = u.base ∧ (skipNext m u).2.len = u.len := by
  have h1 := countZeros_buffer m (Config.kMax + 1) 0 u
  rw [skipNext, prefixPhase]
  split
  · next heq => rw [heq] at h1; exact h1
  · next k u' heq => rw [heq] at h1; simp only [skipBits_eq]; exact h1

/-- No reading instruction changes which buffer its unit is bound to. -/
theorem readFn_buffer (i : Instr) (m : Memory) (u : Binding) :
    (readFn i m u).2.base = u.base ∧ (readFn i m u).2.len = u.len := by
  cases i <;>
    simp only [readFn, nextBit_buffer, nextUnsigned_buffer, skipNext_buffer, skipBits_eq, seek_base, seek_len, and_self]

/-! ## Runs of instructions -/

theorem runAll_append (is js : List Instr) (s : State) :
    runAll (is ++ js) s = (runAll is s).bind (fun r => (runAll js r.2).map (fun q => (r.1 ++ q.1, q.2))) := by
  induction is generalizing s with
  | nil => simp [runAll]
  | cons i is ih =>
    simp only [List.cons_append, runAll]
    cases exec i s with
    | next t => simp only [ih]; cases runAll is t <;> simp [Function.comp_def]
    | fault _ => rfl
    | refused _ => rfl

end Sys2Proof.Machine
end

