-- ==== Sys2Proof/Laws/Operands.lean ====
section
/-!
SUPPORT. The signed maps as numbers (spec 30_encoding R56 to R58).
-/

namespace Sys2Proof.Machine

theorem and_one_toNat (u : Word64) : (u &&& 1).toNat = u.toNat % 2 := by simp [Nat.and_one_is_mod]

theorem and_one_eq (u : Word64) : (u &&& 1 = 1) ↔ u.toNat % 2 = 1 := by
  rw [← and_one_toNat]
  constructor
  · intro h; rw [h]; rfl
  · intro h; exact BitVec.eq_of_toNat_eq (by simpa using h)

/-- What `U2S` computes, as a number (R56). -/
theorem u2s_toNat (u : Word64) :
    (u2s u).toNat = if u.toNat % 2 = 1 then u.toNat / 2 + 1 else (2 ^ 64 - u.toNat / 2) % 2 ^ 64 := by
  have hu := u.isLt
  simp only [u2s, and_one_eq]
  split
  · rw [BitVec.toNat_add, and_one_toNat, BitVec.toNat_ushiftRight, Nat.shiftRight_eq_div_pow]; omega
  · rw [BitVec.toNat_neg, BitVec.toNat_add, and_one_toNat, BitVec.toNat_ushiftRight, Nat.shiftRight_eq_div_pow]; omega

/-- What `S2U` computes, as a number (R58). -/
theorem s2u_toNat (x : Word64) :
    (s2u x).toNat = if 1 ≤ x.toNat ∧ x.toNat < 2 ^ 63 then 2 * x.toNat - 1
      else if x.toNat = 2 ^ 63 then 2 ^ 64 - 1 else (2 * (2 ^ 64 - x.toNat)) % 2 ^ 64 := by
  have hx := x.isLt
  have key : ((s2u x).toNat : Int) =
      (if 0 < x.toInt ∨ x.toInt = -2 ^ 63 then 2 * x.toInt - 1 else -2 * x.toInt) % 2 ^ 64 := by
    simp only [s2u]
    split <;> rw [BitVec.toNat_ofInt] <;> simp <;> omega
  rw [BitVec.toInt_eq_toNat_cond] at key
  generalize (s2u x).toNat = y at key ⊢
  norm_num at key ⊢
  split at key <;> split at key <;> split <;> (try split) <;> omega

end Sys2Proof.Machine
end

