-- ==== Sys2Proof/Laws/PerInstr.lean ====
section
/-!
SUPPORT. Statements about every instruction as syntax. The family `OpFields`: the fields of the `op` byte of the record that
carries an instruction (spec 30_encoding R61).
-/

namespace Sys2Proof.Laws.OpFields

/-- The `port` of an instruction: `00` a Decoder command, `01` an Encoder command, `10` a read-cursor micro-operation, `11` a
write-cursor micro-operation (R61). -/
def port : Instr → BitVec 2
  | .decNew _ _ | .decNextBit | .decNextUnsigned | .decNextSigned | .decSkipNext => 0b00
  | .encNew _ _ | .encPutBit _ | .encPutUnsigned _ | .encClose => 0b01
  | .rcNextBit | .rcSkipBits _ => 0b10
  | .wcPutBit _ | .wcPutZeros _ | .wcPutBits _ _ => 0b11

/-- `op[7:6] = port`, `op[5:3] = 000`, and the record is a host command exactly when the port is the host's (R61). -/
def Statement (i : Instr) : Prop :=
  (encode i).op.extractLsb' 6 2 = port i ∧ (encode i).op.extractLsb' 3 3 = 0 ∧
    ((∃ c, encode i = .command c) ↔ (port i).getLsbD 1 = false)

/-- A record that is a host command. -/
theorem command_statement {i : Instr} {c : HostCommand} (h : encode i = .command c)
    (hp : c.op.extractLsb' 6 2 = port i ∧ c.op.extractLsb' 3 3 = 0 ∧ (port i).getLsbD 1 = false) : Statement i :=
  ⟨by rw [h]; exact hp.1, by rw [h]; exact hp.2.1, ⟨fun _ => hp.2.2, fun _ => ⟨c, h⟩⟩⟩

/-- A record that is a micro-operation. -/
theorem micro_statement {i : Instr} {u : MicroOp} (h : encode i = .micro u)
    (hp : u.op.extractLsb' 6 2 = port i ∧ u.op.extractLsb' 3 3 = 0 ∧ (port i).getLsbD 1 = true) : Statement i := by
  refine ⟨by rw [h]; exact hp.1, by rw [h]; exact hp.2.1, ⟨fun ⟨c, hc⟩ => ?_, fun hf => ?_⟩⟩
  · rw [h] at hc; simp at hc
  · rw [hp.2.2] at hf; simp at hf

theorem decNew (buf : BufRef) (off : Word64) : Statement (.decNew buf off) := command_statement rfl (by simp only [port]; decide)
theorem decNextBit : Statement .decNextBit := command_statement rfl (by decide)
theorem decNextUnsigned : Statement .decNextUnsigned := command_statement rfl (by decide)
theorem decNextSigned : Statement .decNextSigned := command_statement rfl (by decide)
theorem decSkipNext : Statement .decSkipNext := command_statement rfl (by decide)
theorem encNew (buf : BufRef) (off : Word64) : Statement (.encNew buf off) := command_statement rfl (by simp only [port]; decide)
theorem encPutBit (b : Bit) : Statement (.encPutBit b) := command_statement rfl (by simp only [port]; decide)
theorem encPutUnsigned (v : Word64) : Statement (.encPutUnsigned v) := command_statement rfl (by simp only [port]; decide)
theorem encClose : Statement .encClose := command_statement rfl (by decide)
theorem rcNextBit : Statement .rcNextBit := micro_statement rfl (by decide)
theorem rcSkipBits (n : Nat) : Statement (.rcSkipBits n) := micro_statement rfl (by simp only [port]; decide)
theorem wcPutBit (b : Bit) : Statement (.wcPutBit b) := micro_statement rfl (by simp only [port]; decide)
theorem wcPutZeros (n : Nat) : Statement (.wcPutZeros n) := micro_statement rfl (by simp only [port]; decide)
theorem wcPutBits (src : List Byte) (start : Nat) : Statement (.wcPutBits src start) :=
  micro_statement rfl (by simp only [port]; decide)

end Sys2Proof.Laws.OpFields
end

