-- ==== Sys2Proof/Laws/Sequencer.lean ====
section
/-!
SUPPORT. Commands run one cursor operation at a time: what issuing one can do, what a step can do, what a host's command decodes to
(spec 00_scope R9, 10_state R25, 70_reset R124).
-/

namespace Sys2Proof.Machine

/-! ## Which instructions stand on which port -/

/-- What decodes is well formed (R62). -/
theorem decode_wellFormed {w : Wire} {i : Instr} (h : decode w = .ok i) : i.wellFormed = true := by
  cases w with
  | command c =>
    simp only [decode, decodeCommand] at h
    split at h
    case h_10 => split at h <;> simp at h
    all_goals
      obtain rfl := Except.ok.inj h
      simp [Instr.wellFormed, BufRef.WellFormed]
    all_goals exact c.len.isLt
  | micro u =>
    simp only [decode, decodeMicro] at h
    split at h
    case h_6 => simp at h
    all_goals
      obtain rfl := Except.ok.inj h
      simp [Instr.wellFormed]
    all_goals omega

/-- The host cannot issue a cursor operation (R61). -/
theorem decode_command_ne_micro {c : HostCommand} {i : Instr} (h : decode (.command c) = .ok i) :
    isReadCursorOp i = false ∧ isWriteCursorOp i = false := by
  simp only [decode, decodeCommand] at h
  split at h
  case h_10 => split at h <;> simp at h
  all_goals
    obtain rfl := Except.ok.inj h
    exact ⟨rfl, rfl⟩

/-- The cursor operation the Decoder issues in a phase. -/
def decOp : DecPhase → Instr
  | .bit => .rcNextBit
  | .count _ _ => .rcNextBit
  | .suffix _ _ _ _ => .rcNextBit
  | .skip k => .rcSkipBits (k % 128)

/-- The cursor operation the Encoder issues in a phase. -/
def encOp : EncPhase → Instr
  | .bit b => .wcPutBit b
  | .zeros n _ _ => .wcPutZeros (n % 128)
  | .bits src start => .wcPutBits src start

theorem decode_decMicro (ph : DecPhase) : decode (.micro (decMicro ph)) = .ok (decOp ph) := by
  cases ph <;> simp [decode, decodeMicro, decMicro, decOp]

theorem decode_encMicro (ph : EncPhase) : decode (.micro (encMicro ph)) = .ok (encOp ph) := by
  cases ph <;> simp [decode, decodeMicro, encMicro, encOp]

theorem decOp_isRead (ph : DecPhase) : isRead (decOp ph) = true := by cases ph <;> rfl
theorem encOp_isWrite (ph : EncPhase) : isWrite (encOp ph) = true := by cases ph <;> rfl

/-! ## The list of requests -/

/-- The state with another list of requests. -/
def State.withInbox (l : List Request) (s : State) : State := { s with inbox := l }

theorem onDecoder_inbox (f : Memory → Binding → Response × Binding) (l : List Request) (s : State) :
    onDecoder f (s.withInbox l) = onNext (State.withInbox l) (onDecoder f s) := by
  simp only [onDecoder, State.withInbox]
  split
  · rfl
  · split <;> next h => simp [h, onNext, State.withInbox]

theorem onEncoder_inbox (f : Memory → Binding → Response × Memory × Option Binding) (l : List Request) (s : State) :
    onEncoder f (s.withInbox l) = onNext (State.withInbox l) (onEncoder f s) := by
  simp only [onEncoder, State.withInbox]
  split <;> rfl

/-- What an instruction does does not depend on what is requested after it. -/
theorem exec_inbox (i : Instr) (l : List Request) (s : State) :
    exec i (s.withInbox l) = onNext (State.withInbox l) (exec i s) := by
  cases i with
  | decNew buf off =>
    simp only [exec, execDecNew, State.withInbox]
    split
    · rfl
    · split <;> next h => simp [h, onNext, State.withInbox]
  | encNew buf off => simp only [exec, execEncNew, State.withInbox]; split <;> rfl
  | encClose => simp only [exec, execEncClose, onEncoder_inbox]
  | encPutBit b => simp only [exec, execEncPutBit, onEncoder_inbox]
  | encPutUnsigned v => simp only [exec, execEncPutUnsigned, onEncoder_inbox]
  | decNextBit => simp only [exec, execDecNextBit, onDecoder_inbox]
  | decNextUnsigned => simp only [exec, execDecNextUnsigned, onDecoder_inbox]
  | decNextSigned => simp only [exec, execDecNextSigned, onDecoder_inbox]
  | decSkipNext => simp only [exec, execDecSkipNext, onDecoder_inbox]
  | rcNextBit =>
    simp only [exec, execRcNextBit, onReadCursor, onDecoder_inbox]
    simp only [State.withInbox]; split <;> rfl
  | rcSkipBits n =>
    simp only [exec, execRcSkipBits, onReadCursor, onDecoder_inbox]
    simp only [State.withInbox]; split <;> rfl
  | wcPutBit b =>
    simp only [exec, execWcPutBit, onWriteCursor, onEncoder_inbox]
    simp only [State.withInbox]; split <;> rfl
  | wcPutZeros n =>
    simp only [exec, execWcPutZeros, onWriteCursor, onEncoder_inbox]
    simp only [State.withInbox]; split <;> rfl
  | wcPutBits src start =>
    simp only [exec, execWcPutBits, onWriteCursor, onEncoder_inbox]
    simp only [State.withInbox]; split <;> rfl

/-! ## Issuing -/

@[simp] theorem onNext_next (f : State → State) (t : State) : onNext f (.next t) = .next (f t) := rfl
@[simp] theorem onNext_fault (f : State → State) (e : Fault) : onNext f (.fault e) = .fault e := rfl
@[simp] theorem onNext_refused (f : State → State) (e : Refusal) : onNext f (.refused e) = .refused e := rfl

theorem serveMicro_dec (ph : DecPhase) (s : State) : serveMicro (decMicro ph) s = exec (decOp ph) s := by
  rw [serveMicro, decode_decMicro]

theorem serveMicro_enc (ph : EncPhase) (s : State) : serveMicro (encMicro ph) s = exec (encOp ph) s := by
  rw [serveMicro, decode_encMicro]

/-- Everything the Decoder's turn can do: nothing, or one cursor operation and what the Decoder makes of its answer. -/
theorem issue_dec_did {s t : State} (h : issue .dec s = .next t) :
    (s.decCmd = none ∧ t = s) ∨
    ∃ ph t', s.decCmd = some ph ∧ exec (decOp ph) s = .next t' ∧ t = settleDec (advanceDec ph t'.answered) s.resp t' := by
  simp only [issue] at h
  cases hc : s.decCmd with
  | none => rw [hc] at h; exact .inl ⟨rfl, (Host.Outcome.next.inj h).symm⟩
  | some ph =>
    rw [hc] at h
    simp only [serveMicro_dec] at h
    cases he : exec (decOp ph) s with
    | next t' => rw [he] at h; exact .inr ⟨ph, t', rfl, he, (Host.Outcome.next.inj h).symm⟩
    | fault e => rw [he] at h; simp at h
    | refused e => rw [he] at h; simp at h

/-- Everything the Encoder's turn can do. -/
theorem issue_enc_did {s t : State} (h : issue .enc s = .next t) :
    (s.encCmd = none ∧ t = s) ∨
    ∃ ph t', s.encCmd = some ph ∧ exec (encOp ph) s = .next t' ∧ t = settleEnc (advanceEnc ph t'.answered) s.resp t' := by
  simp only [issue] at h
  cases hc : s.encCmd with
  | none => rw [hc] at h; exact .inl ⟨rfl, (Host.Outcome.next.inj h).symm⟩
  | some ph =>
    rw [hc] at h
    simp only [serveMicro_enc] at h
    cases he : exec (encOp ph) s with
    | next t' => rw [he] at h; exact .inr ⟨ph, t', rfl, he, (Host.Outcome.next.inj h).symm⟩
    | fault e => rw [he] at h; simp at h
    | refused e => rw [he] at h; simp at h

/-- The Decoder's turn on a bound Decoder whose buffer is its own. -/
theorem issue_dec_bound {s : State} {ph : DecPhase} {u : Binding} (hc : s.decCmd = some ph) (h : s.dec = some u)
    (ht : s.decTaken = false) :
    issue .dec s = .next (settleDec (advanceDec ph (readFn (decOp ph) s.mem u).1) s.resp
      { s with dec := some (readFn (decOp ph) s.mem u).2, resp := some (readFn (decOp ph) s.mem u).1 }) := by
  simp only [issue, hc, serveMicro_dec, exec_read (decOp_isRead ph) h ht, onNext_next, State.answered, Option.getD_some]

/-- The Encoder's turn on a bound Encoder. -/
theorem issue_enc_bound {s : State} {ph : EncPhase} {u : Binding} (hc : s.encCmd = some ph) (h : s.enc = some u) :
    issue .enc s = .next (settleEnc
      (advanceEnc ph ((putRun (runOf (encOp ph)) s.mem u).1.respond (fun _ => .empty))) s.resp
      { s with
        enc := some (putRun (runOf (encOp ph)) s.mem u).2.2
        mem := (putRun (runOf (encOp ph)) s.mem u).2.1
        resp := some ((putRun (runOf (encOp ph)) s.mem u).1.respond (fun _ => .empty)) }) := by
  simp only [issue, hc, serveMicro_enc, exec_write (encOp_isWrite ph) h, onNext_next, State.answered, Option.getD_some]

/-- A turn leaves the list of requests alone. -/
theorem issue_inbox {side : Side} {s t : State} (h : issue side s = .next t) : t.inbox = s.inbox := by
  cases side with
  | dec =>
    rcases issue_dec_did h with ⟨-, rfl⟩ | ⟨ph, t', -, he, rfl⟩
    · rfl
    · simpa using (exec_host_frame he).1
  | enc =>
    rcases issue_enc_did h with ⟨-, rfl⟩ | ⟨ph, t', -, he, rfl⟩
    · rfl
    · simpa using (exec_host_frame he).1

/-! ## Taking up -/

/-- Everything taking up a host command can do: the whole of it (NEW, CLOSE, and a read or write that its unit cannot run), or its
first phase in a bound unit. -/
theorem takeUp_did {i : Instr} {s t : State} (hi : isReadCursorOp i = false ∧ isWriteCursorOp i = false)
    (h : takeUp i s = .next t) :
    exec i s = .next t ∨
    (∃ ph, isDecRead i = true ∧ s.dec.isSome = true ∧ s.decTaken = false ∧ ph.ok = true ∧ t = s.setDecCmd ph) ∨
    (∃ ph, isEncWrite i = true ∧ s.enc.isSome = true ∧ ph.ok = true ∧ t = s.setEncCmd ph) := by
  have hd : ∀ ph, isDecRead i = true → ph.ok = true → beginDec i ph s = .next t → exec i s = .next t ∨
      ∃ ph, isDecRead i = true ∧ s.dec.isSome = true ∧ s.decTaken = false ∧ ph.ok = true ∧ t = s.setDecCmd ph := by
    intro ph h1 h2 h
    rw [beginDec] at h
    split at h
    · next hb =>
      simp at hb
      exact .inr ⟨ph, h1, hb.1, hb.2, h2, (Host.Outcome.next.inj h).symm⟩
    · exact .inl h
  have he : ∀ ph, isEncWrite i = true → ph.ok = true → beginEnc i ph s = .next t → exec i s = .next t ∨
      ∃ ph, isEncWrite i = true ∧ s.enc.isSome = true ∧ ph.ok = true ∧ t = s.setEncCmd ph := by
    intro ph h1 h2 h
    rw [beginEnc] at h
    split at h
    · next hb => exact .inr ⟨ph, h1, hb, h2, (Host.Outcome.next.inj h).symm⟩
    · exact .inl h
  cases i with
  | decNew buf off => exact .inl h
  | encNew buf off => exact .inl h
  | encClose => exact .inl h
  | decNextBit => exact (hd _ rfl rfl h).imp id .inl
  | decNextUnsigned => exact (hd _ rfl rfl h).imp id .inl
  | decNextSigned => exact (hd _ rfl rfl h).imp id .inl
  | decSkipNext => exact (hd _ rfl rfl h).imp id .inl
  | encPutBit b => exact (he _ rfl rfl h).imp id .inr
  | encPutUnsigned v =>
    refine (he _ rfl ?_ h).imp id .inr
    have := zeroRunOf_le v
    simp only [firstZeros, EncPhase.ok, image65, List.length_drop, List.length_map, List.length_range, decide_eq_true_eq]
    omega
  | rcNextBit => simp [isReadCursorOp] at hi
  | rcSkipBits n => simp [isReadCursorOp] at hi
  | wcPutBit b => simp [isWriteCursorOp] at hi
  | wcPutZeros n => simp [isWriteCursorOp] at hi
  | wcPutBits src start => simp [isWriteCursorOp] at hi

/-! ## Steps -/

/-- Everything a step that has a next state can have done. -/
inductive Stepped (s : State) : State → Prop where
  /-- A host command ran as one transaction. -/
  | ran (c : HostCommand) (i : Instr) (rest : List Request) (t : State) (hr : s.inbox = .command c :: rest)
      (hi : decode (.command c) = .ok i) (hb : s.busy (sideOf i) = false)
      (he : exec i { s with inbox := rest } = .next t) : Stepped s t
  /-- A unit took a host command up. -/
  | tookUp (c : HostCommand) (i : Instr) (rest : List Request) (t : State) (hr : s.inbox = .start c :: rest)
      (hi : decode (.command c) = .ok i) (hb : s.busy (sideOf i) = false)
      (he : takeUp i { s with inbox := rest } = .next t) : Stepped s t
  /-- A code that names no host command. -/
  | illegal (c : HostCommand) (rest : List Request) (hr : s.inbox = .command c :: rest ∨ s.inbox = .start c :: rest) :
      Stepped s { s with inbox := rest, resp := some (.fail .illegal) }
  /-- A unit's turn; `l` is what is left of the list of requests. -/
  | issued (side : Side) (l : List Request) (t : State) (he : issue side { s with inbox := l } = .next t) : Stepped s t
  /-- A reset. -/
  | reset (bs : List Bit) (r : Request) (rest : List Request) (hr : s.inbox = r :: rest)
      (hk : r = .reset ∨ ∃ c, r = .resetDuring c) : Stepped s (resetDuringRun bs { s with inbox := rest })
  /-- A store of the host. -/
  | stored (a : Nat) (v : Byte) (rest : List Request) (hr : s.inbox = .hostStore a v :: rest)
      (hh : heldAt s.enc a = false) :
      Stepped s { s with inbox := rest, mem := s.mem.write a v, decTaken := s.decTaken || heldAt s.dec a }

/-- A request whose unit is not busy is served. -/
theorem waitsFor_none {r : Request} {s : State} (h : waitsFor r s = none) {c : HostCommand} (hr : r.hostCommand? = some c)
    {i : Instr} (hi : decode (.command c) = .ok i) : s.busy (sideOf i) = false := by
  simp only [waitsFor, hr, hi] at h
  cases hb : s.busy (sideOf i) with
  | false => rfl
  | true => simp [hb] at h

/-- The inversion lemma of `step`. -/
theorem step_did {s t : State} (h : step s = .next t) : Stepped s t := by
  simp only [step, takeRequest] at h
  split at h
  · next hin =>
    have e : ({ s with inbox := [] } : State) = s := by rw [← hin]
    rw [proceed] at h
    split at h
    · exact .issued .dec [] t (by rw [e]; exact h)
    · exact .issued .enc [] t (by rw [e]; exact h)
  · next r rest hin =>
    split at h
    · next side _ => exact .issued side s.inbox t h
    · next hw =>
      cases r with
      | command c =>
        simp only [serve, serveHost] at h
        split at h
        · next i hi => exact .ran c i rest t hin hi (waitsFor_none hw rfl hi) h
        · obtain rfl := Host.Outcome.next.inj h; exact .illegal c rest (.inl hin)
      | start c =>
        simp only [serve, serveHost] at h
        split at h
        · next i hi => exact .tookUp c i rest t hin hi (waitsFor_none hw rfl hi) h
        · obtain rfl := Host.Outcome.next.inj h; exact .illegal c rest (.inr hin)
      | issue side => exact .issued side rest t h
      | reset => obtain rfl := Host.Outcome.next.inj h; exact .reset _ _ rest hin (.inl rfl)
      | resetDuring c => obtain rfl := Host.Outcome.next.inj h; exact .reset _ _ rest hin (.inr ⟨c, rfl⟩)
      | hostStore a v =>
        simp only [serve, hostStore] at h
        split at h
        · simp at h
        · next hh =>
          obtain rfl := Host.Outcome.next.inj h
          exact .stored a v rest hin (by simpa using hh)

/-! ## Operands of a phase -/

theorem valueOf_zero (suffix : Nat) : valueOf 0 suffix = .ok (BitVec.ofNat 64 suffix) := by simp [valueOf]

/-- A Decoder that goes on goes on in a phase whose working registers are in their ranges (R29). -/
theorem advanceDec_ok {ph ph' : DecPhase} {r : Response} (h : ph.ok = true) (ha : advanceDec ph r = .goOn ph') :
    ph'.ok = true := by
  cases r with
  | fail e => simp [advanceDec] at ha
  | ok p =>
    cases ph with
    | bit => simp [advanceDec] at ha
    | skip k => simp [advanceDec] at ha
    | count k g =>
      simp only [DecPhase.ok, decide_eq_true_eq] at h
      simp only [advanceDec] at ha
      split at ha
      · cases g with
        | skip => simp only [afterPrefix, Advance.goOn.injEq] at ha; subst ha; simpa [DecPhase.ok] using h
        | value signed =>
          simp only [afterPrefix] at ha
          split at ha
          · simp at ha
          · simp only [Advance.goOn.injEq] at ha; subst ha; simp [DecPhase.ok]; omega
      · split at ha
        · simp at ha
        · next hk =>
          simp only [Advance.goOn.injEq] at ha; subst ha
          simp only [Config.kMax] at hk
          simp [DecPhase.ok]; omega
    | suffix k left read signed =>
      simp only [DecPhase.ok, decide_eq_true_eq] at h
      simp only [advanceDec] at ha
      split at ha
      · simp at ha
      · simp only [Advance.goOn.injEq] at ha
        subst ha
        simp only [DecPhase.ok, decide_eq_true_eq]
        have hp : 2 ^ (k - (left - 1)) = 2 ^ (k - left) * 2 := by
          rw [show k - (left - 1) = (k - left) + 1 by omega, Nat.pow_succ]
        have hb : p.toBit.toNat ≤ 1 := by cases p.toBit <;> simp
        omega

/-- An Encoder that goes on issues operands in the ranges of R63. -/
theorem advanceEnc_ok {ph ph' : EncPhase} {r : Response} (h : ph.ok = true) (ha : advanceEnc ph r = .goOn ph') :
    ph'.ok = true := by
  cases r with
  | fail e => simp [advanceEnc] at ha
  | ok p =>
    cases ph with
    | bit b => simp [advanceEnc] at ha
    | bits src start => simp [advanceEnc] at ha
    | zeros n src start =>
      simp only [advanceEnc, Advance.goOn.injEq] at ha
      subst ha
      simp only [EncPhase.ok, decide_eq_true_eq] at h ⊢
      exact h.2

end Sys2Proof.Machine
end

