-- ==== Sys2Proof/Tests/Slice0.lean ====
section
/-!
SUPPORT. Tests: what the checks refuse, words written out from the opcode map, the spec's vectors (95_test_vectors), and for each
statement with hypotheses a state and operands that meet them.
-/

namespace Sys2Proof.Tests

open Sys2Proof.Machine

/-! ## Small states -/

/-- A memory with bytes from an address on, in canonical form. -/
def bytesAt (base : Nat) (bs : List Byte) : Memory :=
  bs.zipIdx.filterMap (fun c => if c.1 = Memory.blank then none else some (base + c.2, c.1))

/-- A Decoder bound to bytes at address 16. -/
def reading (bs : List Byte) (byte : Nat) (bit : BitOffset) : State :=
  { State.reset with mem := bytesAt 16 bs, dec := some ⟨16, bs.length, byte, bit⟩ }

/-- An Encoder bound to bytes at address 64. -/
def writing (bs : List Byte) (byte : Nat) (bit : BitOffset) : State :=
  { State.reset with mem := bytesAt 64 bs, enc := some ⟨64, bs.length, byte, bit⟩ }

/-- Both units bound, to one byte each. -/
def both : State :=
  { State.reset with mem := [(16, 0x80), (64, 0xE0)], dec := some ⟨16, 1, 0, 0⟩, enc := some ⟨64, 1, 0, 3⟩ }

/-- The response and the Decoder's cursor after a step. -/
def decView (o : Host.Outcome State Fault Refusal) : Option (Option Response × Option (Nat × BitOffset)) :=
  match o with
  | .next t => some (t.resp, t.dec.map (fun u => (u.byte, u.bit)))
  | .fault _ => none
  | .refused _ => none

/-- The response, the Encoder's cursor and memory after a step. -/
def encView (o : Host.Outcome State Fault Refusal) : Option (Option Response × Option (Nat × BitOffset) × Memory) :=
  match o with
  | .next t => some (t.resp, t.enc.map (fun u => (u.byte, u.bit)), t.mem)
  | .fault _ => none
  | .refused _ => none

/-! ## What the well-formedness checks refuse -/

theorem test_wf_decNew_length : (Instr.decNew ⟨0, 2 ^ 64⟩ 0).wellFormed = false := by decide
theorem test_wf_encNew_length : (Instr.encNew ⟨0, 2 ^ 64⟩ 0).wellFormed = false := by decide
theorem test_wf_rcSkipBits_count : (Instr.rcSkipBits 128).wellFormed = false := by decide
theorem test_wf_wcPutZeros_count : (Instr.wcPutZeros 128).wellFormed = false := by decide

/-! ## Every row of the opcode map, its op byte written out from R61 and R62 -/

theorem test_decode_decNew : decode (.command ⟨0b00_000_000, 7, 16, 4⟩) = .ok (.decNew ⟨16, 4⟩ 7) := rfl
theorem test_decode_decNextBit : decode (.command ⟨0b00_000_001, 0, 0, 0⟩) = .ok .decNextBit := rfl
theorem test_decode_decNextUnsigned : decode (.command ⟨0b00_000_010, 0, 0, 0⟩) = .ok .decNextUnsigned := rfl
theorem test_decode_decNextSigned : decode (.command ⟨0b00_000_011, 0, 0, 0⟩) = .ok .decNextSigned := rfl
theorem test_decode_decSkipNext : decode (.command ⟨0b00_000_100, 0, 0, 0⟩) = .ok .decSkipNext := rfl
theorem test_decode_encNew : decode (.command ⟨0b01_000_000, 3, 64, 1⟩) = .ok (.encNew ⟨64, 1⟩ 3) := rfl
/-- R68, vector E2: `enc.bit 2` writes `arg[0] = 0`. -/
theorem test_decode_encPutBit : decode (.command ⟨0b01_000_001, 2, 0, 0⟩) = .ok (.encPutBit false) := rfl
theorem test_decode_encPutUnsigned : decode (.command ⟨0b01_000_010, 0xE, 0, 0⟩) = .ok (.encPutUnsigned 14) := rfl
theorem test_decode_encClose : decode (.command ⟨0b01_000_011, 0, 0, 0⟩) = .ok .encClose := rfl
theorem test_decode_rcNextBit : decode (.micro ⟨0b10_000_000, 0, false, [], 0⟩) = .ok .rcNextBit := rfl
theorem test_decode_rcSkipBits : decode (.micro ⟨0b10_000_001, 64, false, [], 0⟩) = .ok (.rcSkipBits 64) := rfl
theorem test_decode_wcPutBit : decode (.micro ⟨0b11_000_000, 0, true, [], 0⟩) = .ok (.wcPutBit true) := rfl
theorem test_decode_wcPutZeros : decode (.micro ⟨0b11_000_001, 64, false, [], 0⟩) = .ok (.wcPutZeros 64) := rfl
theorem test_decode_wcPutBits : decode (.micro ⟨0b11_000_010, 0, false, [0x06], 5⟩) = .ok (.wcPutBits [0x06] 5) := rfl

/-- Vector D15: codes the host may not send, rejected by name. -/
theorem test_decode_unassigned : decode (.command ⟨0x05, 0, 0, 0⟩) = .error (.unassigned 0x05) := rfl
theorem test_decode_unassigned_top : decode (.command ⟨0xFF, 0, 0, 0⟩) = .error (.unassigned 0xFF) := rfl
theorem test_decode_internal : decode (.command ⟨0xC2, 0, 0, 0⟩) = .error (.internalFromHost 0xC2) := rfl
theorem test_decode_notMicro : decode (.micro ⟨0x00, 0, false, [], 0⟩) = .error (.notAMicroOp 0x00) := rfl
/-- The decoder is total on all 256 codes of either port, and takes nine of the host's and five internal ones (R62, R67). -/
theorem test_codes_host : ((List.range 256).filter (fun n =>
    (decodeCommand ⟨BitVec.ofNat 8 n, 0, 0, 0⟩).toOption.isSome)) = [0, 1, 2, 3, 4, 64, 65, 66, 67] := by decide
theorem test_codes_micro : ((List.range 256).filter (fun n =>
    (decodeMicro ⟨BitVec.ofNat 8 n, 0, false, [], 0⟩).toOption.isSome)) = [128, 129, 192, 193, 194] := by decide

/-! ## Vectors of the spec (95_test_vectors) -/

/-- C1, call 8: the last bit is still delivered. -/
theorem test_rcNextBit_last : decView (exec .rcNextBit (reading [0xA5] 0 7)) = some (some (.ok (.bit true)), some (1, 0)) := by decide
/-- C1, call 9. -/
theorem test_rcNextBit_end : decView (exec .rcNextBit (reading [0xA5] 1 0)) = some (some (.fail .endOfStream), some (1, 0)) := by decide
/-- C3: an overshooting skip is clamped. -/
theorem test_rcSkipBits_clamped : decView (exec (.rcSkipBits 5) (reading [0, 0, 0, 0] 3 6)) = some (some (.ok .empty), some (4, 0)) := by decide
theorem test_rcSkipBits_inside : decView (exec (.rcSkipBits 17) (reading [0, 0, 0, 0] 1 2)) = some (some (.ok .empty), some (3, 3)) := by decide
/-- D16: bits above bit 2 of the offset are significant. -/
theorem test_decNew_wideOffset : decView (exec (.decNew ⟨16, 1⟩ 0x0000000100000000) State.reset) = some (some (.fail .invalidArgument), none) := by decide
/-- D17: a successful NEW replaces the binding. -/
theorem test_decNew_rebinds : decView (exec (.decNew ⟨16, 1⟩ 7) (reading [0xA6, 0x42] 1 3)) = some (some (.ok .empty), some (0, 7)) := by decide
/-- D3: a raw bit. -/
theorem test_decNextBit : decView (exec .decNextBit (reading [0x00, 0x07, 0xFC] 2 7)) = some (some (.ok (.data 0)), some (3, 0)) := by decide
/-- D15: unbound. -/
theorem test_decNextBit_illegal : decView (exec .decNextBit State.reset) = some (some (.fail .illegal), none) := by decide
/-- D3: a codeword across two byte boundaries. -/
theorem test_decNextUnsigned_510 : decView (exec .decNextUnsigned (reading [0x00, 0x07, 0xFC] 0 5)) = some (some (.ok (.data 510)), some (2, 6)) := by decide
/-- D5: the suffix does not fit. -/
theorem test_decNextUnsigned_short : decView (exec .decNextUnsigned (reading [0x08] 0 0)) = some (some (.fail .endOfStream), some (1, 0)) := by decide
/-- D11: `u = 2` is −1. -/
theorem test_decNextSigned_minusOne : decView (exec .decNextSigned (reading [0x60] 0 0)) = some (some (.ok (.data 0xFFFFFFFFFFFFFFFF)), some (0, 3)) := by decide
/-- D13: `U2S(2^64 − 3) = 2^63 − 1`. -/
theorem test_u2s_large : u2s 0xFFFFFFFFFFFFFFFD = 0x7FFFFFFFFFFFFFFF := by decide
/-- D5: the skip of a truncated codeword clamps and answers Ok. -/
theorem test_decSkipNext_clamped : decView (exec .decSkipNext (reading [0x08] 0 0)) = some (some (.ok .empty), some (1, 0)) := by decide
/-- D14: the codeword of 0 skipped. -/
theorem test_decSkipNext_short : decView (exec .decSkipNext (reading [0xB4, 0xC0] 0 5)) = some (some (.ok .empty), some (0, 6)) := by decide
/-- E12. -/
theorem test_encNew_empty : encView (exec (.encNew ⟨64, 0⟩ 0) State.reset) = some (some (.fail .invalidArgument), none, []) := by decide
theorem test_encNew : encView (exec (.encNew ⟨64, 1⟩ 7) State.reset) = some (some (.ok .empty), some (0, 7), []) := by decide
/-- E7: OR-ed in. -/
theorem test_encPutBit : encView (exec (.encPutBit true) (writing [0x80] 0 1)) = some (some (.ok .empty), some (0, 2), [(64, 0xC0)]) := by decide
/-- E4: Full on an exhausted cursor, even for a 0. -/
theorem test_encPutBit_full : encView (exec (.encPutBit false) (writing [0x08] 1 0)) = some (some (.fail .full), some (1, 0), [(64, 0x08)]) := by decide
/-- E5: value 5 at offset 5. -/
theorem test_encPutUnsigned_5 : encView (exec (.encPutUnsigned 5) (writing [0, 0] 0 5)) = some (some (.ok .empty), some (1, 2), [(64, 0x01), (65, 0x80)]) := by decide
/-- E3: Full in the middle of the run, not rolled back. -/
theorem test_encPutUnsigned_full : encView (exec (.encPutUnsigned 30) (writing [0] 0 0)) = some (some (.fail .full), some (1, 0), [(64, 0x0F)]) := by decide
/-- E8: nothing written, the position is the start. -/
theorem test_encClose : encView (exec .encClose (writing [0] 0 4)) = some (some (.ok (.position 0 4)), none, []) := by decide
theorem test_encClose_twice : encView (exec .encClose State.reset) = some (some (.fail .illegal), none, []) := by decide
/-- W1. -/
theorem test_wcPutBit_last : encView (exec (.wcPutBit true) (writing [0x00] 0 7)) = some (some (.ok .empty), some (1, 0), [(64, 0x01)]) := by decide
theorem test_wcPutBit_zero : encView (exec (.wcPutBit false) (writing [0x80] 0 0)) = some (some (.ok .empty), some (0, 1), [(64, 0x80)]) := by decide
/-- W2: an exact fit, and one too many. -/
theorem test_wcPutZeros_exact : encView (exec (.wcPutZeros 2) (writing [0] 0 6)) = some (some (.ok .empty), some (1, 0), []) := by decide
theorem test_wcPutZeros_full : encView (exec (.wcPutZeros 3) (writing [0] 0 6)) = some (some (.fail .full), some (1, 0), []) := by decide
/-- W3. -/
theorem test_wcPutBits : encView (exec (.wcPutBits [0x01, 0x80] 7) (writing [0, 0] 0 0)) = some (some (.ok .empty), some (1, 1), [(64, 0xC0)]) := by decide
theorem test_wcPutBits_full : encView (exec (.wcPutBits [0xFF] 4) (writing [0] 0 6)) = some (some (.fail .full), some (1, 0), [(64, 0x03)]) := by decide
/-- E11. -/
theorem test_s2u : s2u (-1) = 2 ∧ s2u 2 = 3 ∧ s2u 0x7FFFFFFFFFFFFFFF = 0xFFFFFFFFFFFFFFFD ∧ s2u 0x8000000000000000 = 0xFFFFFFFFFFFFFFFF := by decide
/-- W4: the operands of the 64-bit form for value 5. -/
theorem test_clz64 : clz64 6 = 61 ∧ clz64 0 = 64 ∧ (be8 6).drop 7 = [0x06] := by decide
/-- W4: the operands of the 65-bit form for values 5 and 2^64 − 1. -/
theorem test_image65 : (image65 6).drop 8 = [0x06] ∧ image65 (2 ^ 64) = [0x01, 0, 0, 0, 0, 0, 0, 0, 0] := by decide
/-- P2: the response of command 11 is `(status, pos_byte, pos_bit) = (0, 5, 1)`. -/
theorem test_responseRecord : responseRecord (.ok (.position 5 1)) = ⟨0, 0, 5, 1⟩ := rfl

/-! ## For each statement with hypotheses, a state and operands that meet them, at the ends of their ranges -/

theorem witness_DecodeOfEncodeIsTheInstruction :
    (Instr.decNew ⟨2 ^ 70, 2 ^ 64 - 1⟩ (BitVec.allOnes 64)).wellFormed = true ∧ (Instr.rcSkipBits 127).wellFormed = true ∧
      (Instr.wcPutBits [] 1000).wellFormed = true := by decide

theorem witness_DecodedCodesHaveOneMeaning :
    decode (.command ⟨0x43, BitVec.allOnes 64, 9, 9⟩) = .ok .encClose ∧
      decode (.micro ⟨0x81, 127, true, [1], 3⟩) = .ok (.rcSkipBits 127) := ⟨rfl, rfl⟩

/-- The codes next to the nine, and the nine's ends. -/
theorem witness_HostCodesOutsideTheNineAreIllegal :
    (∀ op ∈ [0x05#8, 0x3F#8, 0x44#8, 0x80#8, 0xFF#8], ¬ (op ≤ 0x04#8 ∨ (0x40#8 ≤ op ∧ op ≤ 0x43#8))) ∧
    (∀ op ∈ [0x00#8, 0x04#8, 0x40#8, 0x43#8], op ≤ 0x04#8 ∨ (0x40#8 ≤ op ∧ op ≤ 0x43#8)) ∧
    { State.reset with inbox := [.command ⟨0x05, 0, 0, 0⟩] }.inbox = .command ⟨0x05, 0, 0, 0⟩ :: [] ∧
    { State.reset with inbox := [.start ⟨0xC2, 0, 0, 0⟩] }.inbox = .start ⟨0xC2, 0, 0, 0⟩ :: [] ∧
    State.reset.decCmd = none ∧ State.reset.encCmd = none := by
  refine ⟨by decide, by decide, rfl, rfl, rfl, rfl⟩

theorem witness_UnusedOperandBitsAreIgnored :
    (∀ op ∈ [0x01#8, 0x04#8, 0x43#8, 0x44#8], op ≠ 0x00#8 ∧ op ≠ 0x40#8 ∧ op ≠ 0x41#8 ∧ op ≠ 0x42#8) ∧
    (3#64).getLsbD 0 = (1#64).getLsbD 0 ∧ (2#64).getLsbD 0 = (0#64).getLsbD 0 ∧
    7 < (8#64).toNat ∧ 7 < (0x0000000100000000#64).toNat := by decide

theorem witness_CodewordOfAValueIsUnique :
    (0 < 2 ^ 0 ∧ 2 ^ 0 - 1 + 0 = (0#64).toNat) ∧ (255 < 2 ^ 8 ∧ 2 ^ 8 - 1 + 255 = (510#64).toNat) ∧
    (0 < 2 ^ 64 ∧ 2 ^ 64 - 1 + 0 = (BitVec.allOnes 64).toNat) := by decide

theorem witness_CodewordsAreSelfDelimiting : codeword 5 ++ [true] = codeword 5 ++ [true] := rfl

/-- The Decoder about to skip, the Encoder about to write zeros. -/
def skipping : State := { both with decCmd := some (.skip 64) }
def zeroing : State := { both with encCmd := some (.zeros 64 [1] 7) }

/-- A host command to an idle unit; one to a busy unit; for the turn of each unit, a state in which its operation has a next state
and one in which it is refused; a code of the busy unit's port that names no command. -/
theorem witness_StepRunsTheDecodedInstruction :
    ({ both with inbox := [.command ⟨0x01, 5, 0, 0⟩, .reset] }.inbox = .command ⟨0x01, 5, 0, 0⟩ :: [.reset] ∧
      decode (.command ⟨0x01, 5, 0, 0⟩) = .ok .decNextBit ∧ both.busy (sideOf .decNextBit) = false) ∧
    ({ zeroing with inbox := [.start ⟨0x43, 0, 0, 0⟩] }.inbox = .start ⟨0x43, 0, 0, 0⟩ :: [] ∧
      decode (.command ⟨0x43, 0, 0, 0⟩) = .ok .encClose ∧ zeroing.busy (sideOf .encClose) = true) ∧
    ({ skipping with inbox := [.issue .dec] }.inbox = .issue .dec :: [] ∧ skipping.decCmd = some (.skip 64) ∧
      decode (.micro (decMicro (.skip 64))) = .ok (.rcSkipBits 64) ∧
      (∃ t, exec (.rcSkipBits 64) { skipping with inbox := [] } = .next t) ∧
      exec (.rcSkipBits 64) { skipping with decTaken := true, inbox := [] } = .refused .bufferTakenBack) ∧
    ({ zeroing with inbox := [.issue .enc] }.inbox = .issue .enc :: [] ∧ zeroing.encCmd = some (.zeros 64 [1] 7) ∧
      decode (.micro (encMicro (.zeros 64 [1] 7))) = .ok (.wcPutZeros 64) ∧
      (∃ t, exec (.wcPutZeros 64) { zeroing with inbox := [] } = .next t) ∧
      exec (.wcPutZeros 64) { zeroing with enc := none, inbox := [] } = .refused (.cursorUnbound "WC.PUT_ZEROS")) ∧
    ({ skipping with inbox := [.command ⟨0x05, 0, 0, 0⟩] }.inbox = .command ⟨0x05, 0, 0, 0⟩ :: [] ∧
      { zeroing with inbox := [.start ⟨0x44, 0, 0, 0⟩] }.inbox = .start ⟨0x44, 0, 0, 0⟩ :: [] ∧
      ∀ op ∈ [0x05#8, 0x44#8], ¬ (op ≤ 0x04#8 ∨ (0x40#8 ≤ op ∧ op ≤ 0x43#8))) :=
  ⟨⟨rfl, rfl, rfl⟩, ⟨rfl, rfl, rfl⟩, ⟨rfl, rfl, rfl, ⟨_, rfl⟩, rfl⟩, ⟨rfl, rfl, rfl, ⟨_, rfl⟩, rfl⟩, rfl, rfl, by decide⟩

theorem witness_StepWaitsForARequest :
    (both.inbox = [] ∧ both.decCmd = none ∧ both.encCmd = none) ∧ (skipping.inbox = [] ∧ skipping.decCmd ≠ none) ∧
    (zeroing.inbox = [] ∧ zeroing.decCmd = none ∧ zeroing.encCmd ≠ none) :=
  ⟨⟨rfl, rfl, rfl⟩, ⟨rfl, by decide⟩, rfl, rfl, by decide⟩

theorem witness_ResetUnbindsBothUnits : { both with inbox := [.reset] }.inbox = .reset :: [] ∧ both.encCmd = none := ⟨rfl, rfl⟩

/-- For a command issued with the reset: no Encoder, a command that writes nothing, and the two that write. For a command in progress:
a reset alone, and one during a command of the other unit. -/
theorem witness_ResetDuringACommandKeepsAnInitialPart :
    ({ both with inbox := [.resetDuring ⟨0x42, 5, 0, 0⟩] }.inbox = .resetDuring ⟨0x42, 5, 0, 0⟩ :: [] ∧
      (∀ i, decode (.command ⟨0x42, 5, 0, 0⟩) = .ok i → both.busy (sideOf i) = false) ∧ State.reset.enc = none ∧
      both.encCmd = none ∧ (∀ i, decode (.command ⟨0x43, 0, 0, 0⟩) = .ok i → isEncWrite i = false) ∧
      both.enc = some ⟨64, 1, 0, 3⟩ ∧
      (decode (.command ⟨0x42, 5, 0, 0⟩) = .ok (.encPutUnsigned 5) ∧ isEncWrite (.encPutUnsigned 5) = true) ∧
      (decode (.command ⟨0x41, 1, 0, 0⟩) = .ok (.encPutBit true) ∧ isEncWrite (.encPutBit true) = true)) ∧
    ({ both with encCmd := some (.bits [6] 5), inbox := [.reset] }.inbox = .reset :: [] ∧
      { both with encCmd := some (.bits [6] 5) }.encCmd = some (.bits [6] 5) ∧
      (∀ i, decode (.command ⟨0x02, 0, 0, 0⟩) = .ok i →
        sideOf i = .dec ∧ { both with encCmd := some (.bits [6] 5) }.decCmd = none)) := by
  refine ⟨⟨rfl, fun i h => ?_, rfl, rfl, fun i h => ?_, rfl, ⟨rfl, rfl⟩, ⟨rfl, rfl⟩⟩, rfl, rfl, fun i h => ?_⟩
  · obtain rfl : Instr.encPutUnsigned 5 = i := Except.ok.inj h
    rfl
  · obtain rfl : Instr.encClose = i := Except.ok.inj h
    rfl
  · obtain rfl : Instr.decNextUnsigned = i := Except.ok.inj h
    exact ⟨rfl, rfl⟩

theorem both_inv : both.Inv := by decide

theorem witness_StepKeepsTheInvariant :
    ({ both with inbox := [.hostStore 16 1] }.Inv ∧ ∃ t, step { both with inbox := [.hostStore 16 1] } = .next t) ∧
    ({ both with decCmd := some (.suffix 64 1 (2 ^ 63 - 1) false) }.Inv ∧
      ∃ t, step { both with decCmd := some (.suffix 64 1 (2 ^ 63 - 1) false) } = .next t) :=
  ⟨⟨by decide, _, rfl⟩, by decide, _, rfl⟩

/-- A NEW of each unit, a CLOSE and a reset change a binding. -/
theorem witness_BindingsChangeOnlyByNewCloseAndReset :
    (∃ t, step { State.reset with inbox := [.command ⟨0x00, 0, 16, 1⟩] } = .next t ∧
      t.dec.map (fun u => (u.base, u.len)) ≠ State.reset.dec.map (fun u => (u.base, u.len))) ∧
    (∃ t, step { State.reset with inbox := [.command ⟨0x40, 0, 64, 1⟩] } = .next t ∧
      t.enc.map (fun u => (u.base, u.len)) ≠ State.reset.enc.map (fun u => (u.base, u.len))) ∧
    (∃ t, step { both with inbox := [.command ⟨0x43, 0, 0, 0⟩] } = .next t ∧
      t.enc.map (fun u => (u.base, u.len)) ≠ both.enc.map (fun u => (u.base, u.len))) ∧
    (∃ t, step { both with inbox := [.reset] } = .next t ∧
      t.dec.map (fun u => (u.base, u.len)) ≠ both.dec.map (fun u => (u.base, u.len))) :=
  ⟨⟨_, rfl, by decide⟩, ⟨_, rfl, by decide⟩, ⟨_, rfl, by decide⟩, ⟨_, rfl, by decide⟩⟩

/-- Each failure status is answered somewhere; Illegal on each unit. -/
theorem witness_CommandsAnswerOnlyTheirStatuses :
    (∃ t, exec .decNextBit (reading [0x01] 1 0) = .next t ∧ t.resp = some (.fail .endOfStream)) ∧
    (∃ t, exec (.encPutBit true) (writing [0x01] 1 0) = .next t ∧ t.resp = some (.fail .full)) ∧
    (∃ t, exec .decSkipNext State.reset = .next t ∧ t.resp = some (.fail .illegal)) ∧
    (∃ t, exec .encClose State.reset = .next t ∧ t.resp = some (.fail .illegal)) :=
  ⟨⟨_, rfl, rfl⟩, ⟨_, rfl, rfl⟩, ⟨_, rfl, rfl⟩, ⟨_, rfl, rfl⟩⟩

/-- D10: 64 zeros, a 1 and the suffix 1. -/
def overlong : List Byte := List.replicate 8 0 ++ 0x80 :: List.replicate 7 0 ++ [0x80]

/-- Each of the five clauses of the table of R111 is met; Overflow in both its rows (D7, D10), Full part way through a run (E3). -/
theorem witness_FailuresLeaveTheTablesState :
    State.reset.Inv ∧ (reading [0x01] 1 0).Inv ∧ (writing [0] 0 0).Inv ∧ (writing [0x01] 1 0).Inv ∧
    (reading [0, 0, 0, 0, 0, 0, 0, 0, 0] 0 0).Inv ∧ (reading overlong 0 0).Inv ∧
    (∃ t, exec .decNextBit State.reset = .next t ∧ t.resp = some (.fail .illegal)) ∧
    (∃ t, exec (.decNew ⟨16, 0⟩ 0) State.reset = .next t ∧ t.resp = some (.fail .invalidArgument)) ∧
    (∃ t, exec .decNextUnsigned (reading [0x01] 1 0) = .next t ∧ t.resp = some (.fail .endOfStream)) ∧
    (∃ t, exec .decSkipNext (reading [0, 0, 0, 0, 0, 0, 0, 0, 0] 0 0) = .next t ∧ t.resp = some (.fail .overflow)) ∧
    (∃ t, exec .decNextUnsigned (reading overlong 0 0) = .next t ∧ t.resp = some (.fail .overflow)) ∧
    (∃ t, exec (.encPutUnsigned 30) (writing [0] 0 0) = .next t ∧ t.resp = some (.fail .full)) ∧
    (∃ t, exec (.encPutBit true) (writing [0x01] 1 0) = .next t ∧ t.resp = some (.fail .full)) :=
  ⟨by decide, by decide, by decide, by decide, by decide, by decide, ⟨_, rfl, rfl⟩, ⟨_, rfl, rfl⟩, ⟨_, rfl, rfl⟩, ⟨_, rfl, rfl⟩,
    ⟨_, rfl, rfl⟩, ⟨_, rfl, rfl⟩, ⟨_, rfl, rfl⟩⟩

theorem witness_UnboundDecoderAnswersIllegal :
    isDecRead .decNextBit = true ∧ isDecRead .decSkipNext = true ∧ (writing [0] 0 0).dec = none := ⟨rfl, rfl, rfl⟩

theorem witness_UnboundEncoderAnswersIllegal :
    isEncWrite (.encPutUnsigned 0) = true ∧ (reading [0] 0 0).enc = none ∧ ∃ t, exec .encClose both = .next t :=
  ⟨rfl, rfl, _, rfl⟩

theorem witness_CursorOperationsNeedABinding :
    State.reset.dec = none ∧ State.reset.enc = none ∧
    (∀ op ∈ [0x00#8, 0x82#8, 0xC3#8], op ≠ 0x80#8 ∧ op ≠ 0x81#8 ∧ op ≠ 0xC0#8 ∧ op ≠ 0xC1#8 ∧ op ≠ 0xC2#8) :=
  ⟨rfl, rfl, by decide⟩

/-- A buffer that overlaps the Encoder's in one byte at each end; a Decoder whose buffer was taken back. -/
theorem witness_SharedBuffersAreRefused :
    both.enc = some ⟨64, 1, 0, 3⟩ ∧ (64 < 63 + 2 ∧ 63 < 64 + 1) ∧ (64 < 64 + 2 ∧ 64 < 64 + 1) ∧ (7#64).toNat ≤ 7 ∧
    { both with decTaken := true }.dec = some ⟨16, 1, 0, 0⟩ ∧ { both with decTaken := true }.decTaken = true ∧
    isRead .decNextBit = true ∧ isRead (.rcSkipBits 0) = true := by decide

theorem witness_TakingBackTheDecodersBuffer :
    (∃ t, exec (.encNew ⟨15, 2⟩ 0) both = .next t ∧ t.resp = some (.ok .empty)) ∧
    (∃ t, exec (.decNew ⟨16, 1⟩ 0) { both with decTaken := true } = .next t ∧ t.resp = some (.ok .empty)) ∧
    { both with inbox := [.hostStore 64 1] }.inbox = .hostStore 64 1 :: [] ∧
    both.enc = some ⟨64, 1, 0, 3⟩ ∧ (64 ≤ 64 ∧ 64 < 64 + 1) ∧ ¬ (64 ≤ 65 ∧ 65 < 64 + 1) ∧ ¬ (64 ≤ 63 ∧ 63 < 64 + 1) :=
  ⟨⟨_, rfl, rfl⟩, ⟨_, rfl, rfl⟩, rfl, rfl, by decide, by decide, by decide⟩

theorem witness_DecoderBufferIsImmutableWhileHeld :
    { both with inbox := [.command ⟨0x41, 1, 0, 0⟩] }.Inv ∧
    (∃ t, step { both with inbox := [.command ⟨0x41, 1, 0, 0⟩] } = .next t ∧ t.dec ≠ none ∧ t.decTaken = false) ∧
    both.dec = some ⟨16, 1, 0, 0⟩ ∧ both.decTaken = false ∧ 16 ≤ 16 ∧ 16 < 16 + 1 :=
  ⟨by decide, ⟨_, rfl, by decide, rfl⟩, rfl, rfl, by decide, by decide⟩

theorem witness_AdvMovesOneBit :
    (⟨16, 1, 0, 7⟩ : Binding).bit = 7 ∧ (⟨16, 1, 0, 6⟩ : Binding).bit ≠ 7 ∧ (⟨16, 1, 0, 7⟩ : Binding).byte < 1 := by decide

theorem witness_PositionNeverDecreases :
    both.Inv ∧ (∃ t, exec .decNextBit both = .next t) ∧ (∃ t, exec (.encPutUnsigned 5) both = .next t) ∧
    both.dec = some ⟨16, 1, 0, 0⟩ ∧ isDecNew .decNextBit = false ∧ both.enc = some ⟨64, 1, 0, 3⟩ ∧
    isEncNew (.encPutUnsigned 5) = false ∧ Instr.encPutUnsigned 5 ≠ .encClose :=
  ⟨both_inv, ⟨_, rfl⟩, ⟨_, rfl⟩, rfl, rfl, rfl, rfl, by decide⟩

/-- The bound is reached: one bit by `DEC.NEXT_BIT`; five by `ENC.PUT_UNSIGNED 5`. -/
theorem witness_CommandsEndWithinTheirBitSteps :
    both.Inv ∧ (∃ t u', exec .decNextBit both = .next t ∧ t.dec = some u' ∧ u'.pos = 1) ∧
    (∃ t u', exec (.encPutUnsigned 5) both = .next t ∧ t.enc = some u' ∧ u'.pos = 8) ∧
    isDecRead .decNextBit = true ∧ isEncWrite (.encPutUnsigned 5) = true :=
  ⟨both_inv, ⟨_, _, rfl, rfl, rfl⟩, ⟨_, _, rfl, rfl, rfl⟩, rfl, rfl⟩

/-- A cursor at the last bit, and an exhausted one: the two clauses of R72, R79. -/
theorem witness_RcNextBitReadsTheBitUnderTheCursor :
    (reading [0xA5] 0 7).dec = some ⟨16, 1, 0, 7⟩ ∧ (reading [0xA5] 1 0).dec = some ⟨16, 1, 1, 0⟩ ∧
    (reading [0xA5] 0 7).decTaken = false ∧ 0 < 1 := ⟨rfl, rfl, rfl, by decide⟩

theorem witness_DecNextBitReturnsTheRawBit :
    (reading [0xA5] 0 7).dec = some ⟨16, 1, 0, 7⟩ ∧ (reading [0xA5] 1 0).dec = some ⟨16, 1, 1, 0⟩ ∧
    (reading [0xA5] 0 7).decTaken = false ∧ 0 < 1 := ⟨rfl, rfl, rfl, by decide⟩

theorem witness_EndOfStreamIsSticky :
    (reading [0] 0 0).dec = some ⟨16, 1, 0, 0⟩ ∧ (reading [0] 0 0).decTaken = false ∧ (⟨16, 1, 0, 0⟩ : Binding).Ok ∧
    (∃ t, exec .decNextUnsigned (reading [0] 0 0) = .next t ∧ t.resp = some (.fail .endOfStream)) ∧
    isRead .decNextUnsigned = true ∧ (reading [0] 1 0).dec = some ⟨16, 1, 1, 0⟩ ∧ (⟨16, 1, 1, 0⟩ : Binding).Ok ∧
    (⟨16, 1, 1, 0⟩ : Binding).byte = (⟨16, 1, 1, 0⟩ : Binding).len ∧ isDecRead .decSkipNext = true :=
  ⟨rfl, rfl, by decide, ⟨_, rfl, rfl⟩, rfl, rfl, by decide, rfl, rfl⟩

theorem witness_RcSkipBitsClampsAtTheEnd :
    (reading [0, 0, 0, 0] 3 6).dec = some ⟨16, 4, 3, 6⟩ ∧ (reading [0, 0, 0, 0] 3 6).decTaken = false := ⟨rfl, rfl⟩

theorem witness_RcSkipBitsIsRepeatedNextBit :
    (reading [0, 0, 0, 0] 3 6).dec = some ⟨16, 4, 3, 6⟩ ∧ (reading [0, 0, 0, 0] 3 6).decTaken = false ∧
    (⟨16, 4, 3, 6⟩ : Binding).Ok := ⟨rfl, rfl, by decide⟩

/-- Offsets 7 and 8, a length of 0 and 1, and a buffer that ends where the Encoder's begins. -/
theorem witness_DecNewBindsTheDecoder :
    7 < (8#64).toNat ∧ (7#64).toNat ≤ 7 ∧ (⟨63, 0⟩ : BufRef).len = 0 ∧ (⟨63, 1⟩ : BufRef).len ≠ 0 ∧
    (∀ e, both.enc = some e → e.base + e.len ≤ 63 ∨ 63 + 1 ≤ e.base) := by
  refine ⟨by decide, by decide, rfl, by decide, fun e he => ?_⟩
  obtain rfl : (⟨64, 1, 0, 3⟩ : Binding) = e := Option.some.inj he
  decide

theorem witness_EncNewBindsTheEncoder :
    7 < (8#64).toNat ∧ (7#64).toNat ≤ 7 ∧ (⟨64, 0⟩ : BufRef).len = 0 ∧ (⟨64, 1⟩ : BufRef).len ≠ 0 := by decide

/-- The zero run of an all-zero buffer, and of the codeword of 5. -/
theorem zeroRun_zeros : ZeroRun (reading [0] 0 0).mem ⟨16, 1, 0, 0⟩ 8 := ⟨by decide, by decide, by decide⟩
theorem zeroRun_five : ZeroRun (reading [0x30] 0 0).mem ⟨16, 1, 0, 0⟩ 2 := ⟨by decide, by decide, by decide⟩

theorem witness_DecNextUnsignedByLinearPosition :
    (reading [0x30] 0 0).dec = some ⟨16, 1, 0, 0⟩ ∧ (reading [0x30] 0 0).decTaken = false ∧ (⟨16, 1, 0, 0⟩ : Binding).Ok ∧
    ZeroRun (reading [0x30] 0 0).mem ⟨16, 1, 0, 0⟩ 2 ∧ ZeroRun (reading [0] 0 0).mem ⟨16, 1, 0, 0⟩ 8 :=
  ⟨rfl, rfl, by decide, zeroRun_five, zeroRun_zeros⟩

theorem witness_DecSkipNextByLinearPosition :
    (reading [0x30] 0 0).dec = some ⟨16, 1, 0, 0⟩ ∧ (reading [0x30] 0 0).decTaken = false ∧ (⟨16, 1, 0, 0⟩ : Binding).Ok ∧
    ZeroRun (reading [0x30] 0 0).mem ⟨16, 1, 0, 0⟩ 2 := ⟨rfl, rfl, by decide, zeroRun_five⟩

theorem witness_DecNextSignedMapsTheUnsignedValue :
    (reading [0x30] 0 0).dec = some ⟨16, 1, 0, 0⟩ ∧ (reading [0x30] 0 0).decTaken = false ∧ (⟨16, 1, 0, 0⟩ : Binding).Ok ∧
    ZeroRun (reading [0x30] 0 0).mem ⟨16, 1, 0, 0⟩ 2 ∧ 0 + 2 * 2 + 1 ≤ 8 * 1 ∧
    5 = 2 ^ 2 - 1 + fieldAt (reading [0x30] 0 0).mem 16 (0 + 2 + 1) 2 ∧ 5 < 2 ^ 64 :=
  ⟨rfl, rfl, by decide, zeroRun_five, by decide, by decide, by decide⟩

theorem witness_DecodedValueFitsUnlessOverflow :
    63 ≤ 63 ∧ 64 = 64 ∧ (reading [0x30] 0 0).dec = some ⟨16, 1, 0, 0⟩ ∧ (⟨16, 1, 0, 0⟩ : Binding).Ok ∧
    ZeroRun (reading [0x30] 0 0).mem ⟨16, 1, 0, 0⟩ 2 ∧
    ∃ t, exec .decNextUnsigned (reading [0x30] 0 0) = .next t ∧ t.resp = some (.ok (.data 5)) :=
  ⟨le_refl _, rfl, rfl, by decide, zeroRun_five, _, rfl, rfl⟩

theorem witness_SignedMapAlternatesSigns : (0xFFFFFFFFFFFFFFFE#64).toNat ≠ 2 ^ 64 - 1 ∧ (0#64).toNat ≠ 2 ^ 64 - 1 := by decide

theorem witness_SkipLandsWhereNextUnsignedLands :
    (reading [0x30] 0 0).Inv ∧
    ∃ t, exec .decNextUnsigned (reading [0x30] 0 0) = .next t ∧ t.resp = some (.ok (.data 5)) := ⟨by decide, _, rfl, rfl⟩

/-- D2: `111 00110` from offset 3, and the same bits from offset 0. -/
theorem witness_DecodingIsAlignmentInvariant :
    (⟨32, 1⟩ : BufRef).len = (⟨16, 1⟩ : BufRef).len ∧
    (∀ q < 8 * 1 - 3, bitAt [(16, 0xE6#8), (32, 0x30#8)] 32 q = bitAt [(16, 0xE6#8), (32, 0x30#8)] 16 (3 + q)) ∧
    (∃ t, exec (.decNew ⟨16, 1⟩ 3) { State.reset with mem := [(16, 0xE6), (32, 0x30)] } = .next t ∧
      t.resp = some (.ok .empty) ∧ QuietRun [.decNextUnsigned] t) ∧
    (∃ t', exec (.decNew ⟨32, 1⟩ 0) { State.reset with mem := [(16, 0xE6), (32, 0x30)] } = .next t' ∧
      t'.resp = some (.ok .empty)) :=
  ⟨rfl, by decide, ⟨_, rfl, rfl, rfl, by simp, _, rfl, by decide, trivial⟩, ⟨_, rfl, rfl⟩⟩

/-- A cursor at the last bit, and an exhausted one: the two clauses of R89, R94. -/
theorem witness_WcPutBitOrsTheBitIn :
    (writing [0] 0 7).enc = some ⟨64, 1, 0, 7⟩ ∧ 0 < 1 ∧ (writing [0] 1 0).enc = some ⟨64, 1, 1, 0⟩ := ⟨rfl, by decide, rfl⟩

theorem witness_EncPutBitWritesOneBit :
    (writing [0] 0 7).enc = some ⟨64, 1, 0, 7⟩ ∧ 0 < 1 ∧ (writing [0] 1 0).enc = some ⟨64, 1, 1, 0⟩ := ⟨rfl, by decide, rfl⟩

theorem witness_WcPutZerosAdvances :
    (writing [0] 0 6).enc = some ⟨64, 1, 0, 6⟩ ∧ (⟨64, 1, 0, 6⟩ : Binding).Ok ∧ (⟨64, 1, 1, 0⟩ : Binding).Ok :=
  ⟨rfl, by decide, by decide⟩

theorem witness_WcPutBitsCopiesTheRun : (writing [0] 0 6).enc = some ⟨64, 1, 0, 6⟩ ∧ (⟨64, 1, 0, 6⟩ : Binding).Ok :=
  ⟨rfl, by decide⟩

/-- Value 7 has a codeword of 7 bits: from offset 1 it fits exactly, from offset 6 it does not (E4). -/
theorem witness_EncPutUnsignedByLinearPosition :
    (writing [0] 0 1).enc = some ⟨64, 1, 0, 1⟩ ∧ (⟨64, 1, 0, 1⟩ : Binding).Ok ∧
    (⟨64, 1, 0, 1⟩ : Binding).pos + (2 * Nat.log2 ((7#64).toNat + 1) + 1) ≤ 8 * 1 ∧
    (writing [0] 0 6).enc = some ⟨64, 1, 0, 6⟩ ∧ (⟨64, 1, 0, 6⟩ : Binding).Ok ∧
    8 * 1 < (⟨64, 1, 0, 6⟩ : Binding).pos + (2 * Nat.log2 ((7#64).toNat + 1) + 1) :=
  ⟨rfl, by decide, by decide, rfl, by decide, by decide⟩

theorem witness_EncCloseReturnsThePosition : both.enc = some ⟨64, 1, 0, 3⟩ := rfl

/-- E13: after `00100.1` the cursor is at `(0,6)`. -/
theorem witness_StreamContinuesAfterClose :
    (writing [0x24, 0, 0] 0 6).enc = some ⟨64, 3, 0, 6⟩ ∧ (⟨64, 3, 0, 6⟩ : Binding).Ok ∧ 0 < 3 ∧
    ∃ t, exec (.encPutUnsigned 8) (writing [0x24, 0, 0] 0 6) = .next t := ⟨rfl, by decide, by decide, _, rfl⟩

/-- The largest value at offset 7 of 17 zero bytes: an exact fit (P5). -/
theorem witness_RoundTripOfUnsignedValues :
    (7#64).toNat ≤ 7 ∧ 2 * Nat.log2 ((BitVec.allOnes 64).toNat + 1) + 1 ≤ 8 * (⟨64, 17⟩ : BufRef).len - (7#64).toNat ∧
    (∀ q, (7#64).toNat ≤ q → q < 8 * (⟨64, 17⟩ : BufRef).len → bitAt State.reset.mem 64 q = false) := by
  refine ⟨by decide, by decide, fun q _ _ => ?_⟩
  show (0#8).getLsbD (7 - q % 8) = false
  simp

/-- `−2^63` at offset 7 of 17 zero bytes: an exact fit. -/
theorem witness_RoundTripOfSignedValues :
    (7#64).toNat ≤ 7 ∧ 2 * Nat.log2 ((s2u 0x8000000000000000).toNat + 1) + 1 ≤ 8 * (⟨64, 17⟩ : BufRef).len - (7#64).toNat ∧
    (∀ q, (7#64).toNat ≤ q → q < 8 * (⟨64, 17⟩ : BufRef).len → bitAt State.reset.mem 64 q = false) := by
  refine ⟨by decide, by decide, fun q _ _ => ?_⟩
  show (0#8).getLsbD (7 - q % 8) = false
  simp

/-- Scenario 3: the nine values 0 to 8 take 41 bits. -/
theorem witness_StreamOfValuesRoundTrips :
    (⟨64, 6⟩ : BufRef).len ≠ 0 ∧ (0#64).toNat ≤ 7 ∧
    (([0, 1, 2, 3, 4, 5, 6, 7, 8] : List Word64).map (fun v => 2 * Nat.log2 (v.toNat + 1) + 1)).sum = 41 ∧ 41 ≤ 8 * 6 - 0 ∧
    (∀ q, (0#64).toNat ≤ q → q < 8 * (⟨64, 6⟩ : BufRef).len → bitAt State.reset.mem 64 q = false) := by
  refine ⟨by decide, by decide, by decide, by decide, fun q _ _ => ?_⟩
  show (0#8).getLsbD (7 - q % 8) = false
  simp

theorem witness_UnitsCommandsCommute :
    both.Inv ∧ both.dec = some ⟨16, 1, 0, 0⟩ ∧ both.enc = some ⟨64, 1, 0, 3⟩ ∧ both.decTaken = false ∧
    isRead .decNextUnsigned = true ∧ isWrite (.encPutUnsigned 5) = true := ⟨both_inv, rfl, rfl, rfl, rfl, rfl⟩

theorem witness_DecoderInstructionsLeaveTheRestAlone :
    (isRead .decNextBit = true ∧ ∃ t, exec .decNextBit both = .next t) ∧
    (isDecNew (.decNew ⟨16, 1⟩ 0) = true ∧ ∃ t, exec (.decNew ⟨16, 1⟩ 0) both = .next t) := ⟨⟨rfl, _, rfl⟩, ⟨rfl, _, rfl⟩⟩

/-- A write, an `ENC.NEW` and an `ENC.CLOSE`; and an address that no 1 bit of `00110` at offset 3 lies under. -/
theorem witness_EncoderInstructionsLeaveTheRestAlone :
    (isWrite (.encPutUnsigned 5) = true ∧ ∃ t, exec (.encPutUnsigned 5) both = .next t) ∧
    (isEncNew (.encNew ⟨64, 1⟩ 0) = true ∧ ∃ t, exec (.encNew ⟨64, 1⟩ 0) both = .next t) ∧
    (∃ t, exec .encClose both = .next t) ∧ both.enc = some ⟨64, 1, 0, 3⟩ ∧
    (∀ j < runLength (.encPutUnsigned 5), runBit (.encPutUnsigned 5) j = true → 3 + j < 8 * 1 → 65 ≠ 64 + (3 + j) / 8) :=
  ⟨⟨rfl, _, rfl⟩, ⟨rfl, _, rfl⟩, ⟨_, rfl⟩, rfl, by decide⟩

/-- A write with 1 bits, and one without. -/
theorem witness_EncoderOnlySetsBits :
    isWrite (.encPutUnsigned 5) = true ∧ both.enc = some ⟨64, 1, 0, 3⟩ ∧ (∃ t, exec (.encPutUnsigned 5) both = .next t) ∧
    isWrite (.wcPutZeros 2) = true ∧ (∃ t, exec (.wcPutZeros 2) both = .next t) ∧
    (∀ j < runLength (.wcPutZeros 2), runBit (.wcPutZeros 2) j = false) := ⟨rfl, rfl, ⟨_, rfl⟩, rfl, ⟨_, rfl⟩, by decide⟩

theorem witness_AccessesStayInsideTheBuffers :
    (∃ t, exec (.encPutUnsigned 5) both = .next t) ∧ heldAt both.enc 65 = false ∧
    (∀ a, heldAt both.dec a = true ∨ heldAt both.enc a = true →
      Memory.read [(16, 0x80), (64, 0xE0), (70, 0x01)] a = both.mem.read a) := by
  refine ⟨⟨_, rfl⟩, rfl, fun a h => ?_⟩
  have : a = 16 ∨ a = 64 := by
    simp [both, heldAt, Binding.covers] at h; omega
  rcases this with rfl | rfl <;> rfl

/-- A command as one transaction, a turn of each unit, a reset; and a command taken up and issued to its end. -/
theorem witness_CursorsStepOnlyInsideCommands :
    (∃ t, step { both with inbox := [.command ⟨0x01, 0, 0, 0⟩] } = .next t ∧ t.dec ≠ both.dec) ∧
    (∃ t, step { both with decCmd := some .bit } = .next t ∧ t.dec ≠ both.dec) ∧
    (∃ t, step { both with encCmd := some (.bit true) } = .next t ∧ t.enc ≠ both.enc) ∧
    (∃ t, step { both with inbox := [.reset] } = .next t ∧ t.enc ≠ both.enc) ∧
    (decode (.command ⟨0x02, 0, 0, 0⟩) = .ok .decNextUnsigned ∧
      { both with inbox := .start ⟨0x02, 0, 0, 0⟩ :: (List.replicate 129 (Request.issue .dec) ++ []) }.inbox =
        .start ⟨0x02, 0, 0, 0⟩ :: (List.replicate 129 (Request.issue (sideOf .decNextUnsigned)) ++ []) ∧
      both.busy (sideOf .decNextUnsigned) = false) :=
  ⟨⟨_, rfl, by decide⟩, ⟨_, rfl, by decide⟩, ⟨_, rfl, by decide⟩, ⟨_, rfl, by decide⟩, rfl, rfl, rfl⟩

/-! ## Commands in progress (10_state R25, R29; 41 R80, R81; 43 R95; 70 R124) -/

/-- The command in progress, the response on the port and the number of requests left after a step. -/
def cmdView (o : Host.Outcome State Fault Refusal) : Option (Option DecPhase × Option EncPhase × Option Response × Nat) :=
  match o with
  | .next t => some (t.decCmd, t.encCmd, t.resp, t.inbox.length)
  | .fault _ => none
  | .refused _ => none

/-- `DEC.NEXT_UNSIGNED` taken up: no bit read, no response yet. -/
theorem test_start_decNextUnsigned : cmdView (step { reading [0x30] 0 0 with inbox := [.start ⟨0x02, 0, 0, 0⟩] }) =
    some (some (.count 0 (.value false)), none, none, 0) := by decide
/-- The terminator after two zeros: the suffix phase of two bits. -/
theorem test_issue_terminator : cmdView (step { reading [0x30] 0 2 with decCmd := some (.count 2 (.value false)) }) =
    some (some (.suffix 2 2 0 false), none, none, 0) := by decide
/-- The last suffix bit of `00110`: the value 5 is answered. -/
theorem test_issue_lastSuffixBit : cmdView (step { reading [0x30] 0 4 with decCmd := some (.suffix 2 1 1 false) }) =
    some (none, none, some (.ok (.data 5)), 0) := by decide
/-- The 65th zero is Overflow (R80). -/
theorem test_issue_65th_zero : cmdView (step { reading [0x30] 0 0 with decCmd := some (.count 64 .skip) }) =
    some (none, none, some (.fail .overflow), 0) := by decide
/-- `ENC.PUT_UNSIGNED 5` taken up: two zeros, then `110` from bit 5 of the last image byte (W4). -/
theorem test_start_encPutUnsigned : cmdView (step { writing [0] 0 0 with inbox := [.start ⟨0x42, 5, 0, 0⟩] }) =
    some (none, some (.zeros 2 [0x06] 5), none, 0) := by decide
/-- A second command to a busy unit waits: the request stays, the command in progress goes on (R124). -/
theorem test_busy_waits : cmdView (step { both with decCmd := some (.count 0 .skip), inbox := [.command ⟨0x01, 0, 0, 0⟩] }) =
    some (some (.skip 0), none, none, 1) := by decide
/-- A code that names no command does not wait: Illegal at once, the command in progress unchanged (R67; log entry 12). -/
theorem test_busy_illegal : cmdView (step { both with decCmd := some (.count 0 .skip), inbox := [.command ⟨0x05, 0, 0, 0⟩] }) =
    some (some (.count 0 .skip), none, some (.fail .illegal), 0) := by decide
/-- A turn without a command in progress steps no cursor (R9). -/
theorem test_issue_idle : decView (step { both with inbox := [.issue .dec] }) = some (none, some (0, 0)) := by decide

/-- The instruction of every opcode-table row is the first to run after reset (30_encoding R62; log entry 4). -/
theorem test_withFetchWord_encNew : decView (step (State.reset.withFetchWord 8 0x40)) = some (some (.fail .invalidArgument), none) := by decide
theorem test_withFetchWord_rcNextBit : decView (step (State.reset.withFetchWord 8 0x80)) = some (some (.ok (.data 0)), some (0, 1)) := by decide
theorem test_withFetchWord_wcPutBits : encView (step (State.reset.withFetchWord 8 0xC2)) = some (some (.ok .empty), some (0, 0), []) := by decide

end Sys2Proof.Tests
end

section
/-!
SUPPORT. Which unit an instruction is of, and that an idle unit has no command in progress (spec 00_scope R9, 30_encoding R61).
-/

namespace Sys2Proof.Machine

/-- Reading and constructing a Decoder are the Decoder's. -/
theorem sideOf_eq_dec {i : Instr} (h : isRead i = true ∨ isDecNew i = true) : sideOf i = .dec := by
  cases i <;> simp [isRead, isDecRead, isReadCursorOp, isDecNew, sideOf] at h ⊢

/-- Writing, constructing an Encoder and closing it are the Encoder's. -/
theorem sideOf_eq_enc {i : Instr} (h : isWrite i = true ∨ isEncNew i = true ∨ i = .encClose) : sideOf i = .enc := by
  cases i <;> simp [isWrite, isEncWrite, isWriteCursorOp, isEncNew, sideOf] at h ⊢

/-- No instruction is both units'. -/
theorem not_both_sides {i : Instr} (hd : isRead i = true ∨ isDecNew i = true)
    (he : isWrite i = true ∨ isEncNew i = true ∨ i = .encClose) : False := by
  have h := sideOf_eq_dec hd
  simp [sideOf_eq_enc he] at h

/-- A Decoder that is not busy has no command in progress. -/
theorem decCmd_eq_none {i : Instr} {s : State} (hb : s.busy (sideOf i) = false)
    (hi : isDecRead i = true ∨ isDecNew i = true) : s.decCmd = none := by
  rw [sideOf_eq_dec (hi.imp_left fun h => by simp [isRead, h])] at hb
  simpa [State.busy] using hb

/-- An Encoder that is not busy has no command in progress. -/
theorem encCmd_eq_none {i : Instr} {s : State} (hb : s.busy (sideOf i) = false)
    (hi : isEncWrite i = true ∨ isEncNew i = true ∨ i = .encClose) : s.encCmd = none := by
  rw [sideOf_eq_enc (hi.imp_left fun h => by simp [isWrite, h])] at hb
  simpa [State.busy] using hb

end Sys2Proof.Machine
end

section
/-!
PROOFS. Every step keeps the invariant (spec 10_state R19, R21, R27, 20_memory R43): O13.
-/

namespace Sys2Proof.Machine

/-- A reading instruction keeps the Decoder's registers in order. -/
theorem readFn_ok {i : Instr} (hi : isRead i = true) (m : Memory) {u : Binding} (h : u.Ok) : (readFn i m u).2.Ok := by
  obtain ⟨p, -, hp, he⟩ := readFn_moves hi m u h.pos_le
  rw [he]
  exact ok_seek h hp

/-- Writing a run keeps the Encoder's registers in order. -/
theorem putRun_ok (bs : List Bit) (m : Memory) {u : Binding} (h : u.Ok) : (putRun bs m u).2.2.Ok := by
  rw [(putRun_end bs m u h.pos_le).2]
  exact ok_seek h (min_le_right _ _)

/-- Whether two buffers share a byte does not depend on the cursors. -/
theorem overlaps_congr {u u' v v' : Binding} (hu : u'.base = u.base ∧ u'.len = u.len)
    (hv : v'.base = v.base ∧ v'.len = v.len) : u'.overlaps v' = u.overlaps v := by
  simp only [Binding.overlaps, hu, hv]

/-- A buffer that no unit's buffer shares a byte with. -/
theorem heldOver_eq_false {o : Option Binding} {v : Binding} : heldOver o v = false ↔ ∀ u ∈ o, u.overlaps v = false := by
  cases o <;> simp [heldOver]

/-- Every instruction that fits its record keeps the invariant, if no Encoder is closed while it has a command in progress. -/
theorem exec_keeps_inv {i : Instr} {s t : State} (h : s.Inv) (hi : i.wellFormed = true)
    (hc : i = .encClose → s.encCmd = none) (he : exec i s = .next t) : t.Inv := by
  have hInv := h
  obtain ⟨hmem, hdec, henc, hapart, hdc, hec⟩ := h
  cases exec_did he with
  | illegal => exact hInv
  | badNew => exact hInv
  | decNew buf off u hi' hu ho =>
    subst hi'
    have hu := ok_newBinding (by simpa [Instr.wellFormed] using hi) hu
    refine ⟨hmem, by simpa using hu, henc, fun _ d hd e hme => ?_, fun ph hph => ⟨rfl, (hdc ph hph).2⟩, hec⟩
    obtain rfl := Option.mem_some.1 hd
    rw [overlaps_comm]
    exact heldOver_eq_false.1 ho e hme
  | encNew buf off u hi' hu =>
    subst hi'
    have hu := ok_newBinding (by simpa [Instr.wellFormed] using hi) hu
    refine ⟨hmem, hdec, by simpa using hu, fun ht d hd e hme => ?_, hdc, fun ph hph => ⟨rfl, (hec ph hph).2⟩⟩
    obtain rfl := Option.mem_some.1 hme
    exact heldOver_eq_false.1 (Bool.or_eq_false_iff.1 ht).2 d hd
  | read u hr hu ht =>
    refine ⟨hmem, by simpa using readFn_ok hr s.mem (hdec u hu), henc, fun ht d hd e hme => ?_,
      fun ph hph => ⟨rfl, (hdc ph hph).2⟩, hec⟩
    obtain rfl := Option.mem_some.1 hd
    rw [overlaps_congr (readFn_buffer i s.mem u) ⟨rfl, rfl⟩]
    exact hapart ht u hu e hme
  | write u hw hu =>
    refine ⟨wf_putRun _ u hmem, hdec, by simpa using putRun_ok (runOf i) s.mem (henc u hu), fun ht d hd e hme => ?_, hdc,
      fun ph hph => ⟨rfl, (hec ph hph).2⟩⟩
    obtain rfl := Option.mem_some.1 hme
    rw [overlaps_congr ⟨rfl, rfl⟩ (putRun_buffer (runOf i) s.mem u)]
    exact hapart ht d hd u hu
  | close u hi' hu =>
    refine ⟨hmem, hdec, by simp, by simp, hdc, fun ph hph => ?_⟩
    simp [hc hi'] at hph

/-- The cursor operations that the Decoder issues fit their records. -/
theorem decOp_wellFormed (ph : DecPhase) : (decOp ph).wellFormed = true := decode_wellFormed (decode_decMicro ph)

/-- The cursor operations that the Encoder issues fit their records. -/
theorem encOp_wellFormed (ph : EncPhase) : (encOp ph).wellFormed = true := decode_wellFormed (decode_encMicro ph)

/-- The phase a unit goes on to. -/
theorem Advance.mem_phase? {φ : Type} {a : Advance φ} {ph : φ} : ph ∈ a.phase? ↔ a = .goOn ph := by
  cases a <;> simp [Advance.phase?]

/-- The Decoder's taking of an answer keeps the invariant. -/
theorem settleDec_keeps_inv {ph : DecPhase} {t : State} (h : t.Inv) (hc : t.decCmd = some ph) (r : Response)
    (old : Option Response) : (settleDec (advanceDec ph r) old t).Inv := by
  obtain ⟨hmem, hdec, henc, hapart, hdc, hec⟩ := h
  obtain ⟨hbound, hok⟩ := hdc ph hc
  simp only [State.Inv, settleDec_mem, settleDec_dec, settleDec_enc, settleDec_decTaken, settleDec_decCmd, settleDec_encCmd]
  exact ⟨hmem, hdec, henc, hapart, fun ph' hph => ⟨hbound, advanceDec_ok hok (Advance.mem_phase?.1 hph)⟩, hec⟩

/-- The Encoder's taking of an answer keeps the invariant. -/
theorem settleEnc_keeps_inv {ph : EncPhase} {t : State} (h : t.Inv) (hc : t.encCmd = some ph) (r : Response)
    (old : Option Response) : (settleEnc (advanceEnc ph r) old t).Inv := by
  obtain ⟨hmem, hdec, henc, hapart, hdc, hec⟩ := h
  obtain ⟨hbound, hok⟩ := hec ph hc
  simp only [State.Inv, settleEnc_mem, settleEnc_dec, settleEnc_enc, settleEnc_decTaken, settleEnc_decCmd, settleEnc_encCmd]
  exact ⟨hmem, hdec, henc, hapart, hdc, fun ph' hph => ⟨hbound, advanceEnc_ok hok (Advance.mem_phase?.1 hph)⟩⟩

/-- A unit's turn keeps the invariant. -/
theorem issue_keeps_inv {side : Side} {s t : State} (h : s.Inv) (he : issue side s = .next t) : t.Inv := by
  cases side with
  | dec =>
    rcases issue_dec_did he with ⟨-, rfl⟩ | ⟨ph, t', hc, ht, rfl⟩
    · exact h
    · have hInv := exec_keeps_inv h (decOp_wellFormed ph) (by cases ph <;> simp [decOp]) ht
      exact settleDec_keeps_inv hInv ((exec_cmd_frame ht).1.trans hc) _ _
  | enc =>
    rcases issue_enc_did he with ⟨-, rfl⟩ | ⟨ph, t', hc, ht, rfl⟩
    · exact h
    · have hInv := exec_keeps_inv h (encOp_wellFormed ph) (by cases ph <;> simp [encOp]) ht
      exact settleEnc_keeps_inv hInv ((exec_cmd_frame ht).2.trans hc) _ _

/-- Taking up a host command keeps the invariant. -/
theorem takeUp_keeps_inv {c : HostCommand} {i : Instr} {s t : State} (h : s.Inv) (hi : decode (.command c) = .ok i)
    (hc : i = .encClose → s.encCmd = none) (he : takeUp i s = .next t) : t.Inv := by
  obtain ⟨hmem, hdec, henc, hapart, hdc, hec⟩ := h
  rcases takeUp_did (decode_command_ne_micro hi) he with he | ⟨ph, -, hb, -, hok, rfl⟩ | ⟨ph, -, hb, hok, rfl⟩
  · exact exec_keeps_inv ⟨hmem, hdec, henc, hapart, hdc, hec⟩ (decode_wellFormed hi) hc he
  · exact ⟨hmem, hdec, henc, hapart, by simpa using ⟨hb, hok⟩, hec⟩
  · exact ⟨hmem, hdec, henc, hapart, hdc, by simpa using ⟨hb, hok⟩⟩

/-- What a reset leaves of an abandoned run is canonical memory. -/
theorem wf_memAfterPart (n : Nat) (bs : List Bit) {s : State} (h : s.mem.wf) : (memAfterPart n bs s).wf := by
  rw [memAfterPart]
  split
  · exact h
  · exact wf_putRun _ _ h

/-- A reset gives the invariant from canonical memory. -/
theorem resetDuringRun_inv (bs : List Bit) {s : State} (h : s.mem.wf) : (resetDuringRun bs s).Inv := by
  simpa [State.Inv] using wf_memAfterPart (Config.abandonedAfter s.resets) bs h

/-- Settles O13: by the cases of `step_did`, each of which keeps the invariant. -/
theorem stepKeepsTheInvariant : Obligations.StepKeepsTheInvariant := by
  unfold Obligations.StepKeepsTheInvariant
  intro s t h hs
  cases step_did hs with
  | ran c i rest t hr hi hb he =>
    exact exec_keeps_inv (s := { s with inbox := rest }) h (decode_wellFormed hi)
      (fun hclose => encCmd_eq_none hb (.inr (.inr hclose))) he
  | tookUp c i rest t hr hi hb he =>
    exact takeUp_keeps_inv (s := { s with inbox := rest }) h hi
      (fun hclose => encCmd_eq_none hb (.inr (.inr hclose))) he
  | illegal c rest hr => exact h
  | issued side l t he => exact issue_keeps_inv (s := { s with inbox := l }) h he
  | reset bs r rest hr hk => exact resetDuringRun_inv bs (s := { s with inbox := rest }) h.1
  | stored a v rest hr hh =>
    obtain ⟨hmem, hdec, henc, hapart, hdc, hec⟩ := h
    exact ⟨wf_write a v hmem, hdec, henc, fun ht => hapart (Bool.or_eq_false_iff.1 ht).1, hdc, hec⟩

end Sys2Proof.Machine
end

section
/-!
PROOFS. What a step does with the first request (spec 00_scope R9, 10_state R25, 70_reset R124): O8.
-/

namespace Sys2Proof.Machine

/-- A request that waits for no unit is served. -/
theorem step_of_waitsFor_none {s : State} {r : Request} {rest : List Request} (hin : s.inbox = r :: rest)
    (hw : waitsFor r s = none) : step s = serve r { s with inbox := rest } := by
  simp only [step, takeRequest, hin, hw]

/-- While a request waits for a unit, the step is that unit's turn. -/
theorem step_of_waitsFor_some {s : State} {r : Request} {rest : List Request} {side : Side} (hin : s.inbox = r :: rest)
    (hw : waitsFor r s = some side) : step s = issue side s := by
  simp only [step, takeRequest, hin, hw]

/-- A unit's turn at the front of the list. -/
theorem step_issue {s : State} {side : Side} {rest : List Request} (hin : s.inbox = .issue side :: rest) :
    step s = issue side { s with inbox := rest } :=
  step_of_waitsFor_none hin rfl

/-- A request with a host command waits for the command's unit while that unit is busy. -/
theorem waitsFor_of_busy {r : Request} {s : State} {c : HostCommand} {i : Instr} (hr : r.hostCommand? = some c)
    (hi : decode (.command c) = .ok i) (hb : s.busy (sideOf i) = true) : waitsFor r s = some (sideOf i) := by
  simp only [waitsFor, hr, hi, hb, if_true]

/-- A request with a host command waits for no unit while the command's unit is not busy. -/
theorem waitsFor_of_not_busy {r : Request} {s : State} {c : HostCommand} {i : Instr} (hr : r.hostCommand? = some c)
    (hi : decode (.command c) = .ok i) (hb : s.busy (sideOf i) = false) : waitsFor r s = none := by
  simp only [waitsFor, hr, hi, hb, Bool.false_eq_true, if_false]

/-- A request with a code that names no command waits for no unit (log entry 12). -/
theorem waitsFor_of_decode_error {r : Request} {s : State} {c : HostCommand} {e : DecodeError}
    (hr : r.hostCommand? = some c) (hi : decode (.command c) = .error e) : waitsFor r s = none := by
  simp only [waitsFor, hr, hi]

/-- A host command runs as one transaction when its unit is not busy. -/
theorem step_command {s : State} {c : HostCommand} {rest : List Request} {i : Instr} (hin : s.inbox = .command c :: rest)
    (hi : decode (.command c) = .ok i) (hb : s.busy (sideOf i) = false) : step s = exec i { s with inbox := rest } := by
  rw [step_of_waitsFor_none hin (waitsFor_of_not_busy rfl hi hb)]
  simp only [serve, serveHost, hi]

/-- A unit that is not busy takes a host command up. -/
theorem step_start {s : State} {c : HostCommand} {rest : List Request} {i : Instr} (hin : s.inbox = .start c :: rest)
    (hi : decode (.command c) = .ok i) (hb : s.busy (sideOf i) = false) : step s = takeUp i { s with inbox := rest } := by
  rw [step_of_waitsFor_none hin (waitsFor_of_not_busy rfl hi hb)]
  simp only [serve, serveHost, hi]

/-- A code outside the nine of the host's port is rejected (R62, R67). -/
theorem decode_outside_nine {c : HostCommand} (h : ¬ (c.op ≤ 0x04#8 ∨ (0x40#8 ≤ c.op ∧ c.op ≤ 0x43#8))) :
    ∃ e, decode (.command c) = .error e := by
  simp only [decode, decodeCommand]
  split
  case h_10 => split <;> exact ⟨_, rfl⟩
  all_goals
    next hop => exact absurd (by rw [hop]; decide) h

/-- A code that names no host command is answered Illegal, whatever the units have in progress. -/
theorem step_illegal {s : State} {c : HostCommand} {rest : List Request} {e : DecodeError}
    (hin : s.inbox = .command c :: rest ∨ s.inbox = .start c :: rest) (hi : decode (.command c) = .error e) :
    step s = .next { s with inbox := rest, resp := some (.fail .illegal) } := by
  rcases hin with hin | hin
  all_goals
    rw [step_of_waitsFor_none hin (waitsFor_of_decode_error rfl hi)]
    simp only [serve, serveHost, hi, answer_eq]

/-- The Decoder's turn runs the cursor operation of its phase and takes the answer. -/
theorem issue_dec_eq {s : State} {ph : DecPhase} {i : Instr} (hc : s.decCmd = some ph)
    (hi : decode (.micro (decMicro ph)) = .ok i) :
    issue .dec s = onNext (fun t => settleDec (advanceDec ph t.answered) s.resp t) (exec i s) := by
  simp only [issue, hc, serveMicro, hi]

/-- The Encoder's turn runs the cursor operation of its phase and takes the answer. -/
theorem issue_enc_eq {s : State} {ph : EncPhase} {i : Instr} (hc : s.encCmd = some ph)
    (hi : decode (.micro (encMicro ph)) = .ok i) :
    issue .enc s = onNext (fun t => settleEnc (advanceEnc ph t.answered) s.resp t) (exec i s) := by
  simp only [issue, hc, serveMicro, hi]

/-- Settles O8: by what the first request waits for, and what serving it does. -/
theorem stepRunsTheDecodedInstruction : Obligations.StepRunsTheDecodedInstruction := by
  unfold Obligations.StepRunsTheDecodedInstruction
  refine ⟨fun s c rest i hin hi hb => step_command hin hi hb, fun s c r rest i hr hin hi hb => ?_,
    fun s ph rest i hin hc hi => ?_, fun s ph rest i hin hc hi => ?_, fun s c rest hop hin => ?_⟩
  · have hrc : r.hostCommand? = some c := by rcases hr with rfl | rfl | rfl <;> rfl
    exact step_of_waitsFor_some hin (waitsFor_of_busy hrc hi hb)
  · rw [step_issue hin, issue_dec_eq (s := { s with inbox := rest }) hc hi]
    exact ⟨fun t ht => by rw [ht, onNext_next], fun e he => by rw [he, onNext_refused]⟩
  · rw [step_issue hin, issue_enc_eq (s := { s with inbox := rest }) hc hi]
    exact ⟨fun t ht => by rw [ht, onNext_next], fun e he => by rw [he, onNext_refused]⟩
  · obtain ⟨e, hi⟩ := decode_outside_nine hop
    exact step_illegal hin hi

end Sys2Proof.Machine
end

section
/-!
PROOFS. The two units leave each other alone (spec 00_scope R9, 20_memory R35, R39, R41, R43, R44): O55, O56, O57.
-/

namespace Sys2Proof.Machine

/-- A write into a buffer that shares no byte with the Decoder's does not change what a reading instruction computes. -/
theorem readFn_putRun (i : Instr) (bs : List Bit) (m : Memory) {d e : Binding} (h : d.overlaps e = false) :
    readFn i (putRun bs m e).2.1 d = readFn i m d :=
  readFn_congr i d (bitAt_congr fun a ha => read_putRun_outside bs m e a (covers_of_not_overlaps h ha))

/-- Settles O55: the read depends only on its own buffer, and neither instruction touches the other unit's registers. -/
theorem unitsCommandsCommute : Obligations.UnitsCommandsCommute := by
  unfold Obligations.UnitsCommandsCommute
  rintro s d e i j ⟨-, -, -, hapart, -, -⟩ hd he ht hi hj
  have hov : d.overlaps e = false := hapart ht d hd e he
  rcases hj with hj | rfl
  · refine ⟨_, _, _, _, exec_read hi hd ht, exec_write hj he, exec_write hj he, exec_read hi hd ht, ?_, rfl, ?_⟩
    · simp only [readFn_putRun i _ s.mem hov]
    · simp only [readFn_putRun i _ s.mem hov]
  · exact ⟨_, _, _, _, exec_read hi hd ht, exec_encClose he, exec_encClose he, exec_read hi hd ht, rfl, rfl, rfl⟩

/-- Settles O56: by the cases of `exec_did`; the Decoder's instructions store nothing. -/
theorem decoderInstructionsLeaveTheRestAlone : Obligations.DecoderInstructionsLeaveTheRestAlone := by
  unfold Obligations.DecoderInstructionsLeaveTheRestAlone
  intro i s t hi he
  cases exec_did he with
  | illegal => exact ⟨rfl, fun _ => rfl, rfl, rfl, rfl, rfl, fun _ => ⟨rfl, rfl⟩⟩
  | badNew => exact ⟨rfl, fun _ => rfl, rfl, rfl, rfl, rfl, fun _ => ⟨rfl, rfl⟩⟩
  | decNew buf off u hi' hu ho =>
    subst hi'
    exact ⟨rfl, fun _ => rfl, rfl, rfl, rfl, rfl, fun hr => by simp [isRead, isDecRead, isReadCursorOp] at hr⟩
  | read u hr hu ht =>
    refine ⟨rfl, fun _ => rfl, rfl, rfl, rfl, rfl, fun _ => ⟨rfl, ?_⟩⟩
    simp [hu, readFn_buffer i s.mem u]
  | encNew buf off u hi' hu => exact (not_both_sides hi (.inr (.inl (by rw [hi']; rfl)))).elim
  | write u hw hu => exact (not_both_sides hi (.inl hw)).elim
  | close u hi' hu => exact (not_both_sides hi (.inr (.inr hi'))).elim

/-- A writing instruction changes no byte but those under its 1 bits that fit. -/
theorem read_putRun_runOf (i : Instr) (m : Memory) (u : Binding) (a : Nat)
    (h : ∀ j < runLength i, runBit i j = true → u.pos + j < 8 * u.len → a ≠ u.base + (u.pos + j) / 8) :
    (putRun (runOf i) m u).2.1.read a = m.read a := by
  refine read_putRun_ones _ m u a fun j hj hb hfit => ?_
  rw [runOf_length] at hj
  rw [runOf_getD, decide_eq_true hj, Bool.true_and] at hb
  exact h j hj hb hfit

/-- Settles O57: by the cases of `exec_did`; only a write stores, and only under its 1 bits. -/
theorem encoderInstructionsLeaveTheRestAlone : Obligations.EncoderInstructionsLeaveTheRestAlone := by
  unfold Obligations.EncoderInstructionsLeaveTheRestAlone
  intro i s t hi he
  cases exec_did he with
  | illegal => exact ⟨rfl, rfl, rfl, rfl, rfl, fun _ => rfl, fun _ => rfl, fun _ _ => rfl, fun _ _ _ _ => rfl⟩
  | badNew => exact ⟨rfl, rfl, rfl, rfl, rfl, fun _ => rfl, fun _ => rfl, fun _ _ => rfl, fun _ _ _ _ => rfl⟩
  | encNew buf off u hi' hu =>
    subst hi'
    exact ⟨rfl, rfl, rfl, rfl, rfl, fun hn => by simp [isEncNew] at hn,
      fun hw => by simp [isWrite, isEncWrite, isWriteCursorOp] at hw, fun _ _ => rfl, fun _ _ _ _ => rfl⟩
  | write u hw hu =>
    refine ⟨rfl, rfl, rfl, rfl, rfl, fun _ => rfl, fun _ => ?_, fun hn => by simp [hw] at hn, fun v hv a ha => ?_⟩
    · simp [hu, putRun_buffer (runOf i) s.mem u]
    · obtain rfl := Option.some.inj (hu.symm.trans hv)
      exact read_putRun_runOf i s.mem u a ha
  | close u hi' hu =>
    subst hi'
    exact ⟨rfl, rfl, rfl, rfl, rfl, fun _ => rfl, fun hw => by simp [isWrite, isEncWrite, isWriteCursorOp] at hw,
      fun _ _ => rfl, fun _ _ _ _ => rfl⟩
  | decNew buf off u hi' hu ho => exact (not_both_sides (.inr (by rw [hi']; rfl)) hi).elim
  | read u hr hu ht => exact (not_both_sides (.inl hr) hi).elim

end Sys2Proof.Machine
end

section
/-!
PROOFS. Cursors step only inside commands, and a command run turn by turn is the whole command (spec 00_scope R8, R9,
10_state R25, 70_reset R128): O60.
-/

namespace Sys2Proof.Machine

/-! ## A cursor steps only inside a command of its unit (spec 00_scope R9) -/

/-- Only a read and a `DEC.NEW` change the Decoder's registers. -/
theorem exec_changes_dec {i : Instr} {s t : State} (he : exec i s = .next t) (hd : t.dec ≠ s.dec) :
    isRead i = true ∨ isDecNew i = true := by
  cases exec_did he with
  | read u hr hu ht => exact .inl hr
  | decNew buf off u hi hu ho => exact .inr (by rw [hi]; rfl)
  | illegal => exact absurd rfl hd
  | badNew => exact absurd rfl hd
  | encNew buf off u hi hu => exact absurd rfl hd
  | write u hw hu => exact absurd rfl hd
  | close u hi hu => exact absurd rfl hd

/-- Only a write, an `ENC.NEW` and an `ENC.CLOSE` change the Encoder's registers. -/
theorem exec_changes_enc {i : Instr} {s t : State} (he : exec i s = .next t) (hd : t.enc ≠ s.enc) :
    isWrite i = true ∨ isEncNew i = true ∨ i = .encClose := by
  cases exec_did he with
  | write u hw hu => exact .inl hw
  | encNew buf off u hi hu => exact .inr (.inl (by rw [hi]; rfl))
  | close u hi hu => exact .inr (.inr hi)
  | illegal => exact absurd rfl hd
  | badNew => exact absurd rfl hd
  | decNew buf off u hi hu ho => exact absurd rfl hd
  | read u hr hu ht => exact absurd rfl hd

/-- Taking up a host command runs the whole of it or leaves the registers alone. -/
theorem takeUp_exec_or_same {c : HostCommand} {i : Instr} {s t : State} (hi : decode (.command c) = .ok i)
    (he : takeUp i s = .next t) : exec i s = .next t ∨ (t.dec = s.dec ∧ t.enc = s.enc) := by
  rcases takeUp_did (decode_command_ne_micro hi) he with he | ⟨ph, -, -, -, -, rfl⟩ | ⟨ph, -, -, -, rfl⟩
  · exact .inl he
  · exact .inr ⟨rfl, rfl⟩
  · exact .inr ⟨rfl, rfl⟩

/-- A host command that changes the Decoder's registers is a Decoder command. -/
theorem hostCommand_changes_dec {c : HostCommand} {i : Instr} {s t : State} (hi : decode (.command c) = .ok i)
    (he : exec i s = .next t ∨ (t.dec = s.dec ∧ t.enc = s.enc)) (hd : t.dec ≠ s.dec) :
    isDecRead i = true ∨ isDecNew i = true := by
  rcases he with he | ⟨hsame, -⟩
  · simpa [isRead, (decode_command_ne_micro hi).1] using exec_changes_dec he hd
  · exact absurd hsame hd

/-- A host command that changes the Encoder's registers is an Encoder command. -/
theorem hostCommand_changes_enc {c : HostCommand} {i : Instr} {s t : State} (hi : decode (.command c) = .ok i)
    (he : exec i s = .next t ∨ (t.dec = s.dec ∧ t.enc = s.enc)) (hd : t.enc ≠ s.enc) :
    isEncWrite i = true ∨ isEncNew i = true ∨ i = .encClose := by
  rcases he with he | ⟨-, hsame⟩
  · simpa [isWrite, (decode_command_ne_micro hi).2] using exec_changes_enc he hd
  · exact absurd hsame hd

/-- A turn that changes the Decoder's registers is the Decoder's, with a command in progress. -/
theorem issue_changes_dec {side : Side} {s t : State} (he : issue side s = .next t) (hd : t.dec ≠ s.dec) :
    side = .dec ∧ s.decCmd ≠ none := by
  cases side with
  | dec =>
    rcases issue_dec_did he with ⟨-, rfl⟩ | ⟨ph, t', hc, -, -⟩
    · exact absurd rfl hd
    · exact ⟨rfl, by simp [hc]⟩
  | enc =>
    rcases issue_enc_did he with ⟨-, rfl⟩ | ⟨ph, t', -, ht, rfl⟩
    · exact absurd rfl hd
    · exact (not_both_sides (exec_changes_dec ht (by simpa using hd)) (.inl (encOp_isWrite ph))).elim

/-- A turn that changes the Encoder's registers is the Encoder's, with a command in progress. -/
theorem issue_changes_enc {side : Side} {s t : State} (he : issue side s = .next t) (hd : t.enc ≠ s.enc) :
    side = .enc ∧ s.encCmd ≠ none := by
  cases side with
  | dec =>
    rcases issue_dec_did he with ⟨-, rfl⟩ | ⟨ph, t', -, ht, rfl⟩
    · exact absurd rfl hd
    · exact (not_both_sides (.inl (decOp_isRead ph)) (exec_changes_enc ht (by simpa using hd))).elim
  | enc =>
    rcases issue_enc_did he with ⟨-, rfl⟩ | ⟨ph, t', hc, -, -⟩
    · exact absurd rfl hd
    · exact ⟨rfl, by simp [hc]⟩

/-- A step that changes the Decoder's registers. -/
theorem step_changes_dec {s t : State} (hs : step s = .next t) (hd : t.dec ≠ s.dec) :
    (s.decCmd = none ∧ ∃ c i rest, (s.inbox = .command c :: rest ∨ s.inbox = .start c :: rest) ∧
      decode (.command c) = .ok i ∧ (isDecRead i = true ∨ isDecNew i = true)) ∨
    (s.decCmd ≠ none ∧ issue .dec { s with inbox := t.inbox } = .next t) ∨
    (∃ r rest, s.inbox = r :: rest ∧ (r = .reset ∨ ∃ c, r = .resetDuring c)) := by
  cases step_did hs with
  | ran c i rest t hr hi hb he =>
    have hk := hostCommand_changes_dec hi (.inl he) hd
    exact .inl ⟨decCmd_eq_none hb hk, c, i, rest, .inl hr, hi, hk⟩
  | tookUp c i rest t hr hi hb he =>
    have hk := hostCommand_changes_dec hi (takeUp_exec_or_same hi he) hd
    exact .inl ⟨decCmd_eq_none hb hk, c, i, rest, .inr hr, hi, hk⟩
  | illegal c rest hr => exact absurd rfl hd
  | issued side l t he =>
    obtain ⟨rfl, hc⟩ := issue_changes_dec he hd
    obtain rfl : t.inbox = l := issue_inbox he
    exact .inr (.inl ⟨hc, he⟩)
  | reset bs r rest hr hk => exact .inr (.inr ⟨r, rest, hr, hk⟩)
  | stored a v rest hr hh => exact absurd rfl hd

/-- A step that changes the Encoder's registers. -/
theorem step_changes_enc {s t : State} (hs : step s = .next t) (hd : t.enc ≠ s.enc) :
    (s.encCmd = none ∧ ∃ c i rest, (s.inbox = .command c :: rest ∨ s.inbox = .start c :: rest) ∧
      decode (.command c) = .ok i ∧ (isEncWrite i = true ∨ isEncNew i = true ∨ i = .encClose)) ∨
    (s.encCmd ≠ none ∧ issue .enc { s with inbox := t.inbox } = .next t) ∨
    (∃ r rest, s.inbox = r :: rest ∧ (r = .reset ∨ ∃ c, r = .resetDuring c)) := by
  cases step_did hs with
  | ran c i rest t hr hi hb he =>
    have hk := hostCommand_changes_enc hi (.inl he) hd
    exact .inl ⟨encCmd_eq_none hb hk, c, i, rest, .inl hr, hi, hk⟩
  | tookUp c i rest t hr hi hb he =>
    have hk := hostCommand_changes_enc hi (takeUp_exec_or_same hi he) hd
    exact .inl ⟨encCmd_eq_none hb hk, c, i, rest, .inr hr, hi, hk⟩
  | illegal c rest hr => exact absurd rfl hd
  | issued side l t he =>
    obtain ⟨rfl, hc⟩ := issue_changes_enc he hd
    obtain rfl : t.inbox = l := issue_inbox he
    exact .inr (.inl ⟨hc, he⟩)
  | reset bs r rest hr hk => exact .inr (.inr ⟨r, rest, hr, hk⟩)
  | stored a v rest hr hh => exact absurd rfl hd

/-! ## Steps one after another, and turns of an idle unit -/

/-- The first of some steps. -/
theorem stepTimes_succ {s t : State} (n : Nat) (h : step s = .next t) : stepTimes (n + 1) s = stepTimes n t := by
  simp only [stepTimes, h]

/-- The turn of a unit with no command in progress does nothing (R9). -/
theorem issue_idle {side : Side} {s : State} (hb : s.busy side = false) : issue side s = .next s := by
  cases side with
  | dec =>
    have hc : s.decCmd = none := by simpa [State.busy] using hb
    simp only [issue, hc]
  | enc =>
    have hc : s.encCmd = none := by simpa [State.busy] using hb
    simp only [issue, hc]

/-- The turns of a unit with no command in progress only use their requests up. -/
theorem stepTimes_idle {side : Side} {s : State} {n : Nat} {rest : List Request} (hb : s.busy side = false)
    (hin : s.inbox = List.replicate n (.issue side) ++ rest) : stepTimes n s = .next { s with inbox := rest } := by
  induction n generalizing s with
  | zero =>
    obtain rfl : s.inbox = rest := hin
    rfl
  | succ n ih =>
    have hs : step s = issue side { s with inbox := List.replicate n (.issue side) ++ rest } :=
      step_issue (by rw [hin, List.replicate_succ, List.cons_append])
    rw [issue_idle (s := { s with inbox := List.replicate n (.issue side) ++ rest }) (by cases side <;> exact hb)] at hs
    rw [stepTimes_succ n hs]
    exact ih (by cases side <;> exact hb) rfl

/-! ## The Decoder's command, one cursor operation at a time (spec 10_state R25, 41 R79 to R85) -/

/-- What a value command makes of its suffix phase. -/
def suffixAnswer (signed : Bool) (k : Nat) : Result Nat × Binding → Response × Binding
  | (.fail e, u) => (.fail e, u)
  | (.ok suffix, u) => (valueAnswer signed k suffix, u)

/-- What a command does after `k` zeros and their terminator. -/
def afterTerminator (m : Memory) (k : Nat) : Goal → Binding → Response × Binding
  | .value signed, u => suffixAnswer signed k (suffixPhase m k 0 u)
  | .skip, u => (.ok .empty, skipBits k u)

/-- What a command makes of its count of zeros. -/
def countAnswer (m : Memory) (g : Goal) : Result Nat × Binding → Response × Binding
  | (.fail e, u) => (.fail e, u)
  | (.ok k, u) => afterTerminator m k g u

/-- What the rest of a Decoder command in progress computes from its buffer and cursor: its answer and where the cursor ends. -/
def DecPhase.finish (m : Memory) (u : Binding) : DecPhase → Response × Binding
  | .bit => readFn .decNextBit m u
  | .count k g => countAnswer m g (countZeros m (65 - k) k u)
  | .suffix k left read signed => suffixAnswer signed k (suffixPhase m left read u)
  | .skip k => (.ok .empty, skipBits k u)

/-- The rest of a command after its unit has taken an answer. -/
def Advance.finishDec (m : Memory) (u : Binding) : Advance DecPhase → Response × Binding
  | .goOn ph => ph.finish m u
  | .done r => (r, u)

/-- How many more turns a Decoder command in progress takes at most: `129` for a whole value command (R128). -/
def DecPhase.turns : DecPhase → Nat
  | .bit => 1
  | .count k _ => 129 - k
  | .suffix _ left _ _ => left
  | .skip _ => 1

/-- A command in progress has a turn before it. -/
theorem DecPhase.turns_pos {ph : DecPhase} (h : ph.ok = true) : 0 < ph.turns := by
  cases ph <;> simp only [DecPhase.ok, decide_eq_true_eq] at h <;> simp only [DecPhase.turns] <;> omega

/-- After the terminator the rest of the command is what follows that many zeros. -/
theorem finishDec_afterPrefix (m : Memory) (k : Nat) (g : Goal) (u : Binding) :
    (afterPrefix k g).finishDec m u = afterTerminator m k g u := by
  cases g with
  | skip => rfl
  | value signed =>
    rw [afterPrefix]
    split
    · next hk => subst hk; rfl
    · rfl

/-- One cursor operation and what the Decoder makes of its answer does not change what the command computes. -/
theorem finish_eq_finishDec {ph : DecPhase} (h : ph.ok = true) (m : Memory) (u : Binding) :
    ph.finish m u = (advanceDec ph (readFn (decOp ph) m u).1).finishDec m (readFn (decOp ph) m u).2 := by
  cases ph with
  | bit =>
    simp only [DecPhase.finish, readFn, decOp]
    cases (nextBit m u).1 <;> rfl
  | skip k =>
    simp only [DecPhase.ok, decide_eq_true_eq] at h
    simp [DecPhase.finish, readFn, decOp, advanceDec, Advance.finishDec, Nat.mod_eq_of_lt (show k < 128 by omega)]
  | count k g =>
    simp only [DecPhase.ok, decide_eq_true_eq] at h
    simp only [DecPhase.finish, readFn, decOp, show 65 - k = 64 - k + 1 by omega, countZeros]
    rcases hn : nextBit m u with ⟨r, u'⟩
    rcases r with (_ | _) | e
    · by_cases hk : k = 64
      · subst hk; rfl
      · simp [advanceDec, Payload.toBit, Config.kMax, hk, Advance.finishDec, DecPhase.finish]
    · simp only [respond_ok, advanceDec, Payload.toBit, if_true, finishDec_afterPrefix, countAnswer]
    · rfl
  | suffix k left read signed =>
    simp only [DecPhase.ok, decide_eq_true_eq] at h
    obtain ⟨left, rfl⟩ : ∃ l, left = l + 1 := ⟨left - 1, by omega⟩
    simp only [DecPhase.finish, readFn, decOp, suffixPhase]
    rcases hn : nextBit m u with ⟨r, u'⟩
    rcases r with b | e
    · by_cases hl : left = 0
      · subst hl; rfl
      · simp [advanceDec, Payload.toBit, hl, Advance.finishDec, DecPhase.finish]
    · rfl

/-- After `k` zeros and their terminator at most `k` turns are left, or the one of a skip. -/
theorem turns_of_afterPrefix {k : Nat} {g : Goal} {ph : DecPhase} (h : afterPrefix k g = .goOn ph) : ph.turns ≤ max k 1 := by
  cases g with
  | skip =>
    obtain rfl := Advance.goOn.inj h
    exact le_max_right k 1
  | value signed =>
    rw [afterPrefix] at h
    split at h
    · simp at h
    · obtain rfl := Advance.goOn.inj h
      exact le_max_left k 1

/-- A Decoder that goes on has fewer turns before it. -/
theorem DecPhase.turns_lt_of_goOn {ph ph' : DecPhase} {r : Response} (h : ph.ok = true)
    (ha : advanceDec ph r = .goOn ph') : ph'.turns < ph.turns := by
  cases r with
  | fail e => simp [advanceDec] at ha
  | ok p =>
    cases ph with
    | bit => simp [advanceDec] at ha
    | skip k => simp [advanceDec] at ha
    | count k g =>
      simp only [DecPhase.ok, decide_eq_true_eq] at h
      simp only [advanceDec] at ha
      split at ha
      · have := turns_of_afterPrefix ha
        show ph'.turns < 129 - k
        omega
      · split at ha
        · simp at ha
        · obtain rfl := Advance.goOn.inj ha
          show 129 - (k + 1) < 129 - k
          omega
    | suffix k left read signed =>
      simp only [advanceDec] at ha
      split at ha
      · simp at ha
      · obtain rfl := Advance.goOn.inj ha
        show left - 1 < left
        omega

/-- Enough turns of a Decoder run its command in progress to its end. -/
theorem stepTimes_issue_dec {n : Nat} {s : State} {u : Binding} {ph : DecPhase} {rest : List Request} (hd : s.dec = some u)
    (ht : s.decTaken = false) (hc : s.decCmd = some ph) (hok : ph.ok = true) (hn : ph.turns ≤ n)
    (hin : s.inbox = List.replicate n (.issue .dec) ++ rest) :
    stepTimes n s = .next { s with
      dec := some (ph.finish s.mem u).2, decCmd := none, resp := some (ph.finish s.mem u).1, inbox := rest } := by
  induction n generalizing s u ph with
  | zero => have := DecPhase.turns_pos hok; omega
  | succ n ih =>
    have hs : step s = issue .dec { s with inbox := List.replicate n (.issue .dec) ++ rest } :=
      step_issue (by rw [hin, List.replicate_succ, List.cons_append])
    rw [issue_dec_bound (s := { s with inbox := List.replicate n (.issue .dec) ++ rest }) hc hd ht] at hs
    rw [stepTimes_succ n hs, finish_eq_finishDec hok]
    cases ha : advanceDec ph (readFn (decOp ph) s.mem u).1 with
    | done r => exact stepTimes_idle (side := .dec) rfl rfl
    | goOn ph' =>
      have hlt := DecPhase.turns_lt_of_goOn hok ha
      exact ih rfl ht rfl (advanceDec_ok hok ha) (by omega) rfl

/-! ## The Encoder's command, one cursor operation at a time (spec 10_state R25, 43 R94, R95) -/

/-- The rest of a command after its unit has taken an answer. -/
def Advance.finishEnc (m : Memory) (u : Binding) : Advance EncPhase → Response × Memory × Option Binding
  | .goOn ph => writeAnswer (putRun (pendingRun ph) m u)
  | .done r => (r, m, some u)

/-- How many more turns an Encoder command in progress takes. -/
def EncPhase.turns : EncPhase → Nat
  | .bit _ => 1
  | .zeros _ _ _ => 2
  | .bits _ _ => 1

/-- A command in progress has a turn before it. -/
theorem EncPhase.turns_pos (ph : EncPhase) : 0 < ph.turns := by cases ph <;> simp [EncPhase.turns]

/-- One cursor operation and what the Encoder makes of its answer does not change what is written. -/
theorem writeAnswer_eq_finishEnc {ph : EncPhase} (h : ph.ok = true) (m : Memory) (u : Binding) :
    writeAnswer (putRun (pendingRun ph) m u) =
      (advanceEnc ph ((putRun (runOf (encOp ph)) m u).1.respond (fun _ => .empty))).finishEnc
        (putRun (runOf (encOp ph)) m u).2.1 (putRun (runOf (encOp ph)) m u).2.2 := by
  cases ph with
  | bit b =>
    rcases hw : putRun [b] m u with ⟨r, m', u'⟩
    cases r <;> simp [pendingRun, encOp, runOf, hw, advanceEnc, Advance.finishEnc, writeAnswer]
  | bits src start =>
    rcases hw : putRun (sourceRun src start) m u with ⟨r, m', u'⟩
    cases r <;> simp [pendingRun, encOp, runOf, hw, advanceEnc, Advance.finishEnc, writeAnswer]
  | zeros n src start =>
    simp only [EncPhase.ok, decide_eq_true_eq] at h
    simp only [pendingRun, encOp, runOf, Nat.mod_eq_of_lt (show n < 128 by omega), putRun_append]
    rcases hw : putRun (List.replicate n false) m u with ⟨r, m', u'⟩
    cases r <;> rfl

/-- An Encoder that goes on has fewer turns before it. -/
theorem EncPhase.turns_lt_of_goOn {ph ph' : EncPhase} {r : Response} (ha : advanceEnc ph r = .goOn ph') :
    ph'.turns < ph.turns := by
  cases r with
  | fail e => simp [advanceEnc] at ha
  | ok p =>
    cases ph with
    | bit b => simp [advanceEnc] at ha
    | bits src start => simp [advanceEnc] at ha
    | zeros n src start => simp only [advanceEnc, Advance.goOn.injEq] at ha; subst ha; simp [EncPhase.turns]

/-- Enough turns of an Encoder run its command in progress to its end. -/
theorem stepTimes_issue_enc {n : Nat} {s : State} {u : Binding} {ph : EncPhase} {rest : List Request} (he : s.enc = some u)
    (hc : s.encCmd = some ph) (hok : ph.ok = true) (hn : ph.turns ≤ n)
    (hin : s.inbox = List.replicate n (.issue .enc) ++ rest) :
    stepTimes n s = .next { s with
      enc := (writeAnswer (putRun (pendingRun ph) s.mem u)).2.2
      encCmd := none
      mem := (writeAnswer (putRun (pendingRun ph) s.mem u)).2.1
      resp := some (writeAnswer (putRun (pendingRun ph) s.mem u)).1
      inbox := rest } := by
  induction n generalizing s u ph with
  | zero => have := ph.turns_pos; omega
  | succ n ih =>
    have hs : step s = issue .enc { s with inbox := List.replicate n (.issue .enc) ++ rest } :=
      step_issue (by rw [hin, List.replicate_succ, List.cons_append])
    rw [issue_enc_bound (s := { s with inbox := List.replicate n (.issue .enc) ++ rest }) hc he] at hs
    rw [stepTimes_succ n hs, writeAnswer_eq_finishEnc hok]
    cases ha : advanceEnc ph ((putRun (runOf (encOp ph)) s.mem u).1.respond (fun _ => .empty)) with
    | done r => exact stepTimes_idle (side := .enc) rfl rfl
    | goOn ph' =>
      have hlt := EncPhase.turns_lt_of_goOn ha
      exact ih rfl rfl (advanceEnc_ok hok ha) (by omega) rfl

/-! ## The first phase of a command computes the command -/

/-- A value command from its first phase on (R82, R84). -/
theorem finish_value (signed : Bool) (m : Memory) (u : Binding) :
    (DecPhase.count 0 (.value signed)).finish m u =
      ((nextUnsigned m u).1.respond (fun v => .data (if signed then u2s v else v)), (nextUnsigned m u).2) := by
  simp only [DecPhase.finish, nextUnsigned, prefixPhase]
  obtain ⟨r, u'⟩ := countZeros m (Config.kMax + 1) 0 u
  cases r with
  | fail e => rfl
  | ok k =>
    simp only [countAnswer, afterTerminator]
    obtain ⟨r, u''⟩ := suffixPhase m k 0 u'
    cases r <;> rfl

/-- `DEC.SKIP_NEXT` from its first phase on (R85). -/
theorem finish_skip (m : Memory) (u : Binding) :
    (DecPhase.count 0 .skip).finish m u = ((skipNext m u).1.respond (fun _ => .empty), (skipNext m u).2) := by
  simp only [DecPhase.finish, skipNext, prefixPhase]
  obtain ⟨r, u'⟩ := countZeros m (Config.kMax + 1) 0 u
  cases r <;> rfl

/-- Bit `q` of the 9-byte big-endian image of `x` is its bit `71 − q` (R95). -/
theorem sourceBit_image65 (x : Nat) {q : Nat} (h : q < 72) : sourceBit (image65 x) q = x.testBit (71 - q) := by
  have hbyte : (image65 x).getD (q / 8) 0 = BitVec.ofNat 8 (x >>> (8 * (8 - q / 8))) := by
    simp [image65, List.getD_eq_getElem?_getD, List.getElem?_range (show q / 8 < 9 by omega)]
  rw [sourceBit, hbyte, BitVec.getLsbD_ofNat, Nat.testBit_shiftRight, show 8 * (8 - q / 8) + (7 - q % 8) = 71 - q by omega,
    decide_eq_true (by omega), Bool.true_and]

/-- Dropping whole bytes of a source sequence. -/
theorem sourceBit_drop (src : List Byte) (p i : Nat) : sourceBit (src.drop (p / 8)) (p % 8 + i) = sourceBit src (p + i) := by
  have hdiv : p / 8 + (p % 8 + i) / 8 = (p + i) / 8 := by omega
  have hmod : (p % 8 + i) % 8 = (p + i) % 8 := by omega
  simp only [sourceBit, List.getD_eq_getElem?_getD, List.getElem?_drop, hdiv, hmod]

/-- The run of the byte image of `x` from bit `71 − k` on is the `k + 1` low bits of `x` (R95). -/
theorem sourceRun_image65 (x : Nat) {k : Nat} (h : k ≤ 71) :
    sourceRun ((image65 x).drop ((71 - k) / 8)) ((71 - k) % 8) = bitsDown x k := by
  have hlen : (image65 x).length = 9 := by simp [image65]
  refine List.ext_getElem (by simp [sourceRun_length, bitsDown_length, hlen]; omega) fun i h1 h2 => ?_
  rw [bitsDown_length] at h2
  simp only [sourceRun, bitsDown, List.getElem_map, List.getElem_range', List.getElem_range, Nat.one_mul, sourceBit_drop]
  rw [sourceBit_image65 x (by omega), show 71 - (71 - k + i) = k - i by omega]

/-- What `ENC.PUT_UNSIGNED` has to write when it is taken up is the codeword (R95, R97). -/
theorem pendingRun_firstZeros (v : Word64) : pendingRun (firstZeros v) = codeword v := by
  have hk := zeroRunOf_le v
  rw [firstZeros, pendingRun, sourceRun_image65 (xOf v) (by omega), codeword]

/-- The operands of `ENC.PUT_UNSIGNED` are in the ranges of R63. -/
theorem firstZeros_ok (v : Word64) : (firstZeros v).ok = true := by
  have := zeroRunOf_le v
  simp only [firstZeros, EncPhase.ok, image65, List.length_drop, List.length_map, List.length_range, decide_eq_true_eq]
  omega

/-! ## A command taken up and then run turn by turn is the whole command (spec 00_scope R8, 10_state R25, R128) -/

section
variable {s : State} {i : Instr} {n : Nat} {rest : List Request}

/-- A command that is done at once, its unit's turns then idle. -/
theorem stepTimes_exec (hb : s.busy (sideOf i) = false)
    (hs : step s = exec i { s with inbox := List.replicate n (.issue (sideOf i)) ++ rest }) :
    stepTimes (n + 1) s = exec i { s with inbox := rest } := by
  have hin := exec_inbox i (List.replicate n (.issue (sideOf i)) ++ rest) { s with inbox := rest }
  simp only [State.withInbox] at hin
  rw [hin] at hs
  cases he : exec i { s with inbox := rest } with
  | next t =>
    rw [he] at hs
    have hbt : t.busy (sideOf i) = false := by
      obtain ⟨hd, hc⟩ := exec_cmd_frame he
      rw [← hb]
      cases sideOf i <;> simp [State.busy, hd, hc]
    obtain rfl : t.inbox = rest := (exec_host_frame he).1
    rw [stepTimes_succ n hs]
    exact stepTimes_idle (side := sideOf i) hbt rfl
  | fault e => rw [he] at hs; simp only [stepTimes, hs, onNext_fault]
  | refused e => rw [he] at hs; simp only [stepTimes, hs, onNext_refused]

/-- A Decoder command taken up in its first phase and run turn by turn. -/
theorem stepTimes_beginDec {ph : DecPhase} (hi : isRead i = true) (hb : s.busy .dec = false) (hok : ph.ok = true)
    (hn : ph.turns ≤ n) (hfin : ∀ m u, ph.finish m u = readFn i m u)
    (hs : step s = beginDec i ph { s with inbox := List.replicate n (.issue .dec) ++ rest }) :
    stepTimes (n + 1) s = exec i { s with inbox := rest } := by
  have hside : sideOf i = .dec := sideOf_eq_dec (.inl hi)
  have hc : s.decCmd = none := by simpa [State.busy] using hb
  rw [beginDec] at hs
  split at hs
  · next hbound =>
    simp only [Bool.and_eq_true, Option.isSome_iff_exists, Bool.not_eq_true'] at hbound
    obtain ⟨⟨u, hu⟩, ht⟩ := hbound
    have hrun := stepTimes_issue_dec (s := State.setDecCmd { s with inbox := List.replicate n (.issue .dec) ++ rest } ph)
      hu ht rfl hok hn rfl
    rw [stepTimes_succ n hs, hrun, hfin, exec_read (s := { s with inbox := rest }) hi hu ht]
    simp only [State.setDecCmd, hc]
  · exact stepTimes_exec (hside ▸ hb) (hside ▸ hs)

/-- An Encoder command taken up in its first phase and run turn by turn. -/
theorem stepTimes_beginEnc {ph : EncPhase} (hi : isWrite i = true) (hb : s.busy .enc = false) (hok : ph.ok = true)
    (hn : ph.turns ≤ n) (hfin : pendingRun ph = runOf i)
    (hs : step s = beginEnc i ph { s with inbox := List.replicate n (.issue .enc) ++ rest }) :
    stepTimes (n + 1) s = exec i { s with inbox := rest } := by
  have hside : sideOf i = .enc := sideOf_eq_enc (.inl hi)
  have hc : s.encCmd = none := by simpa [State.busy] using hb
  rw [beginEnc] at hs
  split at hs
  · next hbound =>
    obtain ⟨u, hu⟩ := Option.isSome_iff_exists.1 hbound
    have hrun := stepTimes_issue_enc (s := State.setEncCmd { s with inbox := List.replicate n (.issue .enc) ++ rest } ph)
      hu rfl hok hn rfl
    rw [stepTimes_succ n hs, hrun, hfin, exec_write (s := { s with inbox := rest }) hi hu]
    simp only [State.setEncCmd, hc, writeAnswer]
  · exact stepTimes_exec (hside ▸ hb) (hside ▸ hs)

end

/-- A host command that its unit takes up, with the 129 turns that the longest command needs, is the whole command. -/
theorem stepTimes_start {s : State} {c : HostCommand} {i : Instr} {rest : List Request} (hi : decode (.command c) = .ok i)
    (hin : s.inbox = .start c :: (List.replicate 129 (.issue (sideOf i)) ++ rest)) (hb : s.busy (sideOf i) = false) :
    stepTimes 130 s = exec i { s with inbox := rest } := by
  have hs := step_start hin hi hb
  have hn := decode_command_ne_micro hi
  cases i with
  | decNew buf off => exact stepTimes_exec hb hs
  | encNew buf off => exact stepTimes_exec hb hs
  | encClose => exact stepTimes_exec hb hs
  | decNextBit => exact stepTimes_beginDec rfl hb rfl (by decide) (fun _ _ => rfl) hs
  | decNextUnsigned => exact stepTimes_beginDec rfl hb rfl (by decide) (finish_value false) hs
  | decNextSigned => exact stepTimes_beginDec rfl hb rfl (by decide) (finish_value true) hs
  | decSkipNext => exact stepTimes_beginDec rfl hb rfl (by decide) finish_skip hs
  | encPutBit b => exact stepTimes_beginEnc rfl hb rfl (by simp [EncPhase.turns]) rfl hs
  | encPutUnsigned v =>
    exact stepTimes_beginEnc rfl hb (firstZeros_ok v) (by simp [firstZeros, EncPhase.turns]) (pendingRun_firstZeros v) hs
  | rcNextBit => simp [isReadCursorOp] at hn
  | rcSkipBits n => simp [isReadCursorOp] at hn
  | wcPutBit b => simp [isWriteCursorOp] at hn
  | wcPutZeros n => simp [isWriteCursorOp] at hn
  | wcPutBits src start => simp [isWriteCursorOp] at hn

/-- Settles O60: a step that changes a cursor by the cases of `step_did`; a command taken up by running its phases to the end. -/
theorem cursorsStepOnlyInsideCommands : Obligations.CursorsStepOnlyInsideCommands := by
  unfold Obligations.CursorsStepOnlyInsideCommands
  exact ⟨fun s t hs => ⟨step_changes_dec hs, step_changes_enc hs⟩,
    fun s c i rest hi hin hb => stepTimes_start hi hin hb⟩

end Sys2Proof.Machine
end

section
/-!
PROOFS. Only a NEW, a CLOSE or a reset changes a binding (spec 10_state R27, R28): O14.
-/

namespace Sys2Proof.Machine

/-- The buffer a unit is bound to, its base and length, if it is bound (R27). -/
abbrev bufferOf (o : Option Binding) : Option (Nat × Nat) := o.map (fun u => (u.base, u.len))

/-- Two bindings of the same base and length are of the same buffer. -/
theorem bufferOf_some {u u' : Binding} (h : u'.base = u.base ∧ u'.len = u.len) :
    bufferOf (some u') = bufferOf (some u) := by
  simp only [bufferOf, Option.map_some, h]

/-- Only a `DEC.NEW` answered Ok binds the Decoder to another buffer. -/
theorem exec_changes_decBuffer {i : Instr} {s t : State} (he : exec i s = .next t)
    (hd : bufferOf t.dec ≠ bufferOf s.dec) : isDecNew i = true ∧ t.resp = some (.ok .empty) := by
  cases exec_did he with
  | decNew buf off u hi hu ho => exact ⟨by rw [hi]; rfl, rfl⟩
  | read u hr hu ht => exact absurd ((bufferOf_some (readFn_buffer i s.mem u)).trans (by rw [hu])) hd
  | illegal => exact absurd rfl hd
  | badNew => exact absurd rfl hd
  | encNew buf off u hi hu => exact absurd rfl hd
  | write u hw hu => exact absurd rfl hd
  | close u hi hu => exact absurd rfl hd

/-- Only an `ENC.NEW` answered Ok and an `ENC.CLOSE` that unbinds change the Encoder's buffer. -/
theorem exec_changes_encBuffer {i : Instr} {s t : State} (he : exec i s = .next t)
    (hd : bufferOf t.enc ≠ bufferOf s.enc) :
    (isEncNew i = true ∧ t.resp = some (.ok .empty)) ∨ (i = .encClose ∧ t.enc = none) := by
  cases exec_did he with
  | encNew buf off u hi hu => exact .inl ⟨by rw [hi]; rfl, rfl⟩
  | close u hi hu => exact .inr ⟨hi, rfl⟩
  | write u hw hu => exact absurd ((bufferOf_some (putRun_buffer (runOf i) s.mem u)).trans (by rw [hu])) hd
  | illegal => exact absurd rfl hd
  | badNew => exact absurd rfl hd
  | decNew buf off u hi hu ho => exact absurd rfl hd
  | read u hr hu ht => exact absurd rfl hd

/-- A unit's turn changes no binding's buffer: its cursor operations are no NEW and no CLOSE. -/
theorem issue_keeps_buffers {side : Side} {s t : State} (he : issue side s = .next t) :
    bufferOf t.dec = bufferOf s.dec ∧ bufferOf t.enc = bufferOf s.enc := by
  have keeps : ∀ {i : Instr} {t' : State}, exec i s = .next t' →
      isDecNew i = false ∧ isEncNew i = false ∧ i ≠ .encClose →
      bufferOf t'.dec = bufferOf s.dec ∧ bufferOf t'.enc = bufferOf s.enc := by
    rintro i t' he ⟨hdn, hen, hcl⟩
    constructor
    · by_contra hd
      simpa [hdn] using exec_changes_decBuffer he hd
    · by_contra hd
      simpa [hen, hcl] using exec_changes_encBuffer he hd
  cases side with
  | dec =>
    rcases issue_dec_did he with ⟨-, rfl⟩ | ⟨ph, t', -, ht, rfl⟩
    · exact ⟨rfl, rfl⟩
    · simpa using keeps ht (by cases ph <;> simp [decOp, isDecNew, isEncNew])
  | enc =>
    rcases issue_enc_did he with ⟨-, rfl⟩ | ⟨ph, t', -, ht, rfl⟩
    · exact ⟨rfl, rfl⟩
    · simpa using keeps ht (by cases ph <;> simp [encOp, isDecNew, isEncNew])

/-- A step that binds the Decoder to another buffer, or unbinds it. -/
theorem step_changes_decBuffer {s t : State} (hs : step s = .next t) (hd : bufferOf t.dec ≠ bufferOf s.dec) :
    ∃ r rest, s.inbox = r :: rest ∧ (r = .reset ∨ (∃ c, r = .resetDuring c) ∨
      ∃ c i, (r = .command c ∨ r = .start c) ∧ decode (.command c) = .ok i ∧ isDecNew i = true ∧
        t.resp = some (.ok .empty)) := by
  cases step_did hs with
  | ran c i rest t hr hi hb he =>
    exact ⟨_, rest, hr, .inr (.inr ⟨c, i, .inl rfl, hi, exec_changes_decBuffer he hd⟩)⟩
  | tookUp c i rest t hr hi hb he =>
    rcases takeUp_exec_or_same hi he with he | ⟨hsame, -⟩
    · exact ⟨_, rest, hr, .inr (.inr ⟨c, i, .inr rfl, hi, exec_changes_decBuffer he hd⟩)⟩
    · exact absurd (congrArg bufferOf hsame) hd
  | illegal c rest hr => exact absurd rfl hd
  | issued side l t he => exact absurd (issue_keeps_buffers he).1 hd
  | reset bs r rest hr hk => exact ⟨r, rest, hr, hk.imp_right .inl⟩
  | stored a v rest hr hh => exact absurd rfl hd

/-- A step that binds the Encoder to another buffer, or unbinds it. -/
theorem step_changes_encBuffer {s t : State} (hs : step s = .next t) (hd : bufferOf t.enc ≠ bufferOf s.enc) :
    ∃ r rest, s.inbox = r :: rest ∧ (r = .reset ∨ (∃ c, r = .resetDuring c) ∨
      ∃ c i, (r = .command c ∨ r = .start c) ∧ decode (.command c) = .ok i ∧
        ((isEncNew i = true ∧ t.resp = some (.ok .empty)) ∨ (i = .encClose ∧ t.enc = none))) := by
  cases step_did hs with
  | ran c i rest t hr hi hb he =>
    exact ⟨_, rest, hr, .inr (.inr ⟨c, i, .inl rfl, hi, exec_changes_encBuffer he hd⟩)⟩
  | tookUp c i rest t hr hi hb he =>
    rcases takeUp_exec_or_same hi he with he | ⟨-, hsame⟩
    · exact ⟨_, rest, hr, .inr (.inr ⟨c, i, .inr rfl, hi, exec_changes_encBuffer he hd⟩)⟩
    · exact absurd (congrArg bufferOf hsame) hd
  | illegal c rest hr => exact absurd rfl hd
  | issued side l t he => exact absurd (issue_keeps_buffers he).2 hd
  | reset bs r rest hr hk => exact ⟨r, rest, hr, hk.imp_right .inl⟩
  | stored a v rest hr hh => exact absurd rfl hd

/-- Settles O14: by the cases of `step_did`; a read and a write leave base and length as they are. -/
theorem bindingsChangeOnlyByNewCloseAndReset : Obligations.BindingsChangeOnlyByNewCloseAndReset := by
  unfold Obligations.BindingsChangeOnlyByNewCloseAndReset
  exact fun s t hs => ⟨step_changes_decBuffer hs, step_changes_encBuffer hs⟩

end Sys2Proof.Machine
end

section
/-!
PROOFS. What a step writes, and when the host has taken the Decoder's buffer back (spec 10_state R28, R30, 20_memory R39, R43): O23,
O24.
-/

namespace Sys2Proof.Machine

/-! ## Who holds an address -/

/-- A unit holds an address exactly if it is bound to a buffer that the address lies in. -/
theorem heldAt_iff {o : Option Binding} {a : Nat} :
    heldAt o a = true ↔ ∃ u, o = some u ∧ u.base ≤ a ∧ a < u.base + u.len := by
  cases o <;> simp [heldAt, Binding.covers]

/-- A unit's buffer shares a byte with another exactly if each begins before the other ends. -/
theorem heldOver_iff {o : Option Binding} {v : Binding} :
    heldOver o v = true ↔ ∃ u, o = some u ∧ u.base < v.base + v.len ∧ v.base < u.base + u.len := by
  cases o <;> simp [heldOver, Binding.overlaps]

/-! ## What a step leaves of memory -/

/-- An instruction changes no byte outside the Encoder's buffer (R35). -/
theorem exec_read_outside {i : Instr} {s t : State} {a : Nat} (he : exec i s = .next t) (ha : heldAt s.enc a = false) :
    t.mem.read a = s.mem.read a := by
  cases exec_did he with
  | write u hw hu => exact read_putRun_outside (runOf i) s.mem u a (by simpa [heldAt, hu] using ha)
  | illegal => rfl
  | badNew => rfl
  | decNew buf off u hi hu ho => rfl
  | encNew buf off u hi hu => rfl
  | read u hr hu ht => rfl
  | close u hi hu => rfl

/-- Taking up a host command changes no byte outside the Encoder's buffer. -/
theorem takeUp_read_outside {c : HostCommand} {i : Instr} {s t : State} {a : Nat} (hi : decode (.command c) = .ok i)
    (he : takeUp i s = .next t) (ha : heldAt s.enc a = false) : t.mem.read a = s.mem.read a := by
  rcases takeUp_did (decode_command_ne_micro hi) he with he | ⟨ph, -, -, -, -, rfl⟩ | ⟨ph, -, -, -, rfl⟩
  · exact exec_read_outside he ha
  · rfl
  · rfl

/-- A unit's turn changes no byte outside the Encoder's buffer. -/
theorem issue_read_outside {side : Side} {s t : State} {a : Nat} (he : issue side s = .next t)
    (ha : heldAt s.enc a = false) : t.mem.read a = s.mem.read a := by
  cases side with
  | dec =>
    rcases issue_dec_did he with ⟨-, rfl⟩ | ⟨ph, t', -, ht, rfl⟩
    · rfl
    · simpa using exec_read_outside ht ha
  | enc =>
    rcases issue_enc_did he with ⟨-, rfl⟩ | ⟨ph, t', -, ht, rfl⟩
    · rfl
    · simpa using exec_read_outside ht ha

/-- In a state with the invariant the Encoder holds no byte of a Decoder's buffer that was not taken back (R43). -/
theorem State.Inv.encoder_apart {s : State} (h : s.Inv) {u : Binding} (hu : s.dec = some u) (ht : s.decTaken = false)
    {a : Nat} (ha : u.covers a = true) : heldAt s.enc a = false := by
  obtain ⟨-, -, -, hapart, -, -⟩ := h
  cases he : s.enc with
  | none => rfl
  | some e => simpa [heldAt] using covers_of_not_overlaps (hapart ht u hu e he) ha

/-- Settles O24: only a write of the Encoder and a store of the host change memory while the Decoder stays bound; the one stays
outside the Decoder's buffer, the other takes it back. -/
theorem decoderBufferIsImmutableWhileHeld : Obligations.DecoderBufferIsImmutableWhileHeld := by
  unfold Obligations.DecoderBufferIsImmutableWhileHeld
  intro s t u hInv hs hu ht hbound htaken a hlo hhi
  have ha : heldAt s.enc a = false := hInv.encoder_apart hu ht (by simp [Binding.covers, hlo, hhi])
  cases step_did hs with
  | ran c i rest t hr hi hb he => exact exec_read_outside (s := { s with inbox := rest }) he ha
  | tookUp c i rest t hr hi hb he => exact takeUp_read_outside (s := { s with inbox := rest }) hi he ha
  | illegal c rest hr => rfl
  | issued side l t he => exact issue_read_outside (s := { s with inbox := l }) he ha
  | reset bs r rest hr hk => exact absurd rfl hbound
  | stored b v rest hr hh =>
    have hb : heldAt s.dec b = false := (Bool.or_eq_false_iff.1 htaken).2
    have hheld : heldAt s.dec a = true := heldAt_iff.2 ⟨u, hu, hlo, hhi⟩
    have hne : a ≠ b := by rintro rfl; simp [hheld] at hb
    exact (read_write s.mem b a v).trans (if_neg hne)

/-! ## Taking the Decoder's buffer back -/

/-- The binding that NEW makes is of the buffer it was given (R78, R93). -/
theorem newBinding_buffer {buf : BufRef} {off : Word64} {u : Binding} (h : newBinding buf off = .ok u) :
    u.base = buf.base ∧ u.len = buf.len := by
  rw [newBinding_eq] at h
  split at h
  · simp at h
  · obtain rfl := Result.ok.inj h
    exact ⟨rfl, rfl⟩

/-- After an `ENC.NEW` answered Ok: taken back before, or by the new Encoder binding. -/
theorem decTaken_of_encNew {buf : BufRef} {off : Word64} {s t : State} (he : exec (.encNew buf off) s = .next t)
    (hr : t.resp = some (.ok .empty)) : ∃ v, newBinding buf off = .ok v ∧ t.decTaken = (s.decTaken || heldOver s.dec v) := by
  cases exec_did he with
  | encNew _ _ v hi hv =>
    obtain ⟨rfl, rfl⟩ := Instr.encNew.inj hi
    exact ⟨v, hv, rfl⟩
  | illegal => simp at hr
  | badNew => simp at hr
  | decNew _ _ _ hi => simp at hi
  | read _ hi => simp [isRead, isDecRead, isReadCursorOp] at hi
  | write _ hi => simp [isWrite, isEncWrite, isWriteCursorOp] at hi
  | close _ hi => simp at hi

/-- After a `DEC.NEW` answered Ok the Decoder's buffer is its own. -/
theorem decTaken_of_decNew {buf : BufRef} {off : Word64} {s t : State} (he : exec (.decNew buf off) s = .next t)
    (hr : t.resp = some (.ok .empty)) : t.decTaken = false := by
  cases exec_did he with
  | decNew => rfl
  | illegal => simp at hr
  | badNew => simp at hr
  | encNew _ _ _ hi => simp at hi
  | read _ hi => simp [isRead, isDecRead, isReadCursorOp] at hi
  | write _ hi => simp [isWrite, isEncWrite, isWriteCursorOp] at hi
  | close _ hi => simp at hi

/-- A store of the host into the Encoder's live buffer is refused. -/
theorem step_hostStore_held {s : State} {a : Nat} {v : Byte} {rest : List Request}
    (hin : s.inbox = .hostStore a v :: rest) (h : heldAt s.enc a = true) : step s = .refused .hostTouchedLentBuffer := by
  rw [step_of_waitsFor_none hin rfl]
  simp only [serve, hostStore, h, if_true]

/-- Any other store of the host writes its byte, and takes the Decoder's buffer back if it lies in it. -/
theorem step_hostStore_free {s : State} {a : Nat} {v : Byte} {rest : List Request}
    (hin : s.inbox = .hostStore a v :: rest) (h : heldAt s.enc a = false) :
    step s = .next { s with inbox := rest, mem := s.mem.write a v, decTaken := s.decTaken || heldAt s.dec a } := by
  rw [step_of_waitsFor_none hin rfl]
  simp only [serve, hostStore, h, Bool.false_eq_true, if_false]

/-- Settles O23: by what a NEW answered Ok and a store of the host leave in `decTaken`. -/
theorem takingBackTheDecodersBuffer : Obligations.TakingBackTheDecodersBuffer := by
  unfold Obligations.TakingBackTheDecodersBuffer
  refine ⟨fun s t buf off he hr => ?_, fun s t buf off he hr => decTaken_of_decNew he hr,
    fun s a v rest hin => ⟨fun e hu hlo hhi => ?_, fun hfree => ?_⟩⟩
  · obtain ⟨u, hu, ht⟩ := decTaken_of_encNew he hr
    obtain ⟨hbase, hlen⟩ := newBinding_buffer hu
    rw [ht, Bool.or_eq_true, heldOver_iff, hbase, hlen]
  · exact step_hostStore_held hin (heldAt_iff.2 ⟨e, hu, hlo, hhi⟩)
  · have hh : heldAt s.enc a = false := by
      rw [← Bool.not_eq_true, heldAt_iff]
      exact fun ⟨e, he, hin⟩ => hfree e he hin
    refine ⟨_, step_hostStore_free hin hh, ?_, fun b hb => ?_, rfl, rfl, rfl, rfl, rfl, ?_⟩
    · exact (read_write s.mem a a v).trans (if_pos rfl)
    · exact (read_write s.mem a b v).trans (if_neg hb)
    · rw [Bool.or_eq_true, heldAt_iff]

end Sys2Proof.Machine
end

section
/-!
PROOFS. Cursors: one bit forward, and never back within one binding (spec 10_state R22, R23): O25, O26.
-/

namespace Sys2Proof.Machine

/-! ## Advancing -/

/-- From the last bit of a byte to the first of the next (R22). -/
theorem adv_of_last_bit {u : Binding} (h : u.bit = 7) : u.adv = { u with byte := u.byte + 1, bit := 0 } := by
  rw [Binding.adv, if_pos h]

/-- Inside a byte to its next bit (R22). -/
theorem adv_inside_byte {u : Binding} (h : u.bit ≠ 7) : u.adv = { u with bit := u.bit + 1 } := by
  rw [Binding.adv, if_neg h]

/-- A bit offset other than 7 has a successor. -/
theorem toNat_succ_of_ne_seven {o : BitOffset} (h : o ≠ 7) : (o + 1).toNat = o.toNat + 1 := by
  bv_omega

/-- Settles O25: the linear position grows by one, and from before the end it stays at or before the end. -/
theorem advMovesOneBit : Obligations.AdvMovesOneBit := by
  unfold Obligations.AdvMovesOneBit
  refine fun u => ⟨fun h => ?_, fun h => ?_, ?_, fun hlt => ?_⟩
  · rw [adv_of_last_bit h]
    exact ⟨rfl, rfl⟩
  · rw [adv_inside_byte h]
    exact ⟨rfl, toNat_succ_of_ne_seven h⟩
  · rw [adv_eq_seek, pos_seek]
  · have hpos : u.pos + 1 ≤ 8 * u.len := (pos_lt_size u).2 hlt
    rw [adv_eq_seek, seek_byte]
    omega

/-! ## Positions within one binding -/

/-- An instruction other than `DEC.NEW` leaves a bound Decoder on its buffer, at the same or a later position of it. -/
theorem exec_moves_dec {i : Instr} {s t : State} {u : Binding} (he : exec i s = .next t) (hu : s.dec = some u)
    (hpos : u.pos ≤ u.size) (hi : isDecNew i = false) : ∃ p, u.pos ≤ p ∧ p ≤ u.size ∧ t.dec = some (u.seek p) := by
  have stays : s.dec = some (u.seek u.pos) := by rw [hu, seek_pos]
  cases exec_did he with
  | read v hr hv ht =>
    obtain rfl := Option.some.inj (hu.symm.trans hv)
    obtain ⟨p, hle, hsize, heq⟩ := readFn_moves hr s.mem u hpos
    exact ⟨p, hle, hsize, congrArg some heq⟩
  | decNew buf off v hi' => simp [hi', isDecNew] at hi
  | illegal => exact ⟨u.pos, le_rfl, hpos, stays⟩
  | badNew => exact ⟨u.pos, le_rfl, hpos, stays⟩
  | encNew => exact ⟨u.pos, le_rfl, hpos, stays⟩
  | write => exact ⟨u.pos, le_rfl, hpos, stays⟩
  | close => exact ⟨u.pos, le_rfl, hpos, stays⟩

/-- An instruction other than `ENC.NEW` and `ENC.CLOSE` leaves a bound Encoder on its buffer, at the same or a later position of
it. -/
theorem exec_moves_enc {i : Instr} {s t : State} {u : Binding} (he : exec i s = .next t) (hu : s.enc = some u)
    (hpos : u.pos ≤ u.size) (hi : isEncNew i = false) (hc : i ≠ .encClose) :
    ∃ p, u.pos ≤ p ∧ p ≤ u.size ∧ t.enc = some (u.seek p) := by
  have stays : s.enc = some (u.seek u.pos) := by rw [hu, seek_pos]
  cases exec_did he with
  | write v hw hv =>
    obtain rfl := Option.some.inj (hu.symm.trans hv)
    exact ⟨_, le_min (Nat.le_add_right _ _) hpos, min_le_right _ _, congrArg some (putRun_end (runOf i) s.mem u hpos).2⟩
  | encNew buf off v hi' => simp [hi', isEncNew] at hi
  | close v hi' => exact absurd hi' hc
  | illegal => exact ⟨u.pos, le_rfl, hpos, stays⟩
  | badNew => exact ⟨u.pos, le_rfl, hpos, stays⟩
  | decNew => exact ⟨u.pos, le_rfl, hpos, stays⟩
  | read => exact ⟨u.pos, le_rfl, hpos, stays⟩

/-- Settles O26: reads and writes only move the cursor forward; every other instruction leaves it where it is. -/
theorem positionNeverDecreases : Obligations.PositionNeverDecreases := by
  unfold Obligations.PositionNeverDecreases
  rintro i s t ⟨-, hdec, henc, -, -, -⟩ he
  refine ⟨fun u hu hi => ?_, fun u hu hi hc => ?_⟩
  · obtain ⟨p, hle, -, ht⟩ := exec_moves_dec he hu (hdec u hu).pos_le hi
    exact ⟨u.seek p, ht, rfl, rfl, by rwa [pos_seek]⟩
  · obtain ⟨p, hle, -, ht⟩ := exec_moves_enc he hu (henc u hu).pos_le hi hc
    exact ⟨u.seek p, ht, rfl, rfl, by rwa [pos_seek]⟩

end Sys2Proof.Machine
end

section
/-!
PROOFS. The state after reset, and a step without a request (spec 10_state R25, 70_reset R116): O9, O12.
-/

namespace Sys2Proof.Machine

/-- Settles O12: no unit is bound and no command is in progress, so only the memory's form is to be shown. -/
theorem resetSatisfiesTheInvariant : Obligations.ResetSatisfiesTheInvariant := by
  unfold Obligations.ResetSatisfiesTheInvariant
  exact ⟨wf_reset, nofun, nofun, fun _ => nofun, nofun, nofun⟩

/-- With no request the step is a turn of a command in progress, the Decoder's first. -/
theorem step_of_inbox_nil {s : State} (hin : s.inbox = []) :
    step s = if s.busy .dec then issue .dec s else issue .enc s := by
  simp only [step, takeRequest, hin, proceed]

/-- Settles O9: by which unit is busy; the turn of an idle unit does nothing. -/
theorem stepWaitsForARequest : Obligations.StepWaitsForARequest := by
  unfold Obligations.StepWaitsForARequest
  intro s hin
  rw [step_of_inbox_nil hin]
  have idleDec : s.decCmd = none → s.busy .dec = false := fun hd => by simp [State.busy, hd]
  refine ⟨fun hd he => ?_, fun hd => ?_, fun hd he => ?_⟩
  · have idleEnc : s.busy .enc = false := by simp [State.busy, he]
    simp only [idleDec hd, Bool.false_eq_true, if_false, issue_idle idleEnc]
  · have busyDec : s.busy .dec = true := by simpa [State.busy, Option.isSome_iff_ne_none] using hd
    simp only [busyDec, if_true]
  · simp only [idleDec hd, Bool.false_eq_true, if_false]

end Sys2Proof.Machine
end

section
/-!
PROOFS. Who may use a buffer, and which bytes an instruction can depend on and change (spec 20_memory R33, R35, R43): O22, O59.
-/

namespace Sys2Proof.Machine

/-! ## Buffers that are not a unit's own (log entry 6) -/

/-- A `DEC.NEW` with good operands on a buffer that shares a byte with the Encoder's is refused. -/
theorem exec_decNew_overlapping {s : State} {buf : BufRef} {off : Word64} (hlen : buf.len ≠ 0) (hoff : off.toNat ≤ 7)
    (ho : heldOver s.enc ⟨buf.base, buf.len, 0, BitVec.ofNat 3 off.toNat⟩ = true) :
    exec (.decNew buf off) s = .refused .overlappingBuffers := by
  simp only [exec, execDecNew, newBinding_eq, hlen, show ¬ 7 < off.toNat by omega, or_self, if_false, ho, if_true]

/-- A reading instruction on a Decoder whose buffer the host has taken back is refused. -/
theorem exec_read_taken {i : Instr} {s : State} {u : Binding} (hi : isRead i = true) (hu : s.dec = some u)
    (ht : s.decTaken = true) : exec i s = .refused .bufferTakenBack := by
  cases i <;> simp [isRead, isDecRead, isReadCursorOp] at hi
  all_goals
    simp only [exec, execDecNextBit, execDecNextUnsigned, execDecNextSigned, execDecSkipNext, execRcNextBit, execRcSkipBits,
      onReadCursor, hu, onDecoder_taken hu ht]

/-- Settles O22: both refusals are the shared operations' own. -/
theorem sharedBuffersAreRefused : Obligations.SharedBuffersAreRefused := by
  unfold Obligations.SharedBuffersAreRefused
  refine ⟨fun s buf off e he hlen hoff hlo hhi => ?_, fun s u i hu ht hi => exec_read_taken hi hu ht⟩
  exact exec_decNew_overlapping hlen hoff (heldOver_iff.2 ⟨e, he, hlo, hhi⟩)

/-! ## What an instruction depends on -/

/-- The state with another memory. -/
def State.withMem (m : Memory) (s : State) : State := { s with mem := m }

/-- A NEW neither reads nor writes through a cursor. -/
theorem new_accesses_nothing {i : Instr} (h : isDecNew i = true ∨ isEncNew i = true) :
    isRead i = false ∧ isWrite i = false := by
  cases i <;> simp [isDecNew, isEncNew] at h <;> exact ⟨rfl, rfl⟩

/-- An instruction that neither reads nor writes through a cursor does the same on every memory. -/
theorem exec_withMem {i : Instr} {s t : State} (m : Memory) (hr : isRead i = false) (hw : isWrite i = false)
    (he : exec i s = .next t) : exec i (s.withMem m) = .next (t.withMem m) := by
  have frame : exec i (s.withMem m) = onNext (State.withMem m) (exec i s) := by
    cases i with
    | decNew buf off =>
      simp only [exec, execDecNew, State.withMem]
      split
      · rfl
      · split <;> next ho => simp [ho, onNext, State.withMem]
    | encNew buf off => simp only [exec, execEncNew, State.withMem]; split <;> rfl
    | encClose => simp only [exec, execEncClose, onEncoder, State.withMem]; split <;> rfl
    | decNextBit | decNextUnsigned | decNextSigned | decSkipNext | rcNextBit | rcSkipBits n => exact nomatch hr
    | encPutBit b | encPutUnsigned v | wcPutBit b | wcPutZeros n | wcPutBits src start => exact nomatch hw
  rw [frame, he, onNext_next]

/-- A command other than NEW to an unbound unit is answered Illegal (R77, R92). -/
theorem exec_unbound {i : Instr} {s : State}
    (h : (isDecRead i = true ∧ s.dec = none) ∨ ((isEncWrite i = true ∨ i = .encClose) ∧ s.enc = none)) :
    exec i s = .next { s with resp := some (.fail .illegal) } := by
  rcases h with ⟨hi, hu⟩ | ⟨hi, hu⟩
  · cases i <;> simp [isDecRead] at hi
    all_goals
      simp only [exec, execDecNextBit, execDecNextUnsigned, execDecNextSigned, execDecSkipNext, onDecoder_unbound hu]
  · cases i <;> simp [isEncWrite] at hi
    all_goals
      simp only [exec, execEncPutBit, execEncPutUnsigned, execEncClose, onEncoder_unbound hu]

/-- An address in one of the buffers the units are bound to. -/
abbrev State.held (s : State) (a : Nat) : Prop := heldAt s.dec a = true ∨ heldAt s.enc a = true

/-- Two states alike in the registers, the response and the bytes at some addresses. -/
abbrev State.AgreeOn (S : Nat → Prop) (t' t : State) : Prop :=
  t'.dec = t.dec ∧ t'.enc = t.enc ∧ t'.resp = t.resp ∧ t'.decTaken = t.decTaken ∧ ∀ a, S a → t'.mem.read a = t.mem.read a

/-- On a memory that agrees on the bound buffers an instruction does the same to registers, response and buffers (R35). -/
theorem exec_agree {i : Instr} {s t : State} {m : Memory} (he : exec i s = .next t)
    (hm : ∀ a, s.held a → m.read a = s.mem.read a) :
    ∃ t', exec i (s.withMem m) = .next t' ∧ t'.AgreeOn s.held t := by
  have same : isRead i = false → isWrite i = false → t.mem = s.mem →
      ∃ t', exec i (s.withMem m) = .next t' ∧ t'.AgreeOn s.held t := fun hr hw hmem =>
    ⟨_, exec_withMem m hr hw he, rfl, rfl, rfl, rfl, fun a ha => by rw [hmem]; exact hm a ha⟩
  cases exec_did he with
  | illegal h => exact ⟨_, exec_unbound (s := s.withMem m) h, rfl, rfl, rfl, rfl, hm⟩
  | badNew h =>
    obtain ⟨hr, hw⟩ := new_accesses_nothing h
    exact same hr hw rfl
  | decNew buf off u hi hu ho => subst hi; exact same rfl rfl rfl
  | encNew buf off u hi hu => subst hi; exact same rfl rfl rfl
  | close u hi hu => subst hi; exact same rfl rfl rfl
  | read u hr hu ht =>
    have hbits : readFn i m u = readFn i s.mem u :=
      readFn_congr i u (bitAt_congr fun a ha => hm a (.inl (by simpa [heldAt, hu] using ha)))
    refine ⟨_, exec_read (s := s.withMem m) hr hu ht, ?_, rfl, ?_, rfl, hm⟩
    · exact congrArg (fun r => some r.2) hbits
    · exact congrArg (fun r => some r.1) hbits
  | write u hw hu =>
    have hbuf : ∀ q < u.size, s.held (u.base + q / 8) := fun q hq =>
      .inr (by simpa [heldAt, hu] using covers_of_lt_size hq)
    obtain ⟨hend, hcur, hmem⟩ := putRun_agree (runOf i) s.mem m u s.held hbuf hm
    refine ⟨_, exec_write (s := s.withMem m) hw hu, rfl, congrArg some hcur, ?_, rfl, hmem⟩
    exact congrArg (fun r => some (Result.respond (fun _ => .empty) r)) hend

/-- Settles O59: a write stays inside the Encoder's buffer, and what an instruction computes depends only on the bound buffers. -/
theorem accessesStayInsideTheBuffers : Obligations.AccessesStayInsideTheBuffers := by
  unfold Obligations.AccessesStayInsideTheBuffers
  exact fun i s t he => ⟨fun a ha => exec_read_outside he ha, fun m hm => exec_agree he hm⟩

end Sys2Proof.Machine
end

section
/-!
PROOFS. What a write, or the part of it that a reset leaves, does to memory (spec 20_memory R40, 70_reset R116, R117): O11, O58.
-/

namespace Sys2Proof.Machine

/-! ## The first bits of a run -/

/-- The stream bits after the first `n` bits of a run have been written: as many of them as fit are OR-ed in from the cursor on. -/
theorem bitAt_putRun_take (bs : List Bit) (n : Nat) (m : Memory) (u : Binding) (q : Nat) :
    bitAt (putRun (bs.take n) m u).2.1 u.base q =
      (bitAt m u.base q || (decide (u.pos ≤ q ∧ q < u.pos + n ∧ q < u.size) && bs.getD (q - u.pos) false)) := by
  have htake : (bs.take n).getD (q - u.pos) false = (decide (q - u.pos < n) && bs.getD (q - u.pos) false) := by
    simp only [List.getD_eq_getElem?_getD, List.getElem?_take]
    split <;> next h => simp [h]
  rw [bitAt_putRun, htake, ← Bool.and_assoc, ← Bool.decide_and, ← Bool.decide_and]
  congr 3
  exact propext (by omega)

/-- The stream bits after the first `n` bits of a writing instruction's run have been written. -/
theorem bitAt_putRun_take_runOf (i : Instr) {n : Nat} (hn : n ≤ runLength i) (m : Memory) (u : Binding) (q : Nat) :
    bitAt (putRun ((runOf i).take n) m u).2.1 u.base q =
      (bitAt m u.base q || (decide (u.pos ≤ q ∧ q < u.pos + n ∧ q < u.size) && runBit i (q - u.pos))) := by
  rw [bitAt_putRun_take, runOf_getD]
  by_cases hq : u.pos ≤ q ∧ q < u.pos + n ∧ q < u.size
  · simp [hq, show q - u.pos < runLength i by omega]
  · simp [hq]

/-- The stream bits after a writing instruction (R40). -/
theorem bitAt_putRun_runOf (i : Instr) (m : Memory) (u : Binding) (q : Nat) :
    bitAt (putRun (runOf i) m u).2.1 u.base q =
      (bitAt m u.base q || (decide (u.pos ≤ q ∧ q < u.pos + runLength i ∧ q < 8 * u.len) && runBit i (q - u.pos))) := by
  have h := bitAt_putRun_take_runOf i le_rfl m u q
  rwa [List.take_of_length_le (by rw [runOf_length])] at h

/-- Settles O58: a writing instruction on a bound Encoder writes its run, which only sets bits. -/
theorem encoderOnlySetsBits : Obligations.EncoderOnlySetsBits := by
  unfold Obligations.EncoderOnlySetsBits
  intro i s t u hi hu he
  obtain rfl := Host.Outcome.next.inj ((exec_write hi hu).symm.trans he)
  refine ⟨and_putRun (runOf i) s.mem u, bitAt_putRun_runOf i s.mem u, read_putRun_outside (runOf i) s.mem u, fun hzero => ?_⟩
  refine putRun_noOnes (runOf i) s.mem u fun j hj => ?_
  rw [runOf_length] at hj
  rw [runOf_getD, hzero j hj, Bool.and_false]

/-! ## The run that a reset abandons -/

/-- A step that takes a reset. -/
theorem step_reset {s : State} {rest : List Request} (hin : s.inbox = .reset :: rest) :
    step s = .next (resetDuringRun s.unwritten { s with inbox := rest }) :=
  step_of_waitsFor_none hin rfl

/-- A step that takes a reset during a host command whose unit, if it has one, is not busy. -/
theorem step_resetDuring {s : State} {c : HostCommand} {rest : List Request} (hin : s.inbox = .resetDuring c :: rest)
    (hb : ∀ i, decode (.command c) = .ok i → s.busy (sideOf i) = false) :
    step s = .next (resetDuringRun (s.unwritten ++ commandRun c) { s with inbox := rest }) := by
  refine step_of_waitsFor_none hin ?_
  cases hi : decode (.command c) with
  | ok i => exact waitsFor_of_not_busy rfl hi (hb i hi)
  | error e => exact waitsFor_of_decode_error rfl hi

/-- The rest of the Encoder's command in progress. -/
theorem unwritten_of_some {s : State} {ph : EncPhase} (h : s.encCmd = some ph) : s.unwritten = pendingRun ph := by
  simp only [State.unwritten, h]

/-- An Encoder with no command in progress has nothing still to write. -/
theorem unwritten_of_none {s : State} (h : s.encCmd = none) : s.unwritten = [] := by
  simp only [State.unwritten, h]

/-- A host command's run is the run of what it decodes to. -/
theorem commandRun_of_ok {c : HostCommand} {i : Instr} (h : decode (.command c) = .ok i) : commandRun c = writtenRun i := by
  simp only [commandRun, h]

/-- An Encoder write has the run that it writes when it is not abandoned. -/
theorem writtenRun_of_write {i : Instr} (h : isEncWrite i = true) : writtenRun i = runOf i := by
  cases i <;> simp [isEncWrite] at h <;> rfl

/-- Every other command has no run. -/
theorem writtenRun_of_not_write {i : Instr} (h : isEncWrite i = false) : writtenRun i = [] := by
  cases i <;> simp [isEncWrite] at h <;> rfl

/-- A host command that is no Encoder write has no run. -/
theorem commandRun_eq_nil {c : HostCommand} (h : ∀ i, decode (.command c) = .ok i → isEncWrite i = false) :
    commandRun c = [] := by
  cases hi : decode (.command c) with
  | ok i => rw [commandRun_of_ok hi, writtenRun_of_not_write (h i hi)]
  | error e => simp only [commandRun, hi]

/-- A Decoder command is no Encoder write. -/
theorem not_write_of_sideOf_dec {i : Instr} (h : sideOf i = .dec) : isEncWrite i = false := by
  cases i <;> simp [sideOf] at h <;> rfl

/-! ## What a reset leaves in memory (spec 70_reset R117) -/

/-- With no Encoder bound no run reaches memory. -/
theorem memAfterPart_unbound {s : State} (n : Nat) (bs : List Bit) (h : s.enc = none) : memAfterPart n bs s = s.mem := by
  simp only [memAfterPart, h]

/-- An empty run leaves memory as it is. -/
theorem memAfterPart_nil (n : Nat) (s : State) : memAfterPart n [] s = s.mem := by
  cases he : s.enc <;> simp [memAfterPart, he, putRun]

/-- Of an abandoned run the first bits are in the buffer, at most all of them. -/
theorem memAfterPart_bound {s : State} {u : Binding} (n : Nat) (bs : List Bit) (h : s.enc = some u) :
    ∃ k ≤ bs.length, memAfterPart n bs s = (putRun (bs.take k) s.mem u).2.1 :=
  ⟨min n bs.length, min_le_right _ _, by rw [← List.take_eq_take_min]; simp only [memAfterPart, h]⟩

/-- A step that abandons the Encoder's command in progress leaves the first bits of what that had still to write. -/
theorem step_reset_busy {s : State} {ph : EncPhase} {r : Request} {rest : List Request} (hin : s.inbox = r :: rest)
    (hr : r = .reset ∨ ∃ c, r = .resetDuring c ∧ ∀ i, decode (.command c) = .ok i → sideOf i = .dec ∧ s.decCmd = none)
    (hc : s.encCmd = some ph) : step s = .next (resetDuringRun (pendingRun ph) { s with inbox := rest }) := by
  rw [← unwritten_of_some hc]
  rcases hr with rfl | ⟨c, rfl, hside⟩
  · exact step_reset hin
  · have hb : ∀ i, decode (.command c) = .ok i → s.busy (sideOf i) = false := fun i hi => by
      obtain ⟨hd, hn⟩ := hside i hi
      simp [State.busy, hd, hn]
    rw [step_resetDuring hin hb, commandRun_eq_nil fun i hi => not_write_of_sideOf_dec (hside i hi).1, List.append_nil]

/-- Settles O11: the state after the reset has the memory of an initial part of the run, the rest of it being as after any reset. -/
theorem resetDuringACommandKeepsAnInitialPart : Obligations.ResetDuringACommandKeepsAnInitialPart := by
  unfold Obligations.ResetDuringACommandKeepsAnInitialPart
  refine ⟨fun s c rest hin hb => ?_, fun s u ph r rest hin hr hu hc => ?_⟩
  · refine ⟨_, step_resetDuring hin hb, rfl, rfl, rfl, rfl, rfl, rfl, memAfterPart_unbound _ _, fun hc hi a => ?_,
      fun u i hu hi hw => ?_⟩
    · rw [unwritten_of_none hc, commandRun_eq_nil hi, List.nil_append, resetDuringRun_mem, memAfterPart_nil]
    · have hc : s.encCmd = none := encCmd_eq_none (hb i hi) (.inl hw)
      rw [unwritten_of_none hc, commandRun_of_ok hi, writtenRun_of_write hw, List.nil_append, resetDuringRun_mem]
      obtain ⟨n, hn, hmem⟩ := memAfterPart_bound (s := { s with inbox := rest }) (Config.abandonedAfter s.resets) (runOf i) hu
      rw [hmem]
      rw [runOf_length] at hn
      exact ⟨n, hn, bitAt_putRun_take_runOf i hn s.mem u, read_putRun_outside _ s.mem u⟩
  · refine ⟨_, step_reset_busy hin hr hc, rfl, rfl, rfl, rfl, rfl, rfl, ?_⟩
    rw [resetDuringRun_mem]
    obtain ⟨n, hn, hmem⟩ := memAfterPart_bound (s := { s with inbox := rest }) (Config.abandonedAfter s.resets) (pendingRun ph) hu
    rw [hmem]
    exact ⟨n, hn, bitAt_putRun_take _ n s.mem u, read_putRun_outside _ s.mem u⟩

end Sys2Proof.Machine
end

section
/-!
PROOFS. The decoder and the encoder (spec 30_encoding R60 to R63, R67, R68): O1 to O5.
-/

namespace Sys2Proof.Machine

/-- A length that fits its field is the length the field carries. -/
theorem BufRef.carried {buf : BufRef} (h : buf.WellFormed) :
    (⟨buf.base, (BitVec.ofNat Config.idxW buf.len).toNat⟩ : BufRef) = buf := by
  rw [BitVec.toNat_ofNat, Nat.mod_eq_of_lt h]

/-- A count that fits `N_W = 7` bits is the count the field carries (R63). -/
theorem count_carried {n : Nat} (h : n < 2 ^ 7) : (BitVec.ofNat 7 n).toNat = n := by
  rw [BitVec.toNat_ofNat, Nat.mod_eq_of_lt h]

/-- Settles O1: by the cases of the instruction; only a buffer length and a bit count can fail to fit their fields. -/
theorem decodeOfEncodeIsTheInstruction : Obligations.DecodeOfEncodeIsTheInstruction := by
  unfold Obligations.DecodeOfEncodeIsTheInstruction
  intro i h
  cases i with
  | decNew buf off => exact congrArg (fun b => Except.ok (Instr.decNew b off)) (BufRef.carried (of_decide_eq_true h))
  | encNew buf off => exact congrArg (fun b => Except.ok (Instr.encNew b off)) (BufRef.carried (of_decide_eq_true h))
  | rcSkipBits n => exact congrArg (fun k => Except.ok (Instr.rcSkipBits k)) (count_carried (of_decide_eq_true h))
  | wcPutZeros n => exact congrArg (fun k => Except.ok (Instr.wcPutZeros k)) (count_carried (of_decide_eq_true h))
  | encPutBit b => cases b <;> rfl
  | decNextBit => rfl
  | decNextUnsigned => rfl
  | decNextSigned => rfl
  | decSkipNext => rfl
  | encPutUnsigned v => rfl
  | encClose => rfl
  | rcNextBit => rfl
  | wcPutBit b => rfl
  | wcPutBits src start => rfl

/-- The record that carries a decoded instruction has the op byte it was decoded from (R62). -/
theorem encode_op_of_decode {w : Wire} {i : Instr} (h : decode w = .ok i) : (encode i).op = w.op := by
  cases w with
  | command c =>
    simp only [decode, decodeCommand] at h
    split at h
    case h_10 => split at h <;> simp at h
    all_goals
      next hop =>
        obtain rfl := Except.ok.inj h
        exact hop.symm
  | micro u =>
    simp only [decode, decodeMicro] at h
    split at h
    case h_6 => simp at h
    all_goals
      next hop =>
        obtain rfl := Except.ok.inj h
        exact hop.symm

/-- Settles O2: what decodes is well formed, so its own record decodes to it. -/
theorem decodedCodesHaveOneMeaning : Obligations.DecodedCodesHaveOneMeaning := by
  unfold Obligations.DecodedCodesHaveOneMeaning
  intro w i h
  have hwf : i.wellFormed = true := decode_wellFormed h
  exact ⟨hwf, encode_op_of_decode h, decodeOfEncodeIsTheInstruction i hwf⟩

/-- Settles O3: the six records are evaluated. -/
theorem opcodeMapWordsDecode : Obligations.OpcodeMapWordsDecode := by
  unfold Obligations.OpcodeMapWordsDecode
  exact ⟨rfl, rfl, rfl, rfl, rfl, rfl⟩

/-- Each of the nine codes of the host's port decodes (R62). -/
theorem decode_inside_nine {c : HostCommand} (h : c.op ≤ 0x04#8 ∨ (0x40#8 ≤ c.op ∧ c.op ≤ 0x43#8)) :
    ∃ i, decode (.command c) = .ok i := by
  simp only [decode, decodeCommand]
  split
  case h_10 => simp only [imp_false] at *; bv_omega
  all_goals exact ⟨_, rfl⟩

/-- Settles O4: outside the nine the decoder rejects, and a rejected code is answered Illegal. -/
theorem hostCodesOutsideTheNineAreIllegal : Obligations.HostCodesOutsideTheNineAreIllegal := by
  unfold Obligations.HostCodesOutsideTheNineAreIllegal
  refine ⟨fun c s rest hop hin _ _ => ?_, fun c hop => decode_inside_nine hop⟩
  obtain ⟨e, he⟩ := decode_outside_nine hop
  exact step_illegal hin he

/-- The commands with operands are `NEW`, `ENC.PUT_BIT` and `ENC.PUT_UNSIGNED`: any other op byte alone says what its record
decodes to (R62, R68). -/
theorem decode_eq_of_op_without_operands {c c' : HostCommand} (hop : c.op = c'.op) (hdn : c.op ≠ 0x00#8)
    (hen : c.op ≠ 0x40#8) (hpb : c.op ≠ 0x41#8) (hpu : c.op ≠ 0x42#8) : decode (.command c) = decode (.command c') := by
  simp only [decode, decodeCommand, ← hop]
  split
  case h_1 h => exact absurd h hdn
  case h_6 h => exact absurd h hen
  case h_7 h => exact absurd h hpb
  case h_8 h => exact absurd h hpu
  all_goals rfl

/-- `ENC.PUT_BIT` takes bit 0 of `arg` (R68). -/
theorem decode_encPutBit {c : HostCommand} (hop : c.op = 0x41#8) :
    decode (.command c) = .ok (.encPutBit (c.arg.getLsbD 0)) := by
  simp only [decode, decodeCommand, hop]

/-- `ENC.PUT_UNSIGNED` takes `arg` (R68). -/
theorem decode_encPutUnsigned {c : HostCommand} (hop : c.op = 0x42#8) :
    decode (.command c) = .ok (.encPutUnsigned c.arg) := by
  simp only [decode, decodeCommand, hop]

/-- A start offset above 7 in any of its 64 bits (R68, R78, R93). -/
theorem newBinding_bad_offset (buf : BufRef) {off : Word64} (h : 7 < off.toNat) :
    newBinding buf off = .fail .invalidArgument := by
  rw [newBinding_eq, if_pos (.inr h)]

/-- Settles O5: by the op byte for the operands, and by the comparison of all of `arg` for the start offset. -/
theorem unusedOperandBitsAreIgnored : Obligations.UnusedOperandBitsAreIgnored := by
  unfold Obligations.UnusedOperandBitsAreIgnored
  refine ⟨fun c c' hop => ⟨decode_eq_of_op_without_operands hop, fun h hb => ?_, fun h hv => ?_⟩,
    fun buf off s h => ⟨?_, ?_⟩⟩
  · rw [decode_encPutBit h, decode_encPutBit (hop ▸ h), hb]
  · rw [decode_encPutUnsigned h, decode_encPutUnsigned (hop ▸ h), hv]
  · simp only [exec, execDecNew, newBinding_bad_offset buf h, answer_eq]
  · simp only [exec, execEncNew, newBinding_bad_offset buf h, answer_eq]

end Sys2Proof.Machine
end

section
/-!
PROOFS. Codewords as lists of bits (spec 30_encoding R48 to R52): O6, O7.
-/

namespace Sys2Proof.Machine

/-! ## The low bits of a number, most significant first -/

/-- The `k` low bits of `x`, most significant first (R51). -/
def lowBits (x k : Nat) : List Bit := (List.range k).map (fun i => x.testBit (k - 1 - i))

/-- The bits from bit `k` down are the `k + 1` low bits. -/
theorem bitsDown_eq_lowBits (x k : Nat) : bitsDown x k = lowBits x (k + 1) := rfl

@[simp] theorem lowBits_length (x k : Nat) : (lowBits x k).length = k := by simp [lowBits]

@[simp] theorem lowBits_zero (x : Nat) : lowBits x 0 = [] := rfl

theorem lowBits_succ (x k : Nat) : lowBits x (k + 1) = x.testBit k :: lowBits x k := by
  simp only [lowBits, List.range_succ_eq_map, List.map_cons, List.map_map, Nat.add_sub_cancel, Nat.sub_zero,
    List.cons.injEq, true_and]
  refine List.map_congr_left fun i _ => ?_
  simp only [Function.comp_apply, show k - (i + 1) = k - 1 - i by omega]

/-- The low bits of a number in front of its bit `k`. -/
theorem mod_two_pow_succ_eq (x k : Nat) : x % 2 ^ (k + 1) = (x.testBit k).toNat * 2 ^ k + x % 2 ^ k := by
  rw [Nat.mod_pow_succ, Nat.toNat_testBit, Nat.add_comm, Nat.mul_comm]

/-- Numbers with the same low bits agree modulo the power of two. -/
theorem mod_eq_of_lowBits_eq {x y k : Nat} (h : lowBits x k = lowBits y k) : x % 2 ^ k = y % 2 ^ k := by
  induction k with
  | zero => rw [pow_zero, Nat.mod_one, Nat.mod_one]
  | succ k ih =>
    obtain ⟨htop, hlow⟩ := List.cons.inj ((lowBits_succ x k).symm.trans (h.trans (lowBits_succ y k)))
    rw [mod_two_pow_succ_eq, mod_two_pow_succ_eq, htop, ih hlow]

/-- A multiple of the power of two more does not change the low bits. -/
theorem lowBits_two_pow_add (x k : Nat) : lowBits (2 ^ k + x) k = lowBits x k := by
  refine List.map_congr_left fun i hi => ?_
  have hi : i < k := List.mem_range.1 hi
  exact Nat.testBit_two_pow_add_gt (by omega) x

/-! ## The codeword -/

/-- A codeword: the zero run, the terminator, and the suffix (R48, R51). -/
theorem codeword_eq (v : Word64) :
    codeword v = List.replicate (zeroRunOf v) false ++ true :: lowBits (xOf v) (zeroRunOf v) := by
  rw [codeword, bitsDown_eq_lowBits, lowBits_succ, xOf_top]

/-- Settles O6: `X = 2^k + suffix` lies between `2^k` and `2^(k + 1)`, so `k` is its logarithm. -/
theorem codewordOfAValueIsUnique : Obligations.CodewordOfAValueIsUnique := by
  unfold Obligations.CodewordOfAValueIsUnique
  intro v
  refine ⟨⟨zeroRunOf v, xOf v - 2 ^ zeroRunOf v, ?_, ?_⟩, fun k suffix hlt hsum => ?_⟩
  · have hhi := xOf_lt_pow v
    omega
  · have hlo := pow_le_xOf v
    have hpos := Nat.two_pow_pos (zeroRunOf v)
    simp only [xOf] at hlo ⊢
    omega
  · have hpos := Nat.two_pow_pos k
    have hx : xOf v = 2 ^ k + suffix := by simp only [xOf]; omega
    have hk : zeroRunOf v = k := zeroRunOf_eq (by omega) (by omega)
    refine ⟨hk.symm, ?_, ?_, ?_⟩
    · omega
    · rw [codeword, hk]
      rfl
    · rw [codeword_eq, hk, hx, lowBits_two_pow_add]
      rfl

/-- Two values with the same zero run and the same suffix are one value (R51). -/
theorem eq_of_lowBits_eq {v w : Word64} (hk : zeroRunOf v = zeroRunOf w)
    (h : lowBits (xOf v) (zeroRunOf v) = lowBits (xOf w) (zeroRunOf w)) : v = w := by
  rw [← hk] at h
  have htop : lowBits (xOf v) (zeroRunOf v + 1) = lowBits (xOf w) (zeroRunOf v + 1) := by
    rw [lowBits_succ, lowBits_succ, h, xOf_top, hk, xOf_top]
  have hmod := mod_eq_of_lowBits_eq htop
  rw [Nat.mod_eq_of_lt (xOf_lt_pow v), Nat.mod_eq_of_lt (hk ▸ xOf_lt_pow w)] at hmod
  exact BitVec.eq_of_toNat_eq (Nat.succ.inj hmod)

/-- The first 1 bit ends the zero run. -/
theorem zeros_terminator_inj {k l : Nat} {x y : List Bit}
    (h : List.replicate k false ++ true :: x = List.replicate l false ++ true :: y) : k = l ∧ x = y := by
  induction k generalizing l with
  | zero =>
    cases l with
    | zero => exact ⟨rfl, (List.cons.inj h).2⟩
    | succ l => exact absurd (List.cons.inj h).1 (by decide)
  | succ k ih =>
    cases l with
    | zero => exact absurd (List.cons.inj h).1 (by decide)
    | succ l =>
      obtain ⟨rfl, hxy⟩ := ih (List.cons.inj h).2
      exact ⟨rfl, hxy⟩

/-- Settles O7: the zero run tells how long the suffix is, and the suffix which value it is. -/
theorem codewordsAreSelfDelimiting : Obligations.CodewordsAreSelfDelimiting := by
  unfold Obligations.CodewordsAreSelfDelimiting
  intro v w x y h
  simp only [codeword_eq, List.append_assoc, List.cons_append] at h
  obtain ⟨hk, hrest⟩ := zeros_terminator_inj h
  obtain ⟨hsuffix, hxy⟩ := List.append_inj hrest (by simp only [lowBits_length, hk])
  exact ⟨eq_of_lowBits_eq hk hsuffix, hxy⟩

end Sys2Proof.Machine
end

section
/-!
PROOFS. A stream of codewords written and read back (spec 30_encoding R51, R52, 43_encoder R97, R99): O54.
-/

namespace Sys2Proof.Machine

/-! ## Runs of bits in a buffer -/

/-- The bits `bs` stand in a buffer from stream position `p` on. -/
def BitsAt (m : Memory) (base p : Nat) (bs : List Bit) : Prop := ∀ i < bs.length, bitAt m base (p + i) = bs.getD i false

theorem bitsAt_append {m : Memory} {base p : Nat} {bs cs : List Bit} (h : BitsAt m base p (bs ++ cs)) :
    BitsAt m base p bs ∧ BitsAt m base (p + bs.length) cs := by
  refine ⟨fun i hi => ?_, fun i hi => ?_⟩
  · rw [h i (by rw [List.length_append]; omega), List.getD_append _ _ _ _ hi]
  · rw [Nat.add_assoc, h _ (by rw [List.length_append]; omega), List.getD_append_right _ _ _ _ (Nat.le_add_right _ _),
      Nat.add_sub_cancel_left]

theorem bitsAt_cons {m : Memory} {base p : Nat} {b : Bit} {bs : List Bit} (h : BitsAt m base p (b :: bs)) :
    bitAt m base p = b ∧ BitsAt m base (p + 1) bs :=
  ⟨h 0 (Nat.succ_pos _), (bitsAt_append (bs := [b]) h).2⟩

/-- A run written where the buffer holds 0 bits and has room for it stands there (R40, R91). -/
theorem bitsAt_putRun {bs : List Bit} {m : Memory} {u : Binding} (hfit : u.pos + bs.length ≤ u.size)
    (hzero : ∀ q, u.pos ≤ q → q < u.size → bitAt m u.base q = false) :
    BitsAt (putRun bs m u).2.1 u.base u.pos bs := by
  intro i hi
  rw [bitAt_putRun, hzero _ (Nat.le_add_right _ _) (by omega), decide_eq_true (Nat.le_add_right _ _),
    decide_eq_true (show u.pos + i < u.size by omega), Nat.add_sub_cancel_left]
  rfl

/-! ## Reading a codeword -/

/-- Zeros up to a 1 bit inside the buffer are a zero run (R83). -/
theorem zeroRun_of_bitsAt {m : Memory} {u : Binding} {k : Nat} {bs : List Bit} (hfit : u.pos + k < u.size)
    (h : BitsAt m u.base u.pos (List.replicate k false ++ true :: bs)) : ZeroRun m u k := by
  obtain ⟨hzeros, hrest⟩ := bitsAt_append h
  rw [List.length_replicate] at hrest
  refine ⟨by omega, fun i hi => ?_, .inr (bitsAt_cons hrest).1⟩
  rw [hzeros i (by rwa [List.length_replicate]), List.getD_replicate _ hi]

/-- The number in a field that holds the `k` low bits of `x` (R54). -/
theorem fieldAt_of_bitsAt {m : Memory} {base q x k : Nat} (h : BitsAt m base q (lowBits x k)) :
    fieldAt m base q k = x % 2 ^ k := by
  induction k generalizing q with
  | zero => rw [fieldAt_zero, pow_zero, Nat.mod_one]
  | succ k ih =>
    rw [lowBits_succ] at h
    obtain ⟨htop, hlow⟩ := bitsAt_cons h
    rw [fieldAt_succ, htop, ih hlow, mod_two_pow_succ_eq]

/-- The suffix of a value's codeword is `X − 2^k` (R51). -/
theorem xOf_mod (v : Word64) : xOf v % 2 ^ zeroRunOf v = xOf v - 2 ^ zeroRunOf v := by
  have hlo := pow_le_xOf v
  have hhi := xOf_lt_pow v
  rw [pow_succ] at hhi
  rw [Nat.mod_eq_sub_mod hlo, Nat.mod_eq_of_lt (by omega)]

/-- `DEC.NEXT_UNSIGNED` reads a value back from its codeword (R52, R83). -/
theorem nextUnsigned_codeword {m : Memory} {u : Binding} {v : Word64} (hfit : u.pos + (codeword v).length ≤ u.size)
    (h : BitsAt m u.base u.pos (codeword v)) : nextUnsigned m u = (.ok v, u.seek (u.pos + (codeword v).length)) := by
  have hk := zeroRunOf_le v
  have hlo := pow_le_xOf v
  rw [codeword_length] at hfit ⊢
  rw [codeword_eq] at h
  have hrun : ZeroRun m u (zeroRunOf v) := zeroRun_of_bitsAt (by omega) h
  have hfield : fieldAt m u.base (u.pos + zeroRunOf v + 1) (zeroRunOf v) = xOf v - 2 ^ zeroRunOf v := by
    have hsuffix := (bitsAt_cons (bitsAt_append h).2).2
    rw [List.length_replicate] at hsuffix
    rw [fieldAt_of_bitsAt hsuffix, xOf_mod]
  have hexact : ¬ (zeroRunOf v = 64 ∧ xOf v - 2 ^ zeroRunOf v ≠ 0) := by
    rintro ⟨h64, hne⟩
    have hmax := v.isLt
    simp only [h64, xOf] at hne
    omega
  have hvalue : 2 ^ zeroRunOf v - 1 + (xOf v - 2 ^ zeroRunOf v) = v.toNat := by
    have hpos := Nat.two_pow_pos (zeroRunOf v)
    simp only [xOf] at hlo ⊢
    omega
  rw [nextUnsigned_eq hrun, hfield, if_neg (by omega), if_neg (by omega), if_neg (by omega), if_neg hexact, hvalue,
    BitVec.ofNat_toNat, BitVec.setWidth_eq, Nat.add_assoc]

/-! ## The stream of a list of values -/

/-- The codewords of a list of values, one after another. -/
def streamOf (vs : List Word64) : List Bit := vs.flatMap codeword

theorem streamOf_cons (v : Word64) (vs : List Word64) : streamOf (v :: vs) = codeword v ++ streamOf vs := rfl

/-- The length of a stream is the sum of the codeword lengths (R50). -/
theorem streamOf_length (vs : List Word64) :
    (streamOf vs).length = (vs.map (fun v => 2 * Nat.log2 (v.toNat + 1) + 1)).sum := by
  rw [streamOf, List.length_flatMap]
  congr 1
  exact List.map_congr_left fun v _ => codeword_length v

/-- A run that fits, and then another. -/
theorem putRun_append_of_fits {bs cs : List Bit} {m : Memory} {u : Binding} (hfit : u.pos + bs.length ≤ u.size) :
    putRun (bs ++ cs) m u = putRun cs (putRun bs m u).2.1 (u.seek (u.pos + bs.length)) := by
  obtain ⟨hok, hcur⟩ := putRun_end bs m u (by omega)
  rw [if_pos hfit] at hok
  rw [min_eq_left hfit] at hcur
  rw [putRun_append, ← hcur]
  rcases hw : putRun bs m u with ⟨r, m', u'⟩
  rw [hw] at hok
  cases hok
  rfl

/-- `ENC.PUT_UNSIGNED` of a codeword that fits (R97). -/
theorem exec_encPutUnsigned_of_fits {s : State} {u : Binding} {v : Word64} (hu : s.enc = some u)
    (hfit : u.pos + (codeword v).length ≤ u.size) :
    exec (.encPutUnsigned v) s = .next { s with
      enc := some (u.seek (u.pos + (codeword v).length))
      mem := (putRun (codeword v) s.mem u).2.1
      resp := some (.ok .empty) } := by
  obtain ⟨hok, hcur⟩ := putRun_end (codeword v) s.mem u (by omega)
  rw [if_pos hfit] at hok
  rw [min_eq_left hfit] at hcur
  simp only [exec_write (i := .encPutUnsigned v) rfl hu, runOf, hok, hcur, respond_ok]

/-- `DEC.NEXT_UNSIGNED` at a codeword (R82). -/
theorem exec_decNextUnsigned_codeword {s : State} {u : Binding} {v : Word64} (hu : s.dec = some u)
    (ht : s.decTaken = false) (hfit : u.pos + (codeword v).length ≤ u.size) (h : BitsAt s.mem u.base u.pos (codeword v)) :
    exec .decNextUnsigned s = .next { s with
      dec := some (u.seek (u.pos + (codeword v).length))
      resp := some (.ok (.data v)) } := by
  simp only [exec_read (i := .decNextUnsigned) rfl hu ht, readFn, nextUnsigned_codeword hfit h, respond_ok]

/-! ## Runs of instructions -/

theorem runAll_cons {i : Instr} {is : List Instr} {s t f : State} {r : Option Response} {rs : List (Option Response)}
    (hi : exec i s = .next t) (hr : t.resp = r) (h : runAll is t = some (rs, f)) :
    runAll (i :: is) s = some (r :: rs, f) := by
  simp only [runAll, hi, hr, h, Option.map_some]

theorem runAll_append_some {is js : List Instr} {s t f : State} {rs qs : List (Option Response)}
    (h : runAll is s = some (rs, t)) (h' : runAll js t = some (qs, f)) : runAll (is ++ js) s = some (rs ++ qs, f) := by
  simp only [runAll_append, h, h', Option.bind_some, Option.map_some]

/-- The writes of a list of values whose stream fits write the stream as one run. -/
theorem runAll_encPutUnsigned {vs : List Word64} {s : State} {u : Binding} (hu : s.enc = some u)
    (hfit : u.pos + (streamOf vs).length ≤ u.size) :
    ∃ t, runAll (vs.map .encPutUnsigned) s = some (vs.map (fun _ => some (.ok .empty)), t) ∧
      t.enc = some (u.seek (u.pos + (streamOf vs).length)) ∧ t.mem = (putRun (streamOf vs) s.mem u).2.1 := by
  induction vs generalizing s u with
  | nil => exact ⟨s, rfl, by rw [hu]; exact congrArg some (seek_pos u).symm, rfl⟩
  | cons v vs ih =>
    rw [streamOf_cons, List.length_append] at hfit ⊢
    have hfitv : u.pos + (codeword v).length ≤ u.size := by omega
    obtain ⟨s', hput, hok, hu', hmem'⟩ : ∃ s', exec (.encPutUnsigned v) s = .next s' ∧ s'.resp = some (.ok .empty) ∧
        s'.enc = some (u.seek (u.pos + (codeword v).length)) ∧ s'.mem = (putRun (codeword v) s.mem u).2.1 :=
      ⟨_, exec_encPutUnsigned_of_fits hu hfitv, rfl, rfl, rfl⟩
    obtain ⟨t, hrun, henc, hmem⟩ := ih hu' (by rw [pos_seek, seek_size]; omega)
    rw [pos_seek, seek_seek, Nat.add_assoc] at henc
    exact ⟨t, runAll_cons hput hok hrun, henc, by rw [hmem, hmem', putRun_append_of_fits hfitv]⟩

/-- As many reads as a stream has values read them in order (R52). -/
theorem runAll_decNextUnsigned {vs : List Word64} {s : State} {u : Binding} (hu : s.dec = some u)
    (ht : s.decTaken = false) (hfit : u.pos + (streamOf vs).length ≤ u.size)
    (h : BitsAt s.mem u.base u.pos (streamOf vs)) :
    ∃ t, runAll (vs.map (fun _ => .decNextUnsigned)) s = some (vs.map (fun v => some (.ok (.data v))), t) := by
  induction vs generalizing s u with
  | nil => exact ⟨s, rfl⟩
  | cons v vs ih =>
    rw [streamOf_cons, List.length_append] at hfit
    obtain ⟨hv, hvs⟩ := bitsAt_append h
    obtain ⟨s', hread, hok, hu', ht', hmem'⟩ : ∃ s', exec .decNextUnsigned s = .next s' ∧
        s'.resp = some (.ok (.data v)) ∧ s'.dec = some (u.seek (u.pos + (codeword v).length)) ∧ s'.decTaken = false ∧ s'.mem = s.mem :=
      ⟨_, exec_decNextUnsigned_codeword hu ht (by omega) hv, rfl, rfl, ht, rfl⟩
    obtain ⟨t, hrun⟩ := ih hu' ht' (by rw [pos_seek, seek_size]; omega) (by rwa [hmem', pos_seek])
    exact ⟨t, runAll_cons hread hok hrun⟩

/-! ## Construction, read and written -/

/-- A binding to the whole of a buffer with its cursor at a start offset (R78, R93). -/
def Binding.Opens (u : Binding) (buf : BufRef) (off : Nat) : Prop :=
  u.base = buf.base ∧ u.size = 8 * buf.len ∧ u.pos = off

/-- `ENC.NEW` of a non-empty buffer and an offset up to 7 opens it, and stores nothing (R93). -/
theorem exec_encNew_opens {buf : BufRef} {off : Word64} (s : State) (hlen : buf.len ≠ 0) (hoff : off.toNat ≤ 7) :
    ∃ t u, exec (.encNew buf off) s = .next t ∧ t.resp = some (.ok .empty) ∧ t.enc = some u ∧ t.mem = s.mem ∧
      u.Opens buf off.toNat :=
  ⟨_, _, exec_encNew hlen hoff, rfl, rfl, rfl, rfl, rfl, pos_new _ _ hoff⟩

/-- `DEC.NEW` of a non-empty buffer and an offset up to 7 opens it while no Encoder is bound (R78). -/
theorem exec_decNew_opens {buf : BufRef} {off : Word64} {s : State} (henc : s.enc = none) (hlen : buf.len ≠ 0)
    (hoff : off.toNat ≤ 7) :
    ∃ t u, exec (.decNew buf off) s = .next t ∧ t.resp = some (.ok .empty) ∧ t.dec = some u ∧ t.decTaken = false ∧
      t.mem = s.mem ∧ u.Opens buf off.toNat :=
  ⟨_, _, exec_decNew hlen hoff (by rw [henc]; rfl), rfl, rfl, rfl, rfl, rfl, rfl, pos_new _ _ hoff⟩

/-- `ENC.CLOSE` answers the cursor's position and leaves memory as it is (R98). -/
theorem exec_encClose_answers {s : State} {u : Binding} (henc : s.enc = some u) :
    ∃ t, exec .encClose s = .next t ∧ t.resp = some (.ok (.position u.byte u.bit)) ∧ t.enc = none ∧ t.mem = s.mem :=
  ⟨_, exec_encClose henc, rfl, rfl, rfl⟩

/-- Settles O54: the writes leave the stream in the buffer, and the reads, from the same offset, find it there. -/
theorem streamOfValuesRoundTrips : Obligations.StreamOfValuesRoundTrips := by
  unfold Obligations.StreamOfValuesRoundTrips
  intro s buf off vs hlen hoff hfit hzero
  rw [← streamOf_length] at hfit ⊢
  obtain ⟨s₁, e, hnew, hnewOk, he, hmem₁, hebase, hesize, hepos⟩ := exec_encNew_opens s hlen hoff
  have hefit : e.pos + (streamOf vs).length ≤ e.size := by omega
  obtain ⟨s₂, hputs, he₂, hmem₂⟩ := runAll_encPutUnsigned he hefit
  obtain ⟨s₃, hclose, hcloseOk, he₃, hmem₃⟩ := exec_encClose_answers he₂
  obtain ⟨s₄, d, hdec, hdecOk, hd, ht, hmem₄, hdbase, hdsize, hdpos⟩ := exec_decNew_opens he₃ hlen hoff
  have hstream : BitsAt s₄.mem d.base d.pos (streamOf vs) := by
    rw [hmem₄, hmem₃, hmem₂, hdbase, hdpos, ← hebase, ← hepos]
    refine bitsAt_putRun hefit fun q hq hlt => ?_
    rw [hmem₁, hebase]
    exact hzero q (by omega) (by omega)
  obtain ⟨f, hreads⟩ := runAll_decNextUnsigned hd ht (by omega) hstream
  refine ⟨_, _, f, runAll_append_some (runAll_append_some (runAll_cons hnew hnewOk hputs)
    (runAll_cons hclose hcloseOk (runAll_cons hdec hdecOk rfl))) hreads, ?_⟩
  rw [← hepos]
  exact pos_seek e _

end Sys2Proof.Machine
end

section
/-!
PROOFS. The signed maps (spec 30_encoding R56 to R58): O37, O38.
-/

namespace Sys2Proof.Machine

/-- `S2U` by its formula (R58). -/
theorem s2u_toNat_formula (x : Word64) : ((s2u x).toNat : Int) =
    (if 0 < x.toInt ∨ x.toInt = -2 ^ 63 then 2 * x.toInt - 1 else -2 * x.toInt) % 2 ^ 64 := by
  rw [s2u, ← apply_ite (BitVec.ofInt 64), BitVec.toNat_ofInt, Int.toNat_of_nonneg (Int.emod_nonneg _ (by decide))]
  rfl

/-- `U2S` undoes `S2U` (R58). -/
theorem u2s_s2u (x : Word64) : u2s (s2u x) = x := by
  refine BitVec.eq_of_toNat_eq ?_
  have hx := x.isLt
  rw [u2s_toNat, s2u_toNat]
  by_cases hpos : 1 ≤ x.toNat ∧ x.toNat < 2 ^ 63
  · rw [if_pos hpos, if_pos (by omega)]
    omega
  · rw [if_neg hpos]
    by_cases hmin : x.toNat = 2 ^ 63
    · rw [if_pos hmin, if_pos (by decide), hmin]
      rfl
    · rw [if_neg hmin, if_neg (by omega)]
      omega

/-- `S2U` undoes `U2S` (R58). -/
theorem s2u_u2s (u : Word64) : s2u (u2s u) = u := by
  refine BitVec.eq_of_toNat_eq ?_
  have hu := u.isLt
  rw [s2u_toNat, u2s_toNat]
  by_cases hodd : u.toNat % 2 = 1
  · rw [if_pos hodd]
    by_cases hmax : u.toNat = 2 ^ 64 - 1
    · rw [hmax, if_neg (by decide), if_pos (by decide)]
    · rw [if_pos (by omega)]
      omega
  · rw [if_neg hodd, if_neg (by omega), if_neg (by omega)]
    omega

/-- Settles O38: the formula, and the two inverses by the cases of parity and sign. -/
theorem signedMapsAreInverse : Obligations.SignedMapsAreInverse := by
  unfold Obligations.SignedMapsAreInverse
  exact ⟨s2u_toNat_formula, u2s_s2u, s2u_u2s⟩

/-- What `U2S` gives, read as a signed number: plus for odd, minus for even, except at the largest value (R56, R57). -/
theorem u2s_toInt {u : Word64} (h : u.toNat ≠ 2 ^ 64 - 1) :
    (u2s u).toInt = if u.toNat % 2 = 1 then ((u.toNat / 2 + u.toNat % 2 : Nat) : Int)
      else -((u.toNat / 2 + u.toNat % 2 : Nat) : Int) := by
  have hu := u.isLt
  rw [BitVec.toInt_eq_toNat_cond, u2s_toNat]
  by_cases hodd : u.toNat % 2 = 1
  · rw [if_pos hodd, if_pos hodd, if_pos (by omega), hodd]
  · rw [if_neg hodd, if_neg hodd]
    by_cases hzero : u.toNat = 0
    · simp [hzero]
    · rw [if_neg (by omega)]
      omega

/-- `U2S` in 64-bit terms: the magnitude, or its two's complement negation (R56). -/
theorem u2s_toNat_magnitude (u : Word64) :
    (u2s u).toNat = if u.toNat % 2 = 1 then (u.toNat / 2 + u.toNat % 2) % 2 ^ 64
      else (2 ^ 64 - (u.toNat / 2 + u.toNat % 2) % 2 ^ 64) % 2 ^ 64 := by
  have hu := u.isLt
  rw [u2s_toNat]
  by_cases hodd : u.toNat % 2 = 1
  · rw [if_pos hodd, if_pos hodd, hodd, Nat.mod_eq_of_lt (by omega)]
  · rw [if_neg hodd, if_neg hodd, Nat.mod_eq_of_lt (by omega : u.toNat / 2 + u.toNat % 2 < 2 ^ 64)]
    omega

/-- Settles O37: `S2U` is the inverse that makes `U2S` a bijection. -/
theorem signedMapAlternatesSigns : Obligations.SignedMapAlternatesSigns := by
  unfold Obligations.SignedMapAlternatesSigns
  exact ⟨fun u h => u2s_toInt h, u2s_toNat_magnitude, by decide, by decide, by decide, by decide,
    Function.bijective_iff_has_inverse.2 ⟨s2u, s2u_u2s, u2s_s2u⟩⟩

end Sys2Proof.Machine
end

section
/-!
PROOFS. How far a command moves its cursor, and the value a read answers (spec 30_encoding R49, R50, R55): O27, O35.
-/

namespace Sys2Proof.Machine

/-! ## Bit steps -/

/-- A bit read moves the cursor at most one bit (R72). -/
theorem nextBit_pos_le (m : Memory) (u : Binding) : (nextBit m u).2.pos ≤ u.pos + 1 := by
  rw [nextBit_eq]
  split
  · rw [pos_seek]
  · exact Nat.le_succ _

/-- A value read moves the cursor at most 129 bits: 64 zeros, the terminator and 64 suffix bits (R50, R83). -/
theorem nextUnsigned_pos_le (m : Memory) {u : Binding} (h : u.pos ≤ u.size) : (nextUnsigned m u).2.pos ≤ u.pos + 129 := by
  obtain ⟨z, hz⟩ := exists_zeroRun m u h
  have hin := hz.1
  rw [nextUnsigned_eq hz]
  split_ifs <;> rw [pos_seek] <;> omega

/-- A skip moves the cursor at most 129 bits (R85). -/
theorem skipNext_pos_le (m : Memory) {u : Binding} (h : u.pos ≤ u.size) : (skipNext m u).2.pos ≤ u.pos + 129 := by
  obtain ⟨z, hz⟩ := exists_zeroRun m u h
  have hin := hz.1
  rw [skipNext_eq hz]
  split_ifs <;> rw [pos_seek] <;> omega

/-- The bit steps of a Decoder command other than NEW (R128). -/
theorem readFn_pos_le {i : Instr} (hi : isDecRead i = true) (m : Memory) {u : Binding} (h : u.pos ≤ u.size) :
    (readFn i m u).2.pos ≤ u.pos + (if i = .decNextBit then 1 else 129) := by
  cases i with
  | decNextBit => exact nextBit_pos_le m u
  | decNextUnsigned => exact nextUnsigned_pos_le m h
  | decNextSigned => exact nextUnsigned_pos_le m h
  | decSkipNext => exact skipNext_pos_le m h
  | _ => simp [isDecRead] at hi

/-- A run moves the cursor at most its length (R91). -/
theorem putRun_pos_le (bs : List Bit) (m : Memory) {u : Binding} (h : u.pos ≤ u.size) :
    (putRun bs m u).2.2.pos ≤ u.pos + bs.length := by
  rw [(putRun_end bs m u h).2, pos_seek]
  exact min_le_left _ _

/-- The run of an Encoder write command is at most 129 bits long (R50). -/
theorem runLength_le {i : Instr} (hi : isEncWrite i = true) : runLength i ≤ 129 := by
  cases i with
  | encPutBit b => exact Nat.le_add_left 1 128
  | encPutUnsigned v =>
    have hk := zeroRunOf_le v
    simp only [runLength]
    omega
  | _ => simp [isEncWrite] at hi

/-- The state after a reading instruction on a bound Decoder: one whose buffer has been taken back would be refused. -/
theorem exec_read_next {i : Instr} {s t : State} {u : Binding} (hi : isRead i = true) (hu : s.dec = some u)
    (he : exec i s = .next t) : t = { s with dec := some (readFn i s.mem u).2, resp := some (readFn i s.mem u).1 } := by
  rcases Bool.eq_false_or_eq_true s.decTaken with ht | ht
  · cases (exec_read_taken hi hu ht).symm.trans he
  · exact (Host.Outcome.next.inj ((exec_read hi hu ht).symm.trans he)).symm

/-- Settles O27: a read moves the cursor by its bit steps, a write by the length of its run. -/
theorem commandsEndWithinTheirBitSteps : Obligations.CommandsEndWithinTheirBitSteps := by
  unfold Obligations.CommandsEndWithinTheirBitSteps
  rintro i s t ⟨-, hdec, henc, -, -, -⟩ he
  refine ⟨fun u u' hu hu' hi => ?_, fun u u' hu hu' hi => ?_⟩
  · obtain rfl := exec_read_next (by simp [isRead, hi]) hu he
    obtain rfl := Option.some.inj hu'
    exact readFn_pos_le hi s.mem (hdec u hu).pos_le
  · obtain rfl := Host.Outcome.next.inj ((exec_write (by simp [isWrite, hi]) hu).symm.trans he)
    obtain rfl := Option.some.inj hu'
    have hrun := putRun_pos_le (runOf i) s.mem (henc u hu).pos_le
    rw [runOf_length] at hrun
    refine hrun.trans (Nat.add_le_add_left ?_ _)
    split
    · exact le_rfl
    · exact runLength_le hi

/-! ## The value -/

/-- The sum of a zero run of at most 63 does not wrap (R55). -/
theorem value_le_of_le_63 (m : Memory) (base q : Nat) {k : Nat} (hk : k ≤ 63) :
    2 ^ k - 1 + fieldAt m base q k ≤ 2 ^ 64 - 2 := by
  have hfield := fieldAt_lt m base q k
  have hpow : 2 ^ k ≤ 2 ^ 63 := Nat.pow_le_pow_right (by decide) hk
  omega

/-- The sum of a zero run of 64 fits 64 bits exactly when the suffix is 0 (R55). -/
theorem value_lt_iff_of_eq_64 (m : Memory) (base q : Nat) :
    2 ^ 64 - 1 + fieldAt m base q 64 < 2 ^ 64 ↔ fieldAt m base q 64 = 0 := by
  omega

/-- The value that `DEC.NEXT_UNSIGNED` reads is the exact sum (R55, R83). -/
theorem nextUnsigned_value {m : Memory} {u : Binding} {k : Nat} {v : Word64} (hk : ZeroRun m u k)
    (h : (nextUnsigned m u).1 = .ok v) : v.toNat = 2 ^ k - 1 + fieldAt m u.base (u.pos + k + 1) k := by
  rw [nextUnsigned_eq hk] at h
  split at h
  · cases h
  split at h
  · cases h
  split at h
  · cases h
  split at h
  · cases h
  · next h65 _ _ hexact =>
    have hfits : 2 ^ k - 1 + fieldAt m u.base (u.pos + k + 1) k < 2 ^ 64 := by
      rcases Nat.lt_or_eq_of_le (Nat.le_of_lt_succ (Nat.lt_of_not_le h65)) with hlt | rfl
      · have := value_le_of_le_63 m u.base (u.pos + k + 1) (Nat.le_of_lt_succ hlt)
        omega
      · exact (value_lt_iff_of_eq_64 m u.base _).2 (not_not.1 fun hne => hexact ⟨rfl, hne⟩)
    cases h
    rw [BitVec.toNat_ofNat, Nat.mod_eq_of_lt hfits]

/-- Only a result that is a value is answered as that value. -/
theorem eq_ok_of_respond_data {r : Result Word64} {v : Word64} (h : r.respond .data = .ok (.data v)) : r = .ok v := by
  cases r with
  | ok w => cases h; rfl
  | fail e => cases h

/-- Settles O35: the bound on the suffix, and what `DEC.NEXT_UNSIGNED` answers where it answers a value. -/
theorem decodedValueFitsUnlessOverflow : Obligations.DecodedValueFitsUnlessOverflow := by
  unfold Obligations.DecodedValueFitsUnlessOverflow
  refine ⟨fun m base q k => ⟨value_le_of_le_63 m base q, ?_⟩, fun s t u k v hu _ hk he hv => ?_⟩
  · rintro rfl
    exact value_lt_iff_of_eq_64 m base q
  · obtain rfl := exec_read_next (i := .decNextUnsigned) rfl hu he
    exact nextUnsigned_value hk (eq_ok_of_respond_data (Option.some.inj hv))

end Sys2Proof.Machine
end

section
/-!
PROOFS. The response record, and what is refused at the internal ports (spec 30_encoding R62, R64, 40 R71, 42 R88): O16, O21.
-/

namespace Sys2Proof.Machine

/-- Settles O16: by the cases of the response. -/
theorem responseRecordCarriesTheResult : Obligations.ResponseRecordCarriesTheResult := by
  unfold Obligations.ResponseRecordCarriesTheResult
  refine ⟨rfl, fun b => ?_, fun v => rfl, fun byte bit => rfl, fun e => ⟨rfl, rfl, rfl⟩⟩
  cases b <;> rfl

/-- A read-cursor operation without a bound Decoder (R71). -/
theorem onReadCursor_unbound (mnemonic : String) (f : Memory → Binding → Response × Binding) {s : State}
    (h : s.dec = none) : onReadCursor mnemonic f s = .refused (.cursorUnbound mnemonic) := by
  simp only [onReadCursor, h]

/-- A write-cursor operation without a bound Encoder (R88). -/
theorem onWriteCursor_unbound (mnemonic : String) (f : Memory → Binding → Response × Memory × Option Binding) {s : State}
    (h : s.enc = none) : onWriteCursor mnemonic f s = .refused (.cursorUnbound mnemonic) := by
  simp only [onWriteCursor, h]

/-- A code outside the five of the internal ports is no micro-operation (R62). -/
theorem serveMicro_outside_five {u : MicroOp} (s : State) (h80 : u.op ≠ 0x80#8) (h81 : u.op ≠ 0x81#8)
    (hC0 : u.op ≠ 0xC0#8) (hC1 : u.op ≠ 0xC1#8) (hC2 : u.op ≠ 0xC2#8) : serveMicro u s = .refused (.noSuchMicroOp u.op) := by
  have hdec : decode (.micro u) = .error (.notAMicroOp u.op) := by
    simp only [decode, decodeMicro]
  simp only [serveMicro, hdec]

/-- Every phase of a Decoder command issues a read-cursor operation (R61). -/
theorem decOp_isReadCursorOp (ph : DecPhase) : isReadCursorOp (decOp ph) = true := by cases ph <;> rfl

/-- Every phase of an Encoder command issues a write-cursor operation (R61). -/
theorem encOp_isWriteCursorOp (ph : EncPhase) : isWriteCursorOp (encOp ph) = true := by cases ph <;> rfl

/-- Settles O21: the cursor operations are refused by their frames, the unassigned codes by the decoder. -/
theorem cursorOperationsNeedABinding : Obligations.CursorOperationsNeedABinding := by
  unfold Obligations.CursorOperationsNeedABinding
  intro s
  refine ⟨fun h => ⟨onReadCursor_unbound _ _ h, fun n => onReadCursor_unbound _ _ h⟩,
    fun h => ⟨fun b => onWriteCursor_unbound _ _ h, fun n => onWriteCursor_unbound _ _ h,
      fun src start => onWriteCursor_unbound _ _ h⟩,
    fun u => serveMicro_outside_five s, fun ph => ?_, fun ph => ?_⟩
  · exact ⟨decOp ph, decode_decMicro ph, decOp_isReadCursorOp ph⟩
  · exact ⟨encOp ph, decode_encMicro ph, encOp_isWriteCursorOp ph⟩

end Sys2Proof.Machine
end

section
/-!
PROOFS. The read cursor's two operations (spec 40_read_cursor R72 to R76): O31, O28, O29, O30.
-/

namespace Sys2Proof.Machine

/-! ## The operations on a bound Decoder -/

/-- `RC.NEXT_BIT` on a bound Decoder (R72). -/
theorem exec_rcNextBit {s : State} {u : Binding} (hu : s.dec = some u) (ht : s.decTaken = false) :
    exec .rcNextBit s = .next { s with
      dec := some (nextBit s.mem u).2, resp := some ((nextBit s.mem u).1.respond .bit) } :=
  exec_read rfl hu ht

/-- `RC.SKIP_BITS` on a bound Decoder (R74). -/
theorem exec_rcSkipBits {s : State} {u : Binding} (n : Nat) (hu : s.dec = some u) (ht : s.decTaken = false) :
    exec (.rcSkipBits n) s = .next { s with dec := some (skipBits n u), resp := some (.ok .empty) } :=
  exec_read rfl hu ht

/-! ## A skip as repeated reads (R76) -/

/-- Reading a bit and then skipping `n` is skipping `n + 1`, also at the end of the buffer. -/
theorem skipBits_nextBit {u : Binding} (h : u.pos ≤ u.size) (m : Memory) (n : Nat) :
    skipBits n (nextBit m u).2 = skipBits (n + 1) u := by
  rw [nextBit_eq]
  split
  · simp only [skipBits_eq, pos_seek, seek_size, seek_seek, Nat.add_assoc, Nat.add_comm 1 n]
  · have hend : min (u.pos + n) u.size = min (u.pos + (n + 1)) u.size := by omega
    simp only [skipBits_eq, hend]

/-- Successive `RC.NEXT_BIT` all have next states and leave the cursor where one skip leaves it. -/
theorem runAll_rcNextBit {n : Nat} {s : State} {u : Binding} (hu : s.dec = some u) (ht : s.decTaken = false) (hok : u.Ok) :
    ∃ rs t, runAll (List.replicate n .rcNextBit) s = some (rs, t) ∧ t.dec = some (skipBits n u) := by
  induction n generalizing s u with
  | zero => exact ⟨[], s, rfl, by rw [hu, skipBits_eq, Nat.add_zero, min_eq_left hok.pos_le, seek_pos]⟩
  | succ n ih =>
    obtain ⟨s', hread, hu', ht'⟩ : ∃ s', exec .rcNextBit s = .next s' ∧ s'.dec = some (nextBit s.mem u).2 ∧
        s'.decTaken = false := ⟨_, exec_rcNextBit hu ht, rfl, ht⟩
    obtain ⟨rs, t, hrun, hdec⟩ := ih hu' ht' (readFn_ok (i := .rcNextBit) rfl s.mem hok)
    exact ⟨_, t, runAll_cons hread rfl hrun, by rw [hdec, skipBits_nextBit hok.pos_le]⟩

/-- Settles O31: by induction on the count, each read taking one bit off the skip. -/
theorem rcSkipBitsIsRepeatedNextBit : Obligations.RcSkipBitsIsRepeatedNextBit := by
  unfold Obligations.RcSkipBitsIsRepeatedNextBit
  intro s u n hu ht hok
  obtain ⟨rs, t, hrun, hdec⟩ := runAll_rcNextBit (n := n) hu ht hok
  exact ⟨rs, t, _, hrun, exec_rcSkipBits n hu ht, hdec.symm, rfl,
    fun m => exec_rcSkipBits (s := { s with mem := m }) n hu ht⟩

/-! ## One bit, and a skip in linear positions (R72, R75) -/

/-- Settles O28: the two cases of `nextBit`, at the end of the buffer and inside it. -/
theorem rcNextBitReadsTheBitUnderTheCursor : Obligations.RcNextBitReadsTheBitUnderTheCursor := by
  unfold Obligations.RcNextBitReadsTheBitUnderTheCursor
  intro s u hu ht
  rw [exec_rcNextBit hu ht]
  refine ⟨fun hend => ?_, fun hin => ?_⟩
  · rw [nextBit_end hend, respond_fail, set_dec hu]
  · rw [nextBit_inside hin, respond_ok]

/-- Settles O30: `skipBits` in linear positions. -/
theorem rcSkipBitsClampsAtTheEnd : Obligations.RcSkipBitsClampsAtTheEnd := by
  unfold Obligations.RcSkipBitsClampsAtTheEnd
  intro s u n hu ht
  rw [exec_rcSkipBits n hu ht, skipBits_eq, Binding.size]

/-! ## The end of the stream (R73) -/

/-- Only a failed result makes a failed response. -/
theorem respond_eq_fail {α : Type} {f : α → Payload} {r : Result α} {e : Failure} (h : r.respond f = .fail e) :
    r = .fail e := by
  cases r with
  | ok v => cases h
  | fail e' => rw [Result.fail.inj h]

/-- EndOfStream from `RC.NEXT_BIT` says that the cursor stands at the end. -/
theorem nextBit_of_endOfStream {m : Memory} {u : Binding} (h : u.pos ≤ u.size)
    (he : (nextBit m u).1 = .fail .endOfStream) : (nextBit m u).2 = u.seek u.size := by
  rw [nextBit_eq] at he ⊢
  split at he
  · cases he
  · next hend => rw [if_neg hend, show u.size = u.pos by omega, seek_pos]

/-- A value read that answers EndOfStream, in its prefix or in its suffix, has run to the end. -/
theorem nextUnsigned_of_endOfStream {m : Memory} {u : Binding} (h : u.pos ≤ u.size)
    (he : (nextUnsigned m u).1 = .fail .endOfStream) : (nextUnsigned m u).2 = u.seek u.size := by
  obtain ⟨z, hz⟩ := exists_zeroRun m u h
  rw [nextUnsigned_eq hz] at he ⊢
  by_cases hlong : 65 ≤ z
  · simp [hlong] at he
  by_cases hprefix : u.pos + z = u.size
  · simp [hlong, hprefix]
  by_cases hsuffix : u.size < u.pos + 2 * z + 1
  · simp [hlong, hprefix, hsuffix]
  · simp only [hlong, hprefix, hsuffix, if_false] at he
    split at he <;> cases he

/-- A value skip that answers EndOfStream has run to the end in its prefix. -/
theorem skipNext_of_endOfStream {m : Memory} {u : Binding} (h : u.pos ≤ u.size)
    (he : (skipNext m u).1 = .fail .endOfStream) : (skipNext m u).2 = u.seek u.size := by
  obtain ⟨z, hz⟩ := exists_zeroRun m u h
  rw [skipNext_eq hz] at he ⊢
  by_cases hlong : 65 ≤ z
  · simp [hlong] at he
  by_cases hprefix : u.pos + z = u.size
  · simp [hlong, hprefix]
  · simp [hlong, hprefix] at he

/-- A reading instruction that answers EndOfStream leaves the cursor at the end. -/
theorem readFn_of_endOfStream {i : Instr} (hi : isRead i = true) {m : Memory} {u : Binding} (h : u.pos ≤ u.size)
    (he : (readFn i m u).1 = .fail .endOfStream) : (readFn i m u).2 = u.seek u.size := by
  cases i <;> simp only [isRead, isDecRead, isReadCursorOp, Bool.or_self, Bool.false_eq_true] at hi
  case decNextBit => exact nextBit_of_endOfStream h (respond_eq_fail he)
  case decNextUnsigned => exact nextUnsigned_of_endOfStream h (respond_eq_fail he)
  case decNextSigned => exact nextUnsigned_of_endOfStream h (respond_eq_fail he)
  case decSkipNext => exact skipNext_of_endOfStream h (respond_eq_fail he)
  case rcNextBit => exact nextBit_of_endOfStream h (respond_eq_fail he)
  case rcSkipBits n => cases he

/-- An exhausted cursor in order stands exactly at the end (R21). -/
theorem Binding.Ok.pos_eq_size {u : Binding} (h : u.Ok) (hend : u.byte = u.len) : u.pos = u.size := by
  have hpos := pos_lt_size u
  have hle := h.pos_le
  omega

/-- No zeros follow the end of the buffer. -/
theorem zeroRun_end (m : Memory) {u : Binding} (h : u.pos = u.size) : ZeroRun m u 0 :=
  ⟨h.le, by simp, .inl h⟩

/-- Every read on an exhausted cursor is EndOfStream and leaves the cursor. -/
theorem readFn_end {i : Instr} (hi : isDecRead i = true ∨ i = .rcNextBit) (m : Memory) {u : Binding} (hok : u.Ok)
    (hend : u.byte = u.len) : readFn i m u = (.fail .endOfStream, u) := by
  have hpos := hok.pos_eq_size hend
  have hseek : u.seek u.size = u := by rw [← hpos, seek_pos]
  have hvalue : nextUnsigned m u = (.fail .endOfStream, u) := by
    simp [nextUnsigned_eq (zeroRun_end m hpos), hpos, hseek]
  have hskip : skipNext m u = (.fail .endOfStream, u) := by
    simp [skipNext_eq (zeroRun_end m hpos), hpos, hseek]
  cases i <;> simp [isDecRead] at hi
  all_goals simp only [readFn, nextBit_end hend, hvalue, hskip, respond_fail]

/-- A skip on an exhausted cursor moves nowhere (R74). -/
theorem skipBits_end (n : Nat) {u : Binding} (hok : u.Ok) (hend : u.byte = u.len) : skipBits n u = u := by
  have hpos := hok.pos_eq_size hend
  rw [skipBits_eq, min_eq_right (by omega), ← hpos, seek_pos]

/-- Settles O29: EndOfStream leaves the cursor at the end, and there every read answers it again. -/
theorem endOfStreamIsSticky : Obligations.EndOfStreamIsSticky := by
  unfold Obligations.EndOfStreamIsSticky
  intro s u hu ht hok
  refine ⟨fun i t hi he hr => ?_, fun hend => ⟨fun i hi => ?_, fun n => ?_⟩⟩
  · obtain rfl := exec_read_next hi hu he
    have hu' := readFn_of_endOfStream hi hok.pos_le (Option.some.inj hr)
    exact ⟨ht, _, rfl, readFn_ok hi s.mem hok, by simp [hu', Binding.size]⟩
  · have hread : isRead i = true := by
      rcases hi with hi | rfl
      · simp [isRead, hi]
      · rfl
    rw [exec_read hread hu ht, readFn_end hi s.mem hok hend, set_dec hu]
  · rw [exec_rcSkipBits n hu ht, skipBits_end n hok hend, set_dec hu]

end Sys2Proof.Machine
end

section
/-!
PROOFS. The Decoder's commands one by one (spec 41_decoder R77 to R86): O19, O32, O33, O34, O36, O39, O40.
-/

namespace Sys2Proof.Machine

/-! ## The commands on an unbound Decoder, and its construction (R77, R78) -/

/-- Settles O19: the Decoder's half of `exec_unbound`. -/
theorem unboundDecoderAnswersIllegal : Obligations.UnboundDecoderAnswersIllegal := by
  unfold Obligations.UnboundDecoderAnswersIllegal
  exact fun i s hi hu => exec_unbound (.inl ⟨hi, hu⟩)

/-- `DEC.NEW` with an empty buffer or an offset above 7 (R78). -/
theorem exec_decNew_invalid (s : State) {buf : BufRef} {off : Word64} (h : buf.len = 0 ∨ 7 < off.toNat) :
    exec (.decNew buf off) s = .next { s with resp := some (.fail .invalidArgument) } := by
  simp only [exec, execDecNew, newBinding_eq, if_pos h, answer_eq]

/-- A buffer that lies wholly before or after the one a unit holds shares no byte with it (R43). -/
theorem heldOver_of_apart {o : Option Binding} {v : Binding}
    (h : ∀ u, o = some u → u.base + u.len ≤ v.base ∨ v.base + v.len ≤ u.base) : heldOver o v = false := by
  rw [← Bool.not_eq_true, heldOver_iff]
  rintro ⟨u, hu, hlo, hhi⟩
  rcases h u hu with hbefore | hafter <;> omega

/-- Settles O32: the two answers of `newBinding`. -/
theorem decNewBindsTheDecoder : Obligations.DecNewBindsTheDecoder := by
  unfold Obligations.DecNewBindsTheDecoder
  intro s buf off
  refine ⟨exec_decNew_invalid s, fun hlen hoff hapart => ?_⟩
  exact ⟨_, exec_decNew hlen hoff (heldOver_of_apart hapart), rfl, rfl, rfl, rfl, rfl, rfl, rfl, rfl⟩

/-! ## The commands on a bound Decoder (R79, R82, R84, R85) -/

section
variable {s : State} {u : Binding} (hu : s.dec = some u) (ht : s.decTaken = false)
include hu ht

/-- `DEC.NEXT_BIT` on a bound Decoder (R79). -/
theorem exec_decNextBit : exec .decNextBit s = .next { s with
    dec := some (nextBit s.mem u).2
    resp := some ((nextBit s.mem u).1.respond fun b => .data (if b then 1 else 0)) } :=
  exec_read rfl hu ht

/-- `DEC.NEXT_UNSIGNED` on a bound Decoder (R82). -/
theorem exec_decNextUnsigned : exec .decNextUnsigned s = .next { s with
    dec := some (nextUnsigned s.mem u).2, resp := some ((nextUnsigned s.mem u).1.respond .data) } :=
  exec_read rfl hu ht

/-- `DEC.NEXT_SIGNED` on a bound Decoder (R84). -/
theorem exec_decNextSigned : exec .decNextSigned s = .next { s with
    dec := some (nextUnsigned s.mem u).2, resp := some ((nextUnsigned s.mem u).1.respond fun v => .data (u2s v)) } :=
  exec_read rfl hu ht

/-- `DEC.SKIP_NEXT` on a bound Decoder (R85). -/
theorem exec_decSkipNext : exec .decSkipNext s = .next { s with
    dec := some (skipNext s.mem u).2, resp := some ((skipNext s.mem u).1.respond fun _ => .empty) } :=
  exec_read rfl hu ht

end

/-- A bit zero-extended to 64 bits (R79). -/
theorem zeroExtend_bit (b : Bit) : (if b then 1 else 0 : Word64) = BitVec.ofNat 64 b.toNat := by cases b <;> rfl

/-- Settles O33: the two cases of `nextBit`, at the end of the buffer and inside it. -/
theorem decNextBitReturnsTheRawBit : Obligations.DecNextBitReturnsTheRawBit := by
  unfold Obligations.DecNextBitReturnsTheRawBit
  intro s u hu ht
  rw [exec_decNextBit hu ht]
  refine ⟨fun hend => ?_, fun hin => ?_⟩
  · rw [nextBit_end hend, respond_fail, set_dec hu]
  · rw [nextBit_inside hin, respond_ok, zeroExtend_bit]

/-! ## Value reads and skips in linear positions (R83, R85) -/

/-- Settles O34: the five cases of `nextUnsigned_eq`. -/
theorem decNextUnsignedByLinearPosition : Obligations.DecNextUnsignedByLinearPosition := by
  unfold Obligations.DecNextUnsignedByLinearPosition
  intro s u hu ht hok
  refine ⟨exists_zeroRun s.mem u hok.pos_le, fun z hz => ?_⟩
  rw [exec_decNextUnsigned hu ht, nextUnsigned_eq hz, Binding.size]
  split_ifs <;> rfl

/-- Settles O39: the three cases of `skipNext_eq`. -/
theorem decSkipNextByLinearPosition : Obligations.DecSkipNextByLinearPosition := by
  unfold Obligations.DecSkipNextByLinearPosition
  intro s u hu ht _ z hz
  rw [exec_decSkipNext hu ht, skipNext_eq hz, Binding.size]
  split_ifs <;> rfl

/-! ## Whole codewords (R83, R85) -/

section
variable {m : Memory} {u : Binding} {z : Nat} (hz : ZeroRun m u z)
include hz

/-- A value read of a codeword that lies in the buffer answers what the codeword stands for, the cursor after it (R82, R83). -/
theorem nextUnsigned_whole (hshort : z ≤ 64) (hfit : u.pos + 2 * z + 1 ≤ u.size) :
    nextUnsigned m u = (valueOf z (fieldAt m u.base (u.pos + z + 1) z), u.seek (u.pos + 2 * z + 1)) := by
  rw [nextUnsigned_eq hz, if_neg (by omega), if_neg (by omega), if_neg (by omega), valueOf]
  split
  · next hover => rw [hover.1]
  · rfl

/-- A skip of a codeword that lies in the buffer ends after it (R85). -/
theorem skipNext_whole (hshort : z ≤ 64) (hfit : u.pos + 2 * z + 1 ≤ u.size) :
    skipNext m u = (.ok (), u.seek (u.pos + 2 * z + 1)) := by
  rw [skipNext_eq hz, if_neg (by omega), if_neg (by omega), min_eq_left hfit]

/-- A zero run of 65 or more is Overflow after its 65th zero, in a value read (R83). -/
theorem nextUnsigned_long (hlong : 65 ≤ z) : nextUnsigned m u = (.fail .overflow, u.seek (u.pos + 65)) := by
  rw [nextUnsigned_eq hz, if_pos hlong]

/-- A zero run of 65 or more is Overflow after its 65th zero, in a skip (R85). -/
theorem skipNext_long (hlong : 65 ≤ z) : skipNext m u = (.fail .overflow, u.seek (u.pos + 65)) := by
  rw [skipNext_eq hz, if_pos hlong]

/-- A value read that does not answer EndOfStream has the whole codeword in the buffer. -/
theorem whole_of_nextUnsigned (hshort : z ≤ 64) (hq : (nextUnsigned m u).1 ≠ .fail .endOfStream) :
    u.pos + 2 * z + 1 ≤ u.size := by
  by_contra hcut
  apply hq
  rw [nextUnsigned_eq hz, if_neg (by omega)]
  by_cases hprefix : u.pos + z = u.size
  · rw [if_pos hprefix]
  · rw [if_neg hprefix, if_pos (by omega)]

/-- A skip that neither answers EndOfStream nor clamps has the whole codeword in the buffer. -/
theorem whole_of_skipNext (hshort : z ≤ 64) (hq : (skipNext m u).1 ≠ .fail .endOfStream) (hclamp : ¬ skipClamps m u) :
    u.pos + 2 * z + 1 ≤ u.size := by
  by_contra hcut
  rcases Nat.lt_or_eq_of_le hz.1 with hterm | hprefix
  · exact hclamp ⟨z, hshort, hz, hterm, by omega⟩
  · exact hq (by rw [skipNext_eq hz, if_neg (by omega), if_pos hprefix])

end

/-! ## The signed value (R84) -/

/-- `U2S` as R84 writes it: the magnitude, or its two's complement negation. -/
theorem u2s_eq (v : Word64) : u2s v =
    if v.toNat % 2 = 1 then BitVec.ofNat 64 ((v.toNat / 2 + v.toNat % 2) % 2 ^ 64)
    else BitVec.ofNat 64 ((2 ^ 64 - (v.toNat / 2 + v.toNat % 2) % 2 ^ 64) % 2 ^ 64) := by
  rw [← apply_ite (BitVec.ofNat 64), ← u2s_toNat_magnitude, BitVec.ofNat_toNat, BitVec.setWidth_eq]

/-- A codeword whose sum fits 64 bits stands for that sum (R55). -/
theorem valueOf_of_fits {z suffix : Nat} (hval : 2 ^ z - 1 + suffix < 2 ^ 64) :
    z ≤ 64 ∧ valueOf z suffix = .ok (BitVec.ofNat 64 (2 ^ z - 1 + suffix)) := by
  have hz : z ≤ 64 := (Nat.pow_le_pow_iff_right (by decide : 1 < 2)).1 (by omega)
  refine ⟨hz, ?_⟩
  rw [valueOf, if_neg]
  rintro ⟨hmax, hne⟩
  obtain rfl : z = 64 := hmax
  omega

/-- Settles O36: both commands run `nextUnsigned`; they differ in what they answer for its value. -/
theorem decNextSignedMapsTheUnsignedValue : Obligations.DecNextSignedMapsTheUnsignedValue := by
  unfold Obligations.DecNextSignedMapsTheUnsignedValue
  intro s u hu ht
  refine ⟨⟨_, _, exec_decNextUnsigned hu ht, exec_decNextSigned hu ht, rfl, ?_⟩, fun z v _ hz hfit hv hlt => ?_⟩
  · cases (nextUnsigned s.mem u).1 with
    | fail e => exact .inl ⟨e, rfl, rfl⟩
    | ok v => exact .inr ⟨v, rfl, by rw [respond_ok, u2s_eq]⟩
  · subst hv
    obtain ⟨hshort, hval⟩ := valueOf_of_fits hlt
    rw [exec_decNextSigned hu ht, nextUnsigned_whole hz hshort hfit, hval, respond_ok, u2s_eq, BitVec.toNat_ofNat,
      Nat.mod_eq_of_lt hlt]

/-! ## A skip where a value read succeeds (R86) -/

/-- A Decoder command that answers other than Illegal has run on a bound Decoder whose buffer was not taken back. -/
theorem bound_of_not_illegal {i : Instr} {s t : State} (hi : isDecRead i = true) (he : exec i s = .next t)
    (hr : t.resp ≠ some (.fail .illegal)) : ∃ u, s.dec = some u ∧ s.decTaken = false := by
  cases hu : s.dec with
  | none =>
    rw [exec_unbound (.inl ⟨hi, hu⟩)] at he
    obtain rfl := Host.Outcome.next.inj he
    exact absurd rfl hr
  | some u =>
    refine ⟨u, rfl, Bool.eq_false_iff.2 fun ht => ?_⟩
    rw [exec_read_taken (by simp [isRead, hi]) hu ht] at he
    cases he

/-- Where a value read succeeds, the whole codeword lies in the buffer, and a skip lands after it as the read does (R86). -/
theorem skipNext_of_nextUnsigned_ok {m : Memory} {u : Binding} {k : Nat} {v : Word64} (hk : ZeroRun m u k)
    (h : (nextUnsigned m u).1 = .ok v) :
    (nextUnsigned m u).2 = u.seek (u.pos + 2 * k + 1) ∧ skipNext m u = (.ok (), u.seek (u.pos + 2 * k + 1)) := by
  have hshort : k ≤ 64 := by
    by_contra hlong
    rw [nextUnsigned_long hk (by omega)] at h
    cases h
  have hfit := whole_of_nextUnsigned hk hshort (by simp [h])
  exact ⟨by rw [nextUnsigned_whole hk hshort hfit], skipNext_whole hk hshort hfit⟩

/-- Settles O40: the read succeeds only on a bound Decoder, on a whole codeword. -/
theorem skipLandsWhereNextUnsignedLands : Obligations.SkipLandsWhereNextUnsignedLands := by
  unfold Obligations.SkipLandsWhereNextUnsignedLands
  rintro s t v ⟨-, hdec, -⟩ he hv
  obtain ⟨u, hu, ht⟩ := bound_of_not_illegal (i := .decNextUnsigned) rfl he (by simp [hv])
  obtain ⟨k, hk⟩ := exists_zeroRun s.mem u (hdec u hu).pos_le
  obtain rfl := exec_read_next (i := .decNextUnsigned) rfl hu he
  obtain ⟨hcur, hskip⟩ := skipNext_of_nextUnsigned_ok hk (eq_ok_of_respond_data (Option.some.inj hv))
  refine ⟨?_, u, k, hu, hk, congrArg some hcur⟩
  rw [exec_decSkipNext hu ht, hskip, respond_ok, readFn, hcur]

end Sys2Proof.Machine
end

section
/-!
PROOFS. Decoding does not depend on where in a byte the stream starts (spec 41_decoder R87): O41. The two streams are related by
`Shifted`; every Decoder command that neither answers EndOfStream nor clamps answers the same on both and keeps the relation.
-/

namespace Sys2Proof.Machine

/-- The two bindings stand at the same bit of one stream, `k` bits further into `u`'s buffer than into that of `u'`; from there
to the end of `u`'s buffer the buffers hold the same bits. -/
structure Shifted (k : Nat) (m m' : Memory) (u u' : Binding) : Prop where
  size_eq : u'.size = u.size
  pos_eq : u.pos = u'.pos + k
  pos_le : u.pos ≤ u.size
  bits : ∀ q, q + k < u.size → bitAt m' u'.base q = bitAt m u.base (q + k)

/-- Two reads that answer the same and leave their cursors `k` bits apart. -/
def ShiftedReads {α : Type} (k : Nat) (u u' : Binding) (r r' : Result α × Binding) : Prop :=
  ∃ v p, p + k ≤ u.size ∧ r = (v, u.seek (p + k)) ∧ r' = (v, u'.seek p)

section
variable {k : Nat} {m m' : Memory} {u u' : Binding} (h : Shifted k m m' u u')
include h

/-- Moving both cursors to places `k` bits apart keeps the relation. -/
theorem Shifted.seek {p : Nat} (hp : p + k ≤ u.size) : Shifted k m m' (u.seek (p + k)) (u'.seek p) :=
  ⟨h.size_eq, by simp, by simpa using hp, h.bits⟩

/-- The bit so many bits after either cursor. -/
theorem Shifted.bitAt_add {j : Nat} (hj : u.pos + j < u.size) :
    bitAt m' u'.base (u'.pos + j) = bitAt m u.base (u.pos + j) := by
  have hpos := h.pos_eq
  rw [h.bits _ (by omega), show u'.pos + j + k = u.pos + j by omega]

/-- A field that lies in the buffer. -/
theorem Shifted.fieldAt_add {j n : Nat} (hn : u.pos + j + n ≤ u.size) :
    fieldAt m' u'.base (u'.pos + j) n = fieldAt m u.base (u.pos + j) n :=
  fieldAt_congr fun i hi => by rw [Nat.add_assoc, Nat.add_assoc, h.bitAt_add (by omega)]

/-- A zero run that has its terminator is the zero run of both streams. -/
theorem Shifted.zeroRun {z : Nat} (hz : ZeroRun m u z) (hterm : u.pos + z < u.size) : ZeroRun m' u' z := by
  obtain ⟨-, hzeros, hend⟩ := hz
  have hpos := h.pos_eq
  refine ⟨by rw [h.size_eq]; omega, fun i hi => ?_, .inr ?_⟩
  · rw [h.bitAt_add (by omega), hzeros i hi]
  · rw [h.bitAt_add hterm, hend.resolve_left hterm.ne]

/-- A zero run that the end of the buffer cuts off can only be longer in the other stream. -/
theorem Shifted.zeroRun_le {z z' : Nat} (hz : ZeroRun m u z) (hz' : ZeroRun m' u' z') : z ≤ z' := by
  obtain ⟨hin, hzeros, -⟩ := hz
  obtain ⟨-, -, hend'⟩ := hz'
  by_contra hlt
  have hpos := h.pos_eq
  rcases hend' with hend' | hone
  · rw [h.size_eq] at hend'
    omega
  · rw [h.bitAt_add (by omega), hzeros z' (by omega)] at hone
    cases hone

/-- The zero runs at the two cursors: both 65 or more, or the same if `u`'s has its terminator. -/
theorem Shifted.exists_zeroRun : ∃ z z', ZeroRun m u z ∧ ZeroRun m' u' z' ∧
    (65 ≤ z ∧ 65 ≤ z' ∨ z ≤ 64 ∧ (u.pos + z < u.size → z' = z)) := by
  have hsize := h.size_eq
  have hpos := h.pos_eq
  have hle := h.pos_le
  obtain ⟨z, hz⟩ := Machine.exists_zeroRun m u hle
  obtain ⟨z', hz'⟩ := Machine.exists_zeroRun m' u' (by omega)
  refine ⟨z, z', hz, hz', ?_⟩
  by_cases hlong : 65 ≤ z
  · exact .inl ⟨hlong, hlong.trans (h.zeroRun_le hz hz')⟩
  · exact .inr ⟨by omega, fun hterm => zeroRun_unique hz' (h.zeroRun hz hterm)⟩

/-- Cursors moved by the same number of bits from either stand `k` bits apart again. -/
theorem Shifted.reads {α : Type} (v : Result α) {n : Nat} (hn : u.pos + n ≤ u.size) :
    ShiftedReads k u u' (v, u.seek (u.pos + n)) (v, u'.seek (u'.pos + n)) := by
  have hpos := h.pos_eq
  exact ⟨v, u'.pos + n, by omega, by rw [show u'.pos + n + k = u.pos + n by omega], rfl⟩

/-! ## The commands -/

/-- A bit read. -/
theorem Shifted.nextBit (hq : (nextBit m u).1 ≠ .fail .endOfStream) :
    ShiftedReads k u u' (Machine.nextBit m u) (Machine.nextBit m' u') := by
  have hsize := h.size_eq
  have hpos := h.pos_eq
  have hin : u.pos < u.size := by
    by_contra hend
    exact hq (by rw [nextBit_eq, if_neg hend])
  have hbit : bitAt m' u'.base u'.pos = bitAt m u.base u.pos := h.bitAt_add (j := 0) hin
  rw [nextBit_eq, nextBit_eq, if_pos hin, if_pos (by omega), hbit]
  exact h.reads _ hin

/-- A value read: Overflow in the prefix, or a codeword that lies in the buffer. -/
theorem Shifted.nextUnsigned (hq : (nextUnsigned m u).1 ≠ .fail .endOfStream) :
    ShiftedReads k u u' (Machine.nextUnsigned m u) (Machine.nextUnsigned m' u') := by
  have hsize := h.size_eq
  have hpos := h.pos_eq
  obtain ⟨z, z', hz, hz', ⟨hlong, hlong'⟩ | ⟨hshort, hsame⟩⟩ := h.exists_zeroRun
  · have hin := hz.1
    rw [nextUnsigned_long hz hlong, nextUnsigned_long hz' hlong']
    exact h.reads _ (by omega)
  · have hfit := whole_of_nextUnsigned hz hshort hq
    obtain rfl := hsame (by omega)
    have hfield : fieldAt m' u'.base (u'.pos + z' + 1) z' = fieldAt m u.base (u.pos + z' + 1) z' :=
      h.fieldAt_add (j := z' + 1) (by omega)
    rw [nextUnsigned_whole hz hshort hfit, nextUnsigned_whole hz' hshort (by omega), hfield]
    exact h.reads (n := 2 * z' + 1) _ hfit

/-- A skip: Overflow in the prefix, or a codeword that lies in the buffer, since the skip does not clamp. -/
theorem Shifted.skipNext (hq : (skipNext m u).1 ≠ .fail .endOfStream) (hclamp : ¬ skipClamps m u) :
    ShiftedReads k u u' (Machine.skipNext m u) (Machine.skipNext m' u') := by
  have hsize := h.size_eq
  have hpos := h.pos_eq
  obtain ⟨z, z', hz, hz', ⟨hlong, hlong'⟩ | ⟨hshort, hsame⟩⟩ := h.exists_zeroRun
  · have hin := hz.1
    rw [skipNext_long hz hlong, skipNext_long hz' hlong']
    exact h.reads _ (by omega)
  · have hfit := whole_of_skipNext hz hshort hq hclamp
    obtain rfl := hsame (by omega)
    rw [skipNext_whole hz hshort hfit, skipNext_whole hz' hshort (by omega)]
    exact h.reads (n := 2 * z' + 1) _ hfit

end

/-- Results that are shifted reads make responses that are. -/
theorem ShiftedReads.respond {α : Type} {k : Nat} {u u' : Binding} {r r' : Result α × Binding}
    (h : ShiftedReads k u u' r r') (f : α → Payload) :
    ShiftedReads k u u' (r.1.respond f, r.2) (r'.1.respond f, r'.2) := by
  obtain ⟨v, p, hp, rfl, rfl⟩ := h
  exact ⟨v.respond f, p, hp, rfl, rfl⟩

/-- A response that is not EndOfStream comes from a result that is not. -/
theorem ne_endOfStream_of_respond {α : Type} {f : α → Payload} {r : Result α}
    (h : r.respond f ≠ .fail .endOfStream) : r ≠ .fail .endOfStream := by
  rintro rfl
  exact h rfl

/-- Every Decoder command that neither answers EndOfStream nor clamps. -/
theorem Shifted.readFn {i : Instr} {k : Nat} {m m' : Memory} {u u' : Binding} (h : Shifted k m m' u u')
    (hi : isDecRead i = true) (hq : (readFn i m u).1 ≠ .fail .endOfStream)
    (hclamp : i = .decSkipNext → ¬ skipClamps m u) :
    ShiftedReads k u u' (Machine.readFn i m u) (Machine.readFn i m' u') := by
  cases i with
  | decNextBit => exact (h.nextBit (ne_endOfStream_of_respond hq)).respond _
  | decNextUnsigned => exact (h.nextUnsigned (ne_endOfStream_of_respond hq)).respond _
  | decNextSigned => exact (h.nextUnsigned (ne_endOfStream_of_respond hq)).respond _
  | decSkipNext => exact (h.skipNext (ne_endOfStream_of_respond hq) (hclamp rfl)).respond _
  | _ => simp [isDecRead] at hi

/-! ## Runs -/

/-- A quiet run gives the same responses on both streams and leaves the cursors `k` bits apart. -/
theorem runAll_shifted {is : List Instr} {k : Nat} {s s' : State} {u u' : Binding} (hu : s.dec = some u)
    (hu' : s'.dec = some u') (ht : s.decTaken = false) (ht' : s'.decTaken = false)
    (h : Shifted k s.mem s'.mem u u') (hquiet : QuietRun is s) :
    ∃ rs f f' d d', runAll is s = some (rs, f) ∧ runAll is s' = some (rs, f') ∧ f.dec = some d ∧ f'.dec = some d' ∧
      d.pos = d'.pos + k := by
  induction is generalizing s s' u u' with
  | nil => exact ⟨[], s, s', u, u', rfl, rfl, hu, hu', h.pos_eq⟩
  | cons i is ih =>
    obtain ⟨hi, hclamp, t, he, hresp, hrest⟩ := hquiet
    have hread : isRead i = true := by simp [isRead, hi]
    obtain rfl := exec_read_next hread hu he
    obtain ⟨v, p, hp, hr, hr'⟩ := h.readFn hi (fun heos => hresp (congrArg some heos)) fun hskip => hclamp hskip u hu
    have he' := exec_read hread hu' ht'
    rw [hr] at he hrest
    rw [hr'] at he'
    obtain ⟨rs, f, f', d, d', hrun, hrun', hd, hd', hpos⟩ := ih
      (s := { s with dec := some (u.seek (p + k)), resp := some v })
      (s' := { s' with dec := some (u'.seek p), resp := some v }) rfl rfl ht ht' (h.seek hp) hrest
    exact ⟨some v :: rs, f, f', d, d', runAll_cons he rfl hrun, runAll_cons he' rfl hrun', hd, hd', hpos⟩

/-- A `DEC.NEW` answered Ok has opened its buffer at its offset (R78). -/
theorem opens_of_decNew_ok {buf : BufRef} {off : Word64} {s t : State} (he : exec (.decNew buf off) s = .next t)
    (hr : t.resp = some (.ok .empty)) :
    buf.len ≠ 0 ∧ off.toNat ≤ 7 ∧ t.mem = s.mem ∧ ∃ u, t.dec = some u ∧ u.Opens buf off.toNat := by
  by_cases hbad : buf.len = 0 ∨ 7 < off.toNat
  · rw [exec_decNew_invalid s hbad] at he
    cases he
    cases hr
  · have hlen : buf.len ≠ 0 := fun hzero => hbad (.inl hzero)
    have hoff : off.toNat ≤ 7 := Nat.le_of_not_lt fun hlt => hbad (.inr hlt)
    cases hover : heldOver s.enc ⟨buf.base, buf.len, 0, BitVec.ofNat 3 off.toNat⟩ with
    | true =>
      rw [exec_decNew_overlapping hlen hoff hover] at he
      cases he
    | false =>
      rw [exec_decNew hlen hoff hover] at he
      cases he
      exact ⟨hlen, hoff, rfl, _, rfl, rfl, rfl, pos_new _ _ hoff⟩

/-- Settles O41: the two NEWs leave shifted bindings, and the run keeps them so. -/
theorem decodingIsAlignmentInvariant : Obligations.DecodingIsAlignmentInvariant := by
  unfold Obligations.DecodingIsAlignmentInvariant
  intro s s' t t' buf buf' sh is hlen hbits he hr he' hr' hquiet
  obtain ⟨hne, hsh, hmem, u, hu, hbase, hsize, hpos⟩ := opens_of_decNew_ok he hr
  obtain ⟨-, -, hmem', u', hu', hbase', hsize', hpos'⟩ := opens_of_decNew_ok he' hr'
  have hshifted : Shifted sh.toNat t.mem t'.mem u u' := by
    refine ⟨by omega, by simp [hpos, hpos'], by omega, fun q hq => ?_⟩
    rw [hmem, hmem', hbase, hbase', hbits q (by omega), Nat.add_comm]
  exact runAll_shifted hu hu' (decTaken_of_decNew he hr) (decTaken_of_decNew he' hr') hshifted hquiet

end Sys2Proof.Machine
end

section
/-!
PROOFS. The write cursor in linear positions (spec 42_write_cursor R89 to R91): O43, O44, O45.
-/

namespace Sys2Proof.Machine

/-! ## Any writing instruction in linear positions -/

/-- A writing instruction ends one run length further with Ok, or at the end of the buffer with Full. -/
theorem exec_write_linear {i : Instr} {s : State} {u : Binding} (hi : isWrite i = true) (hu : s.enc = some u)
    (hpos : u.pos ≤ u.size) :
    exec i s = .next { s with
      enc := some (u.seek (min (u.pos + runLength i) u.size))
      mem := (putRun (runOf i) s.mem u).2.1
      resp := some (if u.pos + runLength i ≤ u.size then .ok .empty else .fail .full) } := by
  obtain ⟨hanswer, hcursor⟩ := putRun_end (runOf i) s.mem u hpos
  rw [exec_write hi hu, hcursor, hanswer, runOf_length, apply_ite (Result.respond _), respond_ok, respond_fail]

/-- In the registers of a cursor, `orBit` ORs the mask `0x80 >> bit` into the byte under it (R13, R89). -/
theorem orBit_pos (b : Bit) (m : Memory) (u : Binding) :
    orBit b m u.base u.pos =
      if b then m.write (u.base + u.byte) (m.read (u.base + u.byte) ||| 0x80#8 >>> u.bit.toNat) else m := by
  have hbit := u.bit.isLt
  have hbyte : u.pos / 8 = u.byte := by simp only [Binding.pos]; omega
  have hoffset : u.pos % 8 = u.bit.toNat := by simp only [Binding.pos]; omega
  rw [orBit, hbyte, hoffset]

section
variable {i : Instr} {s : State} {u : Binding} {b : Bit} (hi : isWrite i = true) (hrun : runOf i = [b]) (hu : s.enc = some u)
include hi hrun hu

/-- Writing one bit at the end of the buffer changes nothing (R89, R94). -/
theorem exec_writeBit_end (hend : u.byte = u.len) : exec i s = .next { s with resp := some (.fail .full) } := by
  rw [exec_write hi hu, hrun, putRun_one, putBit_end hend, respond_fail, set_enc hu]

/-- Writing one bit inside the buffer (R89, R94). -/
theorem exec_writeBit_inside (hin : u.byte < u.len) :
    exec i s = .next { s with
      enc := some (u.seek (u.pos + 1))
      mem := if b then s.mem.write (u.base + u.byte) (s.mem.read (u.base + u.byte) ||| 0x80#8 >>> u.bit.toNat) else s.mem
      resp := some (.ok .empty) } := by
  rw [exec_write hi hu, hrun, putRun_one, putBit_inside hin, respond_ok, orBit_pos]

end

/-! ## The three operations -/

/-- Settles O45: the run of source bits in linear positions. -/
theorem wcPutBitsCopiesTheRun : Obligations.WcPutBitsCopiesTheRun := by
  unfold Obligations.WcPutBitsCopiesTheRun
  intro s u src start hu hok
  exact ⟨_, exec_write_linear rfl hu hok.pos_le, rfl, rfl, bitAt_putRun_runOf (.wcPutBits src start) s.mem u,
    read_putRun_outside _ s.mem u, rfl, rfl, rfl, rfl, rfl, rfl⟩

/-- Settles O43: the two cases of `putBit`, at the end of the buffer and inside it. -/
theorem wcPutBitOrsTheBitIn : Obligations.WcPutBitOrsTheBitIn := by
  unfold Obligations.WcPutBitOrsTheBitIn
  intro s u b hu
  exact ⟨exec_writeBit_end rfl rfl hu, exec_writeBit_inside rfl rfl hu⟩

/-- Settles O44: the run of zeros in linear positions; it has no 1 bit to store. -/
theorem wcPutZerosAdvances : Obligations.WcPutZerosAdvances := by
  unfold Obligations.WcPutZerosAdvances
  intro s u n hu hok
  have hmem : (putRun (runOf (.wcPutZeros n)) s.mem u).2.1 = s.mem := congrArg (·.2.1) (putRun_zeros n s.mem u)
  rw [exec_write_linear rfl hu hok.pos_le, hmem]
  simp only [runLength, Binding.size]
  by_cases hfits : u.pos + n ≤ 8 * u.len
  · simp only [hfits, min_eq_left, if_true]
  · simp only [hfits, min_eq_right (Nat.le_of_not_le hfits), if_false]

end Sys2Proof.Machine
end

section
/-!
PROOFS. The other two forms of `ENC.PUT_UNSIGNED`, on a byte image and on a 64-bit datapath (spec 43_encoder R95, R96): O48, O49.
-/

namespace Sys2Proof.Machine

/-- Settles O48: the run of the byte image is the bits of `X` (`sourceRun_image65`). -/
theorem encPutUnsignedByByteImage : Obligations.EncPutUnsignedByByteImage := by
  unfold Obligations.EncPutUnsignedByByteImage
  intro v m u
  have hk := zeroRunOf_le v
  rw [putUnsignedImage, putUnsigned]
  simp only [putBits, sourceRun_image65 (xOf v) (show zeroRunOf v ≤ 71 by omega)]

/-! ## The wrapped `value + 1` -/

/-- The wrapped `value + 1` is `X` unless it is 0 (R96). -/
theorem toNat_succ_eq_xOf {v : Word64} (h : v + 1 ≠ 0) : (v + 1).toNat = xOf v := by
  have hsum : (v + 1).toNat = (v.toNat + 1) % 2 ^ 64 := BitVec.toNat_add v 1
  have hne : (v + 1).toNat ≠ 0 := fun hzero => h (BitVec.eq_of_toNat_eq hzero)
  simp only [xOf]
  omega

/-- The wrapped `value + 1` is 0 only for `X = 2^64` (R96). -/
theorem xOf_of_succ_eq_zero {v : Word64} (h : v + 1 = 0) : xOf v = 2 ^ 64 := by
  have hsum : (v + 1).toNat = (v.toNat + 1) % 2 ^ 64 := BitVec.toNat_add v 1
  have hzero : (v + 1).toNat = 0 := congrArg BitVec.toNat h
  simp only [xOf]
  omega

/-- A zero run of 64 belongs to `X = 2^64` alone. -/
theorem zeroRunOf_le_63 {v : Word64} (h : v + 1 ≠ 0) : zeroRunOf v ≤ 63 := by
  have hlt : 2 ^ zeroRunOf v < 2 ^ 64 := (pow_le_xOf v).trans_lt (toNat_succ_eq_xOf h ▸ (v + 1).isLt)
  exact Nat.le_of_lt_succ ((Nat.pow_lt_pow_iff_right (by decide)).1 hlt)

/-- The leading-zero count of the wrapped `value + 1` tells the zero run: `k = 63 − clz` (R96). -/
theorem clz64_succ {v : Word64} (h : v + 1 ≠ 0) : clz64 (v + 1) = 63 - zeroRunOf v := by
  have hk := zeroRunOf_le_63 h
  rw [clz64, List.takeWhile_eq_take_findIdx_not, List.length_take, List.length_range]
  have hfirst : (List.range 64).findIdx (fun i => !!(v + 1).getLsbD (63 - i)) = 63 - zeroRunOf v := by
    rw [List.findIdx_eq (by rw [List.length_range]; omega)]
    simp only [List.getElem_range, Bool.not_not, ← BitVec.testBit_toNat, toNat_succ_eq_xOf h]
    refine ⟨?_, fun i hi => ?_⟩
    · rw [Nat.sub_sub_self hk, xOf_top]
    · exact Nat.testBit_lt_two_pow ((xOf_lt_pow v).trans_le (Nat.pow_le_pow_right (by decide) (by omega)))
  rw [hfirst]
  omega

/-! ## The 8-byte image -/

/-- The 8-byte image of a 64-bit value is its 9-byte image without the leading byte (R95, R96). -/
theorem be8_eq_image65_drop (x : Word64) : be8 x = (image65 x.toNat).drop 1 := rfl

/-- The run of the 8-byte image of `x` from bit `63 − k` on is the `k + 1` low bits of `x` (R96). -/
theorem sourceRun_be8 (x : Word64) {k : Nat} (h : k ≤ 63) :
    sourceRun ((be8 x).drop ((63 - k) / 8)) ((63 - k) % 8) = bitsDown x.toNat k := by
  have hbyte : 1 + (63 - k) / 8 = (71 - k) / 8 := by omega
  have hbit : (63 - k) % 8 = (71 - k) % 8 := by omega
  rw [be8_eq_image65_drop, List.drop_drop, hbyte, hbit, sourceRun_image65 x.toNat (by omega)]

/-! ## The special case (R96: `xp1 = 0`) -/

/-- `X = 2^64` is a 1 bit and 64 zeros. -/
theorem bitsDown_two_pow (k : Nat) : bitsDown (2 ^ k) k = true :: List.replicate k false := by
  have hlow : lowBits (2 ^ k) k = List.replicate k false :=
    (lowBits_two_pow_add 0 k).trans (by simp [lowBits])
  rw [bitsDown_eq_lowBits, lowBits_succ, Nat.testBit_two_pow_self, hlow]

/-- Settles O49: with `xp1 ≠ 0` both forms write the same run, and for `xp1 = 0` the run is a 1 bit and 64 zeros. -/
theorem encPutUnsignedOn64BitDatapath : Obligations.EncPutUnsignedOn64BitDatapath := by
  unfold Obligations.EncPutUnsignedOn64BitDatapath
  intro v m u
  rw [putUnsigned64, putUnsigned]
  by_cases h : v + 1 = 0
  · have hx := xOf_of_succ_eq_zero h
    have hk : zeroRunOf v = 64 := zeroRunOf_eq (by omega) (by omega)
    simp only [h, hx, hk, ne_eq, not_true_eq_false, if_false, bitsDown_two_pow]
    rcases putZeros 64 u with ⟨_ | e, u'⟩
    · by_cases hin : u'.pos < u'.size
      · simp only [putRun, putBit_eq, hin, if_true, putRun_zeros]
      · simp only [putRun, putBit_eq, hin, if_false]
    · rfl
  · have hk := zeroRunOf_le_63 h
    simp only [ne_eq, h, not_false_eq_true, if_true, clz64_succ h, Nat.sub_sub_self hk, putBits, sourceRun_be8 _ hk,
      toNat_succ_eq_xOf h]

end Sys2Proof.Machine
end

section
/-!
PROOFS. The Encoder's commands one by one (spec 43_encoder R92 to R98): O20, O42, O46, O47, O50, O51.
-/

namespace Sys2Proof.Machine

/-! ## The commands that open and close the Encoder, and the commands on an unbound one (R92, R93, R98) -/

/-- Settles O50: the equation of `ENC.CLOSE`. -/
theorem encCloseReturnsThePosition : Obligations.EncCloseReturnsThePosition := by
  unfold Obligations.EncCloseReturnsThePosition
  exact fun s u hu => exec_encClose hu

/-- No Encoder is bound after `ENC.CLOSE` (R98). -/
theorem enc_of_encClose {s t : State} (he : exec .encClose s = .next t) : t.enc = none := by
  cases hu : s.enc with
  | none =>
    rw [exec_unbound (.inr ⟨.inr rfl, hu⟩)] at he
    cases he
    exact hu
  | some u =>
    rw [exec_encClose hu] at he
    cases he
    rfl

/-- Settles O20: the Encoder's half of `exec_unbound`. -/
theorem unboundEncoderAnswersIllegal : Obligations.UnboundEncoderAnswersIllegal := by
  unfold Obligations.UnboundEncoderAnswersIllegal
  exact ⟨fun i s hi hu => exec_unbound (.inr ⟨hi, hu⟩), fun s t he => enc_of_encClose he⟩

/-- `ENC.NEW` with an empty buffer or an offset above 7 (R93). -/
theorem exec_encNew_invalid (s : State) {buf : BufRef} {off : Word64} (h : buf.len = 0 ∨ 7 < off.toNat) :
    exec (.encNew buf off) s = .next { s with resp := some (.fail .invalidArgument) } := by
  simp only [exec, execEncNew, newBinding_eq, if_pos h, answer_eq]

/-- Settles O42: the two answers of `newBinding`. -/
theorem encNewBindsTheEncoder : Obligations.EncNewBindsTheEncoder := by
  unfold Obligations.EncNewBindsTheEncoder
  intro s buf off
  refine ⟨exec_encNew_invalid s, fun hlen hoff => ?_⟩
  exact ⟨_, exec_encNew hlen hoff, rfl, rfl, rfl, rfl, rfl, rfl, rfl, rfl⟩

/-! ## The commands that write (R94, R97) -/

/-- Settles O46: one bit at the end of the buffer and inside it. -/
theorem encPutBitWritesOneBit : Obligations.EncPutBitWritesOneBit := by
  unfold Obligations.EncPutBitWritesOneBit
  intro s u b hu
  exact ⟨exec_writeBit_end rfl rfl hu, exec_writeBit_inside rfl rfl hu⟩

/-- The stream bits after a codeword has been written: only the bits of `X` can set one (R97). -/
theorem bitAt_putRun_codeword (v : Word64) (m : Memory) (u : Binding) (q : Nat) :
    bitAt (putRun (codeword v) m u).2.1 u.base q = (bitAt m u.base q ||
      (decide (u.pos + zeroRunOf v ≤ q ∧ q < u.pos + (2 * zeroRunOf v + 1) ∧ q < 8 * u.len) &&
        (xOf v).testBit (2 * zeroRunOf v - (q - u.pos)))) := by
  refine (bitAt_putRun_runOf (.encPutUnsigned v) m u q).trans (congrArg (bitAt m u.base q || ·) ?_)
  show (decide (u.pos ≤ q ∧ q < u.pos + (2 * zeroRunOf v + 1) ∧ q < 8 * u.len) && codewordBit v (q - u.pos)) = _
  by_cases hzeros : q - u.pos < zeroRunOf v
  · rw [codewordBit, if_pos hzeros, Bool.and_false, decide_eq_false (by omega), Bool.false_and]
  · have hfrom : u.pos ≤ q ↔ u.pos + zeroRunOf v ≤ q := by omega
    simp only [codewordBit, if_neg hzeros, hfrom]

/-- Settles O47: a write in linear positions, its run the codeword. -/
theorem encPutUnsignedByLinearPosition : Obligations.EncPutUnsignedByLinearPosition := by
  unfold Obligations.EncPutUnsignedByLinearPosition
  intro s u v hu hok
  refine ⟨_, exec_write_linear (i := .encPutUnsigned v) rfl hu hok.pos_le, fun hfits => ⟨?_, ?_⟩, fun hfull => ⟨?_, ?_⟩,
    bitAt_putRun_codeword v s.mem u, read_putRun_outside _ s.mem u, rfl, rfl, rfl, rfl, rfl, rfl⟩
  · exact congrArg (fun p => some (u.seek p)) (min_eq_left hfits)
  · exact congrArg some (if_pos hfits)
  · exact congrArg (fun p => some (u.seek p)) (min_eq_right hfull.le)
  · exact congrArg some (if_neg (Nat.not_le_of_lt hfull))

/-! ## A stream continued on a sub-buffer (R98) -/

/-- Two cursors at the same bit of host memory, with the same end of the buffer before them. -/
def Binding.SamePlace (u u' : Binding) : Prop :=
  8 * u'.base + u'.pos = 8 * u.base + u.pos ∧ 8 * u'.base + u'.size = 8 * u.base + u.size

/-- A run writes the same from the same place, whichever buffer the cursor counts from. -/
theorem putRun_samePlace {u u' : Binding} (h : u.SamePlace u') (bs : List Bit) (m : Memory) :
    (putRun bs m u').1 = (putRun bs m u).1 ∧ (putRun bs m u').2.1 = (putRun bs m u).2.1 ∧
      (putRun bs m u).2.2.SamePlace (putRun bs m u').2.2 := by
  induction bs generalizing m u u' with
  | nil => exact ⟨rfl, rfl, h⟩
  | cons b bs ih =>
    obtain ⟨hpos, hsize⟩ := h
    have hbyte : u'.base + u'.pos / 8 = u.base + u.pos / 8 := by omega
    have hbit : u'.pos % 8 = u.pos % 8 := by omega
    rw [putRun, putRun, putBit_eq, putBit_eq]
    by_cases hin : u.pos < u.size
    · have hmem : orBit b m u'.base u'.pos = orBit b m u.base u.pos := by simp only [orBit, hbyte, hbit]
      have hnext : (u.seek (u.pos + 1)).SamePlace (u'.seek (u'.pos + 1)) :=
        ⟨by simp only [seek_base, pos_seek]; omega, hsize⟩
      rw [if_pos hin, if_pos (by omega), hmem]
      exact ih hnext _
    · rw [if_neg hin, if_neg (by omega)]
      exact ⟨rfl, rfl, hpos, hsize⟩

/-- The binding that a NEW makes of the rest of a buffer, from the byte and the bit of a cursor inside it (R98). -/
def Binding.rest (u : Binding) : Binding := ⟨u.base + u.byte, u.len - u.byte, 0, u.bit⟩

theorem samePlace_rest {u : Binding} (h : u.byte ≤ u.len) : u.SamePlace u.rest := by
  simp only [Binding.SamePlace, Binding.rest, Binding.pos, Binding.size]
  omega

/-- `ENC.NEW` on the rest of a buffer (R93, R98). -/
theorem exec_encNew_rest (s : State) {u : Binding} (hin : u.byte < u.len) :
    ∃ t, exec (.encNew ⟨u.base + u.byte, u.len - u.byte⟩ (BitVec.ofNat 64 u.bit.toNat)) s = .next t ∧
      t.enc = some u.rest ∧ t.mem = s.mem := by
  have hbit := u.bit.isLt
  have hoff : (BitVec.ofNat 64 u.bit.toNat).toNat = u.bit.toNat := by rw [BitVec.toNat_ofNat]; omega
  refine ⟨_, exec_encNew (show u.len - u.byte ≠ 0 by omega) (by omega), ?_, rfl⟩
  rw [hoff, BitVec.ofNat_toNat, BitVec.setWidth_eq, Binding.rest]

/-- Settles O51: `ENC.NEW` on the rest of the buffer opens it at the place where the cursor stands. -/
theorem streamContinuesAfterClose : Obligations.StreamContinuesAfterClose := by
  unfold Obligations.StreamContinuesAfterClose
  intro s t u v hu _ hin he
  obtain rfl := Host.Outcome.next.inj ((exec_write rfl hu).symm.trans he)
  obtain ⟨s₁, hclose, -, -, hmem₁⟩ := exec_encClose_answers hu
  obtain ⟨s₂, hnew, hu₂, hmem₂⟩ := exec_encNew_rest s₁ hin
  have hput := exec_write (i := .encPutUnsigned v) rfl hu₂
  obtain ⟨hanswer, hmem, hplace, -⟩ := putRun_samePlace (samePlace_rest hin.le) (runOf (.encPutUnsigned v)) s.mem
  rw [hmem₂, hmem₁] at hput
  exact ⟨_, _, _, _, runAll_cons hclose rfl (runAll_cons hnew rfl (runAll_cons hput rfl rfl)),
    by rw [hanswer], hmem, rfl, rfl, hplace⟩

end Sys2Proof.Machine
end

section
/-!
PROOFS. One value written and read back (spec 43_encoder R99, R100): O52, O53.
-/

namespace Sys2Proof.Machine

/-- A binding that opens a buffer, moved to a position (R14). -/
theorem Binding.Opens.seek_eq {u : Binding} {buf : BufRef} {off : Nat} (h : u.Opens buf off) (p : Nat) :
    u.seek p = ⟨buf.base, buf.len, p / 8, BitVec.ofNat 3 (p % 8)⟩ := by
  obtain ⟨hbase, hsize, -⟩ := h
  have hlen : u.len = buf.len := Nat.eq_of_mul_eq_mul_left (by decide) hsize
  rw [Binding.seek, hbase, hlen]

/-- A value written from an offset on into a zero buffer with room for it, and the buffer opened for reading at that offset: a value
read there answers the value, and ends at the position that the Encoder answered (R99). -/
theorem runAll_write_then_open {s : State} {buf : BufRef} {off v : Word64} (hoff : off.toNat ≤ 7)
    (hfit : (codeword v).length ≤ 8 * buf.len - off.toNat)
    (hzero : ∀ q, off.toNat ≤ q → q < 8 * buf.len → bitAt s.mem buf.base q = false) :
    ∃ byte bit t d, runAll [.encNew buf off, .encPutUnsigned v, .encClose, .decNew buf off] s =
        some ([some (.ok .empty), some (.ok .empty), some (.ok (.position byte bit)), some (.ok .empty)], t) ∧
      t.dec = some d ∧ t.decTaken = false ∧ nextUnsigned t.mem d = (.ok v, ⟨buf.base, buf.len, byte, bit⟩) := by
  have hlen : buf.len ≠ 0 := by rw [codeword_length] at hfit; omega
  obtain ⟨s₁, e, hnew, hnewOk, he, hmem₁, hebase, hesize, hepos⟩ := exec_encNew_opens s hlen hoff
  have hefit : e.pos + (codeword v).length ≤ e.size := by omega
  obtain ⟨s₂, hput, hputOk, he₂, hmem₂⟩ : ∃ s₂, exec (.encPutUnsigned v) s₁ = .next s₂ ∧ s₂.resp = some (.ok .empty) ∧
      s₂.enc = some (e.seek (e.pos + (codeword v).length)) ∧ s₂.mem = (putRun (codeword v) s₁.mem e).2.1 :=
    ⟨_, exec_encPutUnsigned_of_fits he hefit, rfl, rfl, rfl⟩
  obtain ⟨s₃, hclose, hcloseOk, he₃, hmem₃⟩ := exec_encClose_answers he₂
  obtain ⟨s₄, d, hdec, hdecOk, hd, ht, hmem₄, hopens⟩ := exec_decNew_opens he₃ hlen hoff
  have ⟨hdbase, hdsize, hdpos⟩ := hopens
  have hcode : BitsAt s₄.mem d.base d.pos (codeword v) := by
    rw [hmem₄, hmem₃, hmem₂, hdbase, hdpos, ← hebase, ← hepos]
    refine bitsAt_putRun hefit fun q hq hlt => ?_
    rw [hmem₁, hebase]
    exact hzero q (by omega) (by omega)
  have hread := nextUnsigned_codeword (by omega) hcode
  rw [hopens.seek_eq, hdpos, ← hepos] at hread
  exact ⟨_, _, s₄, d, runAll_cons hnew hnewOk (runAll_cons hput hputOk (runAll_cons hclose hcloseOk
    (runAll_cons hdec hdecOk rfl))), hd, ht, hread⟩

/-- Settles O52: after the write and the reopening, `DEC.NEXT_UNSIGNED` answers what `nextUnsigned` reads. -/
theorem roundTripOfUnsignedValues : Obligations.RoundTripOfUnsignedValues := by
  unfold Obligations.RoundTripOfUnsignedValues
  intro s buf off v hoff hfit hzero
  obtain ⟨byte, bit, t, d, hrun, hd, ht, hvalue⟩ := runAll_write_then_open hoff ((codeword_length v).trans_le hfit) hzero
  have hread := exec_decNextUnsigned hd ht
  rw [hvalue] at hread
  exact ⟨byte, bit, _, runAll_append_some hrun (runAll_cons hread rfl rfl), rfl⟩

/-- Settles O53: `DEC.NEXT_SIGNED` maps what `nextUnsigned` reads, which is `S2U(v)`, and `U2S` undoes `S2U`. -/
theorem roundTripOfSignedValues : Obligations.RoundTripOfSignedValues := by
  unfold Obligations.RoundTripOfSignedValues
  intro s buf off v hoff hfit hzero
  obtain ⟨byte, bit, t, d, hrun, hd, ht, hvalue⟩ :=
    runAll_write_then_open hoff ((codeword_length (s2u v)).trans_le hfit) hzero
  have hread := exec_decNextSigned hd ht
  rw [hvalue, respond_ok, u2s_s2u] at hread
  exact ⟨byte, bit, _, runAll_append_some hrun (runAll_cons hread rfl rfl)⟩

end Sys2Proof.Machine
end

section
/-!
PROOFS. Which failure an instruction can answer, and the state it leaves (spec 60_exceptions R103, R106 to R111): O15, O17, O18.
-/

namespace Sys2Proof.Machine

/-! ## The codes (R103) -/

/-- The failure codes end at 5 (R103). -/
theorem code_le (e : Failure) : e.code.toNat ≤ 5 := by cases e <;> decide

/-- The `status` field of the record is the code of the response (R64, R103). -/
theorem responseRecord_status (r : Response) : (responseRecord r).status = statusCode r := by
  rcases r with (_ | _ | _ | _) | _ <;> rfl

/-- Settles O15: the codes by their definition, the bound by the cases of the response. -/
theorem statusCodesAreTheTables : Obligations.StatusCodesAreTheTables := by
  unfold Obligations.StatusCodesAreTheTables
  refine ⟨fun p => rfl, rfl, rfl, rfl, rfl, rfl, fun r => ⟨?_, responseRecord_status r⟩, fun e => rfl⟩
  cases r with
  | ok p => exact Nat.zero_le 5
  | fail e => exact code_le e

/-! ## How a read fails -/

/-- A bit read can only fail with EndOfStream, and then the cursor has not moved (R72). -/
theorem nextBit_of_fail {m : Memory} {u : Binding} {e : Failure} (he : (nextBit m u).1 = .fail e) :
    e = .endOfStream ∧ (nextBit m u).2 = u := by
  rw [nextBit_eq] at he ⊢
  split at he
  · cases he
  · next hend => exact ⟨(Result.fail.inj he).symm, by rw [if_neg hend]⟩

/-- Past the end of the buffer the prefix phase meets no bit (R80). -/
theorem prefixPhase_past_end (m : Memory) {u : Binding} (h : u.size ≤ u.pos) :
    prefixPhase m u = (.fail .endOfStream, u) := by
  rw [prefixPhase, countZeros, nextBit_eq, if_neg (Nat.not_lt_of_le h)]

/-- A value read can only fail with EndOfStream or Overflow, wherever the cursor stands (R82). -/
theorem nextUnsigned_of_fail {m : Memory} {u : Binding} {e : Failure} (he : (nextUnsigned m u).1 = .fail e) :
    e = .endOfStream ∨ e = .overflow := by
  rcases Nat.le_total u.pos u.size with hin | hpast
  · obtain ⟨z, hz⟩ := exists_zeroRun m u hin
    rw [nextUnsigned_eq hz] at he
    split_ifs at he <;> cases he <;> decide
  · rw [nextUnsigned, prefixPhase_past_end m hpast] at he
    cases he
    exact .inl rfl

/-- A value skip can only fail with EndOfStream or Overflow, wherever the cursor stands (R85). -/
theorem skipNext_of_fail {m : Memory} {u : Binding} {e : Failure} (he : (skipNext m u).1 = .fail e) :
    e = .endOfStream ∨ e = .overflow := by
  rcases Nat.le_total u.pos u.size with hin | hpast
  · obtain ⟨z, hz⟩ := exists_zeroRun m u hin
    rw [skipNext_eq hz] at he
    split_ifs at he <;> cases he <;> decide
  · rw [skipNext, prefixPhase_past_end m hpast] at he
    cases he
    exact .inl rfl

/-- A read can only fail with EndOfStream or Overflow, as its row of the table says (R109). -/
theorem readFn_of_fail {i : Instr} (hi : isRead i = true) {m : Memory} {u : Binding} {e : Failure}
    (he : (readFn i m u).1 = .fail e) : (e = .endOfStream ∨ e = .overflow) ∧ e ∈ failuresOf i := by
  cases i with
  | decNextBit | rcNextBit =>
    obtain ⟨rfl, -⟩ := nextBit_of_fail (respond_eq_fail he)
    decide
  | decNextUnsigned | decNextSigned => rcases nextUnsigned_of_fail (respond_eq_fail he) with rfl | rfl <;> decide
  | decSkipNext => rcases skipNext_of_fail (respond_eq_fail he) with rfl | rfl <;> decide
  | rcSkipBits n => cases he
  | _ => cases hi

/-- A bit read that fails leaves the cursor (R72, R79). -/
theorem readFn_bit_of_fail {i : Instr} (hi : i = .decNextBit ∨ i = .rcNextBit) {m : Memory} {u : Binding} {e : Failure}
    (he : (readFn i m u).1 = .fail e) : (readFn i m u).2 = u := by
  rcases hi with rfl | rfl <;> exact (nextBit_of_fail (respond_eq_fail he)).2

/-! ## How a read overflows -/

section
variable {m : Memory} {u : Binding} {z : Nat} (hz : ZeroRun m u z)
include hz

/-- A value read overflows at the 65th zero, or after the suffix of a prefix of 64 zeros (R80, R82). -/
theorem nextUnsigned_of_overflow (he : (nextUnsigned m u).1 = .fail .overflow) :
    (65 ≤ z ∧ (nextUnsigned m u).2 = u.seek (u.pos + 65)) ∨
      (z = 64 ∧ u.pos + 129 ≤ u.size ∧ fieldAt m u.base (u.pos + 65) 64 ≠ 0 ∧
        (nextUnsigned m u).2 = u.seek (u.pos + 129)) := by
  rw [nextUnsigned_eq hz] at he ⊢
  split_ifs at he ⊢ with hlong _ hcut hover
  · exact .inl ⟨hlong, rfl⟩
  · cases he
  · cases he
  · obtain ⟨rfl, hsuffix⟩ := hover
    exact .inr ⟨rfl, by omega, hsuffix, rfl⟩

/-- A value skip overflows at the 65th zero only (R85). -/
theorem skipNext_of_overflow (he : (skipNext m u).1 = .fail .overflow) :
    65 ≤ z ∧ (skipNext m u).2 = u.seek (u.pos + 65) := by
  rw [skipNext_eq hz] at he ⊢
  split_ifs at he ⊢ with hlong
  · exact ⟨hlong, rfl⟩
  · cases he

/-- The two rows of the table for a read that overflows (R111). -/
theorem readFn_of_overflow {i : Instr} (hi : isRead i = true) (he : (readFn i m u).1 = .fail .overflow) :
    (65 ≤ z ∧ (readFn i m u).2 = u.seek (u.pos + 65)) ∨
      (i ≠ .decSkipNext ∧ z = 64 ∧ u.pos + 129 ≤ u.size ∧ fieldAt m u.base (u.pos + 65) 64 ≠ 0 ∧
        (readFn i m u).2 = u.seek (u.pos + 129)) := by
  cases i with
  | decNextUnsigned | decNextSigned =>
    exact (nextUnsigned_of_overflow hz (respond_eq_fail he)).imp_right fun hsuffix => ⟨nofun, hsuffix⟩
  | decSkipNext => exact .inl (skipNext_of_overflow hz (respond_eq_fail he))
  | decNextBit | rcNextBit => cases (nextBit_of_fail (respond_eq_fail he)).1
  | rcSkipBits n => cases he
  | _ => cases hi

end

/-! ## How an instruction fails -/

/-- A write can only fail with Full (R91). -/
theorem putRun_of_fail {bs : List Bit} {m : Memory} {u : Binding} {e : Failure} (he : (putRun bs m u).1 = .fail e) :
    e = .full := by
  induction bs generalizing m u with
  | nil => cases he
  | cons b bs ih =>
    rw [putRun, putBit_eq] at he
    by_cases hin : u.pos < u.size
    · rw [if_pos hin] at he
      exact ih he
    · rw [if_neg hin] at he
      cases he
      rfl

/-- Everything an instruction that answers a failure can have done, by the failure. -/
inductive Failed (i : Instr) (s : State) : Failure → State → Prop where
  /-- A command to an unbound unit. -/
  | illegal (h : (isDecRead i = true ∧ s.dec = none) ∨ ((isEncWrite i = true ∨ i = .encClose) ∧ s.enc = none)) :
      Failed i s .illegal { s with resp := some (.fail .illegal) }
  /-- A NEW with an operand out of range. -/
  | invalidArgument (h : isDecNew i = true ∨ isEncNew i = true) :
      Failed i s .invalidArgument { s with resp := some (.fail .invalidArgument) }
  /-- A read that reached the end of the buffer. -/
  | endOfStream (u : Binding) (hi : isRead i = true) (hu : s.dec = some u)
      (he : (readFn i s.mem u).1 = .fail .endOfStream) :
      Failed i s .endOfStream { s with dec := some (readFn i s.mem u).2, resp := some (.fail .endOfStream) }
  /-- A read of a codeword that stands for no value. -/
  | overflow (u : Binding) (hi : isRead i = true) (hu : s.dec = some u) (he : (readFn i s.mem u).1 = .fail .overflow) :
      Failed i s .overflow { s with dec := some (readFn i s.mem u).2, resp := some (.fail .overflow) }
  /-- A write that reached the end of the buffer. -/
  | full (u : Binding) (hi : isWrite i = true) (hu : s.enc = some u) (he : (putRun (runOf i) s.mem u).1 = .fail .full) :
      Failed i s .full { s with
        enc := some (putRun (runOf i) s.mem u).2.2
        mem := (putRun (runOf i) s.mem u).2.1
        resp := some (.fail .full) }

/-- The inversion lemma of `exec` for a failure. -/
theorem exec_failed {i : Instr} {s t : State} {e : Failure} (hnext : exec i s = .next t) (hr : t.resp = some (.fail e)) :
    Failed i s e t := by
  cases exec_did hnext with
  | illegal h =>
    cases hr
    exact .illegal h
  | badNew h =>
    cases hr
    exact .invalidArgument h
  | decNew | encNew | close => cases hr
  | read u hi hu =>
    have he : (readFn i s.mem u).1 = .fail e := Option.some.inj hr
    rw [he]
    obtain ⟨rfl | rfl, -⟩ := readFn_of_fail hi he
    · exact .endOfStream u hi hu he
    · exact .overflow u hi hu he
  | write u hi hu =>
    have he : (putRun (runOf i) s.mem u).1 = .fail e := respond_eq_fail (Option.some.inj hr)
    obtain rfl := putRun_of_fail he
    rw [he]
    exact .full u hi hu he

/-- A failure stands in the instruction's row of the table (R109). -/
theorem Failed.mem_failuresOf {i : Instr} {s t : State} {e : Failure} (h : Failed i s e t) : e ∈ failuresOf i := by
  cases h with
  | illegal h => cases i <;> simp [isDecRead, isEncWrite, failuresOf] at h ⊢
  | invalidArgument h => cases i <;> simp [isDecNew, isEncNew, failuresOf] at h ⊢
  | endOfStream u hi hu he => exact (readFn_of_fail hi he).2
  | overflow u hi hu he => exact (readFn_of_fail hi he).2
  | full u hi hu he => cases i <;> simp [isWrite, isEncWrite, isWriteCursorOp, failuresOf] at hi ⊢

/-- Settles O17: by the cases of a failure. -/
theorem commandsAnswerOnlyTheirStatuses : Obligations.CommandsAnswerOnlyTheirStatuses := by
  unfold Obligations.CommandsAnswerOnlyTheirStatuses
  intro i s t he
  refine ⟨t.answered, exec_answers he, fun e hr => ?_⟩
  have hfailed : Failed i s e t := exec_failed he (hr ▸ exec_answers he)
  refine ⟨hfailed.mem_failuresOf, ?_⟩
  rintro rfl
  cases hfailed with
  | illegal h => exact h

/-! ## The state each failure leaves (R111) -/

/-- A write that answers Full did not fit, and leaves the cursor at the end (R91, R97). -/
theorem putRun_of_full {i : Instr} {m : Memory} {u : Binding} (hpos : u.pos ≤ u.size)
    (he : (putRun (runOf i) m u).1 = .fail .full) :
    8 * u.len < u.pos + runLength i ∧ (putRun (runOf i) m u).2.2 = { u with byte := u.len, bit := 0 } := by
  obtain ⟨hanswer, hcursor⟩ := putRun_end (runOf i) m u hpos
  rw [runOf_length] at hanswer hcursor
  rw [hanswer] at he
  split at he
  · cases he
  · next hfull => exact ⟨Nat.lt_of_not_le hfull, by rw [hcursor, min_eq_right (by omega), seek_size_eq]⟩

/-- A bit write that does not fit changes nothing (R89, R94). -/
theorem exec_writeBit_full {i : Instr} {s t : State} {u : Binding} {b : Bit} (hi : i = .encPutBit b ∨ i = .wcPutBit b)
    (hu : s.enc = some u) (hok : u.Ok) (hfull : 8 * u.len < u.pos + runLength i) (he : exec i s = .next t) :
    t = { s with resp := some (.fail .full) } := by
  obtain ⟨hwrite, hrun, hone⟩ : isWrite i = true ∧ runOf i = [b] ∧ runLength i = 1 := by
    rcases hi with rfl | rfl <;> exact ⟨rfl, rfl, rfl⟩
  obtain ⟨-, -, hin, -⟩ := hok
  have hpos := pos_lt_size u
  have hend : u.byte = u.len := by simp only [Binding.size] at hpos; omega
  exact Host.Outcome.next.inj (he.symm.trans (exec_writeBit_end hwrite hrun hu hend))

/-- Settles O18: each failure has one case of `Failed`, and the rows of the table say where the cursor is then. -/
theorem failuresLeaveTheTablesState : Obligations.FailuresLeaveTheTablesState := by
  unfold Obligations.FailuresLeaveTheTablesState
  rintro i s t ⟨-, hdec, henc, -, -, -⟩ he
  refine ⟨fun hr => ?_, fun hr => ?_, fun hr => ?_, fun hr => ?_, fun hr => ?_⟩
  · cases exec_failed he hr with
    | illegal => rfl
  · cases exec_failed he hr with
    | invalidArgument => rfl
  · cases exec_failed he hr with
    | endOfStream u hi hu hfail =>
      refine ⟨u, hu, ?_, fun hbit => ?_⟩
      · rw [readFn_of_endOfStream hi (hdec u hu).pos_le hfail, seek_size_eq]
      · rw [readFn_bit_of_fail hbit hfail, set_dec hu]
  · cases exec_failed he hr with
    | overflow u hi hu hfail =>
      obtain ⟨z, hz⟩ := exists_zeroRun s.mem u (hdec u hu).pos_le
      have ⟨hsize, hzeros, _⟩ := hz
      refine ⟨u, hu, ?_⟩
      rcases readFn_of_overflow hz hi hfail with ⟨hlong, hcursor⟩ | ⟨hskip, rfl, hfit, hsuffix, hcursor⟩ <;> rw [hcursor]
      · exact .inl ⟨(Nat.add_le_add_left hlong _).trans hsize, fun j hj => hzeros j (by omega), rfl⟩
      · exact .inr ⟨hskip, hfit, hz, hsuffix, rfl⟩
  · cases exec_failed he hr with
    | full u hi hu hfail =>
      obtain ⟨hfull, hcursor⟩ := putRun_of_full (henc u hu).pos_le hfail
      exact ⟨u, hu, hfull, by rw [hcursor], bitAt_putRun_runOf i s.mem u, read_putRun_outside _ s.mem u,
        fun b hbit => exec_writeBit_full hbit hu (henc u hu) hfull he⟩

end Sys2Proof.Machine
end

section
/-!
PROOFS. Reset between commands, and the wait that follows it (spec 70_reset R116): O10.
-/

namespace Sys2Proof.Machine

/-- A reset that abandons no Encoder command leaves memory as it is. -/
theorem resetDuringRun_mem_of_encCmd_none {s : State} (h : s.encCmd = none) (rest : List Request) :
    (resetDuringRun s.unwritten { s with inbox := rest }).mem = s.mem := by
  rw [unwritten_of_none h, resetDuringRun_mem, memAfterPart_nil]

/-- Settles O10: after reset nothing is requested or in progress, so the block waits (O9); a step that takes a reset is `step_reset`,
and an Encoder with no command in progress has no run to leave in memory. -/
theorem resetUnbindsBothUnits : Obligations.ResetUnbindsBothUnits := by
  unfold Obligations.ResetUnbindsBothUnits
  obtain ⟨waits, -, -⟩ := stepWaitsForARequest State.reset rfl
  refine ⟨rfl, rfl, rfl, rfl, waits rfl rfl, fun s rest hin => ?_⟩
  exact ⟨_, step_reset hin, resetDuringRun_dec .., resetDuringRun_enc .., resetDuringRun_decCmd .., resetDuringRun_encCmd ..,
    resetDuringRun_inbox .., fun hc => resetDuringRun_mem_of_encCmd_none hc rest⟩

end Sys2Proof.Machine
end
